-- ==== Sys2Proof/Word.lean ====
section
/-! DEFINITION. The 64-bit word, the byte, and the pair of words that is one complex value (R6, R12, R70). -/

namespace Sys2Proof

/-- A register, a command word, one half of a data-memory entry, or a binary64 bit pattern (R6, R15, R60). -/
abbrev Word := BitVec 64

/-- The byte of a host access's data word (R35). -/
abbrev Byte := BitVec 8

/-- One 128-bit data-memory entry: `re` is bits [63:0], `im` is bits [127:64] (R12, R70). The same pair stands for the
raw entry, because reading a half as binary64 changes no bit (R38). -/
structure Cplx where
  re : Word
  im : Word
  deriving DecidableEq, Repr, Inhabited

end Sys2Proof
end

