-- ==== Sys2Proof/Config.lean ====
section
/-! DEFINITION. What an implementation of FFTB fixes: the parameters of R5, and the one free value of the model. -/

namespace Sys2Proof

/-- How the stage root and the twiddles are formed (R80). -/
inductive TwMode where
  | gen
  | level
  | direct
  deriving DecidableEq, Repr

/-- The parameters of R5. They stand in `State` and no step changes them (log entry 1). -/
structure Params where
  log2Nmax : Nat
  log2Dmem : Nat
  twmode   : TwMode
  base     : Nat
  deriving DecidableEq, Repr

/-- The defaults of R5. DESIGN CHOICE, unsafe: R5 leaves BASE open; 0 is one of its legal values (log entry 1). -/
def Params.default : Params := ⟨16, 18, .gen, 0⟩

/-- The legal values of the parameters (R5). -/
abbrev Params.legal (p : Params) : Prop :=
  1 ≤ p.log2Nmax ∧ p.log2Nmax ≤ 20 ∧ p.log2Nmax ≤ p.log2Dmem ∧ p.log2Dmem ≤ 20 ∧ p.base % 0x02000000 = 0

/-- FREE VALUE: an entry of the twiddle ROM that is absent (R83). With legal parameters no command reads one (log entry 9). -/
opaque Config.absentRoot : Nat → Cplx

end Sys2Proof
end

