-- ==== Sys2Proof/Syntax.lean ====
section
/-! DEFINITION. The commands of FFTB: one constructor per row of spec/opcode_table.json (R52). -/

namespace Sys2Proof

/-- A legal command. Operands other than the stage number S and the direction INV are not in the word (R50, R51). -/
inductive Instr where
  | nop
  | fft
  | ifft
  | bitrev
  | stage (s : Nat) (inv : Bool)
  | twid (s : Nat) (inv : Bool)
  | vadd
  | vsub
  | vmul
  | vsqr
  | vdiv
  | vdivs
  | vcvt
  | vround
  deriving DecidableEq, Repr

end Sys2Proof
end

