-- ==== Sys2Proof/WellFormed.lean ====
section
/-! DEFINITION. Which terms of `Instr` are commands of the hardware: the stage number fits its 6-bit field (R50). -/

namespace Sys2Proof

/-- S is an unsigned 6-bit field, 0 to 63 (R50); every value of it is admissible in the word (R53). -/
def Instr.wellFormed : Instr → Bool
  | .stage s _ => decide (s < 64)
  | .twid s _ => decide (s < 64)
  | .nop => true
  | .fft => true
  | .ifft => true
  | .bitrev => true
  | .vadd => true
  | .vsub => true
  | .vmul => true
  | .vsqr => true
  | .vdiv => true
  | .vdivs => true
  | .vcvt => true
  | .vround => true

end Sys2Proof
end

