-- ==== Sys2Proof/Decode.lean ====
section
/-! DEFINITION. Bit fields and byte order, the decoder of the command word (R50 to R54) and, after it, the encoder. -/

namespace Sys2Proof

/-- `v[lo+len-1 : lo]` as an unsigned integer (R6). -/
def field (v : Word) (lo len : Nat) : Nat := v.toNat / 2 ^ lo % 2 ^ len

/-- The eight bytes of a word, bits [8k+7:8k] at position k (R35). -/
def bytesOfWord (w : Word) : List Byte :=
  [BitVec.ofNat 8 (w.toNat), BitVec.ofNat 8 (w.toNat / 2 ^ 8), BitVec.ofNat 8 (w.toNat / 2 ^ 16),
   BitVec.ofNat 8 (w.toNat / 2 ^ 24), BitVec.ofNat 8 (w.toNat / 2 ^ 32), BitVec.ofNat 8 (w.toNat / 2 ^ 40),
   BitVec.ofNat 8 (w.toNat / 2 ^ 48), BitVec.ofNat 8 (w.toNat / 2 ^ 56)]

/-- The little-endian number that a list of bytes spells (R35). -/
def natOfBytes : List Byte → Nat
  | [] => 0
  | b :: bs => b.toNat + 2 ^ 8 * natOfBytes bs

/-- The word that bytes, lowest address first, spell (R35). -/
def wordOfBytes (bs : List Byte) : Word := BitVec.ofNat 64 (natOfBytes bs)

/-- Why a word is not a legal command (R53, R54). -/
inductive IllegalWord where
  /-- a non-zero bit in [63:15] -/
  | reservedBits
  /-- an OPC value that R52 does not list -/
  | reservedOpcode (opc : Nat)
  /-- a non-zero S or INV with an OPC other than STAGE and TWID -/
  | strayField
  /-- not the eight bytes of one command word (R55) -/
  | wrongLength
  deriving DecidableEq, Repr

/-- The operations that have no field in the word, by their OPC (R52). -/
def plainOp (opc : Nat) : Option Instr :=
  if opc = 0x00 then some .nop
  else if opc = 0x01 then some .fft
  else if opc = 0x02 then some .ifft
  else if opc = 0x03 then some .bitrev
  else if opc = 0x10 then some .vadd
  else if opc = 0x11 then some .vsub
  else if opc = 0x12 then some .vmul
  else if opc = 0x13 then some .vsqr
  else if opc = 0x14 then some .vdiv
  else if opc = 0x15 then some .vdivs
  else if opc = 0x18 then some .vcvt
  else if opc = 0x19 then some .vround
  else none

/-- The decoder of the command word: OPC [7:0], S [13:8], INV [14], RSV [63:15] (R50, R51, R53). -/
def decode (w : Word) : Except IllegalWord Instr :=
  if field w 15 49 ≠ 0 then .error .reservedBits
  else if field w 0 8 = 0x04 then .ok (.stage (field w 8 6) (decide (field w 14 1 = 1)))
  else if field w 0 8 = 0x05 then .ok (.twid (field w 8 6) (decide (field w 14 1 = 1)))
  else match plainOp (field w 0 8) with
    | none => .error (.reservedOpcode (field w 0 8))
    | some i => if field w 8 7 = 0 then .ok i else .error .strayField

/-- The decoder on bytes, lowest address first: every command is exactly 64 bits (R50, R55). -/
def decodeBytes (bs : List Byte) : Except IllegalWord Instr :=
  if bs.length = 8 then decode (wordOfBytes bs) else .error .wrongLength

/-- The command that the decoder reads from a row's word `w` of `nbits` bits, laid out as bytes (R35); bits above `nbits` are 0. -/
def decodeTableWord (nbits w : Nat) : Option Instr :=
  match decodeBytes (bytesOfWord (BitVec.ofNat 64 (w % 2 ^ nbits))) with
  | .ok i => some i
  | .error _ => none

/-- The OPC of a command (R52). -/
def Instr.opcode : Instr → Nat
  | .nop => 0x00
  | .fft => 0x01
  | .ifft => 0x02
  | .bitrev => 0x03
  | .stage _ _ => 0x04
  | .twid _ _ => 0x05
  | .vadd => 0x10
  | .vsub => 0x11
  | .vmul => 0x12
  | .vsqr => 0x13
  | .vdiv => 0x14
  | .vdivs => 0x15
  | .vcvt => 0x18
  | .vround => 0x19

/-- The S field of a command's word; 0 where the command has none (R53). -/
def Instr.stageField : Instr → Nat
  | .stage s _ => s
  | .twid s _ => s
  | _ => 0

/-- The INV field of a command's word; 0 where the command has none (R53). -/
def Instr.invField : Instr → Bool
  | .stage _ inv => inv
  | .twid _ inv => inv
  | _ => false

/-- The word of a command: `OPC | S << 8 | INV << 14`, reserved bits 0 (R53). -/
def encode (i : Instr) : Word :=
  BitVec.ofNat 64 (i.opcode + 2 ^ 8 * i.stageField + if i.invField then 2 ^ 14 else 0)

/-- The OPC values that admit no S and no INV (R53). -/
def plainOpcodes : List Nat := [0x00, 0x01, 0x02, 0x03, 0x10, 0x11, 0x12, 0x13, 0x14, 0x15, 0x18, 0x19]

/-- `Legal(cmd)`, written from R53's own formula. -/
def legalWord (w : Word) : Bool :=
  field w 15 49 == 0 &&
    ((field w 0 8 == 0x04 || field w 0 8 == 0x05) || (plainOpcodes.contains (field w 0 8) && field w 8 7 == 0))

end Sys2Proof
end

