-- ==== Sys2Proof/Machine/State.lean ====
section
/-! DEFINITION. The state of the block (R10) and of the host agent beside it (R9), the reasons a step stops, and reset. -/

namespace Sys2Proof.Machine

/-- The error codes of R140; the codes 7 to 15 are never reported, so they have no constructor. -/
inductive ErrorCode where
  | none
  | invalidArgument
  | overflow
  | illegalCommand
  | tooLong
  | range
  | overlap
  deriving DecidableEq, Repr

/-- The registers of the register page (R15). -/
inductive Reg where
  | id
  | cfg
  | status
  | erridx
  | irqen
  | cmd
  | len
  | srca
  | srcb
  | dst
  | scalar
  deriving DecidableEq, Repr

/-- The stored fields of STATUS (R18). IRQ is a function of STATUS and IRQEN and is not stored (R10, R150). -/
structure Status where
  busy    : Bool
  done    : Bool
  err     : Bool
  haz     : Bool
  errcode : ErrorCode
  deriving DecidableEq, Repr

/-- The registers that a host write stores to (R20 to R24); ERRIDX stands beside STATUS in `State`. -/
structure Regs where
  irqen  : BitVec 3
  cmd    : Word
  len    : Word
  srca   : Word
  srcb   : Word
  dst    : Word
  scalar : Word
  deriving DecidableEq, Repr

/-- The latched operand set `L` (R25). -/
structure Latch where
  cmd    : Word
  len    : Word
  srca   : Word
  srcb   : Word
  dst    : Word
  scalar : Word
  deriving DecidableEq, Repr

/-- Data memory as bytes: byte `k` of half `h` of entry `e` is at address `16·e + 8·h + k` (R12, R35). A listed byte has been
written since reset, an unlisted one has not (R46, log entry 4). -/
abbrev Memory := List Host.Cell

/-- One statement of an assembled host program: the bus accesses and the host's own control (R37, R56). -/
inductive HostOp where
  /-- `var <- MemRead(addr, size)` -/
  | read (addr size var : Nat)
  /-- `MemWrite(addr, size, v)` -/
  | write (addr size : Nat) (v : Word)
  /-- continue at statement `target` if bit `k` of `var` is 1 -/
  | bit (var k target : Nat)
  /-- continue at statement `target` -/
  | jmp (target : Nat)
  /-- the assertion `var[hi:lo] == imm` of a test program -/
  | expect (var hi lo : Nat) (imm : Word)
  deriving DecidableEq, Repr

/-- The host agent (R9): its program, the statement it is at, and the values it has read. -/
structure HostAgent where
  program : List HostOp
  pc      : Nat
  vars    : List (Nat × Word)
  deriving DecidableEq, Repr

/-- Whose turn is next in the interleaving (R41, R177, log entry 5). -/
inductive Turn where
  | host
  | engine
  | reset
  deriving DecidableEq, Repr

/-- The block (params, dmem, status, erridx, regs, latch), the host agent, and the interleaving still to come. -/
structure State where
  params   : Params
  dmem     : Memory
  status   : Status
  erridx   : Word
  regs     : Regs
  latch    : Latch
  host     : HostAgent
  schedule : List Turn
  deriving DecidableEq, Repr

/-- The reasons a step stops with a fault. -/
inductive Fault where
  /-- Raised by a host access that is not 8 bytes, not 8-aligned or unmapped (R33, R155). Safe: the block's state is unchanged. -/
  | busError (addr size : Nat)
  /-- Raised by a host access that the block does not decode, which is the platform's (R31). Safe: the model stops. -/
  | outsideBlock (addr : Nat)
  /-- Raised by a read of a half of entry `e` that was never written since reset (R46). Safe: the spec asks for the stop. -/
  | uninitRead (e : Nat)
  /-- Raised by an `expect` of the host program that does not hold (R56). Safe: the test program failed. -/
  | expectFailed (var : Nat)
  /-- Raised by a host statement that reads a variable no statement assigned (R56). Safe: the model stops. -/
  | unassignedVariable (var : Nat)
  deriving DecidableEq, Repr

/-- The reasons a step is refused. -/
inductive Refusal where
  /-- Raised by an arm of exec whose command has no meaning yet; no arm of this model is such an arm. Safe. -/
  | notModelled (mnemonic : String)
  deriving DecidableEq, Repr

/-- How a command's execution ends when it does not end with code NONE: an error code with an index (R7, R140), or the model
fault of R46. -/
inductive Stop where
  | raised (code : ErrorCode) (idx : Nat)
  | uninit (e : Nat)
  deriving DecidableEq, Repr

/-- What a host access that the block serves reaches: a register, or one half of a data-memory entry (R31, R32). -/
inductive Target where
  | reg (r : Reg)
  | half (e : Nat) (hi : Bool)
  deriving DecidableEq, Repr

/-- STATUS after reset (R170). -/
def Status.reset : Status := ⟨false, false, false, false, .none⟩

/-- The registers after reset (R15, R170). -/
def Regs.reset : Regs := ⟨0, 0, 0, 0, 0, 0, 0⟩

/-- DESIGN CHOICE, unsafe: R29 leaves `L` after reset unspecified and no command reads it before an acceptance (log entry 2). -/
def Latch.reset : Latch := ⟨0, 0, 0, 0, 0, 0⟩

/-- No host program is loaded at reset (log entry 6). -/
def HostAgent.idle : HostAgent := ⟨[], 0, []⟩

/-- The machine right after reset (R29, R170): idle, every register at its value of R15, no byte of DMEM written. -/
def State.reset : State :=
  { params := Params.default, dmem := [], status := Status.reset, erridx := 0, regs := Regs.reset, latch := Latch.reset,
    host := HostAgent.idle, schedule := [] }

end Sys2Proof.Machine
end

