-- ==== Sys2Proof/Machine/Flags.lean ====
section
/-! DEFINITION. The STATUS word and its flags: error code numbers, `irq`, assembly of the word, the W1C write, and the flags
that acceptance, completion and a protocol violation set. -/

namespace Sys2Proof.Machine

/-- The number of an error code in STATUS.ERRCODE (R140). -/
def ErrorCode.number : ErrorCode → Nat
  | .none => 0
  | .invalidArgument => 1
  | .overflow => 2
  | .illegalCommand => 3
  | .tooLong => 4
  | .range => 5
  | .overlap => 6

/-- The level of the interrupt output (R150). -/
def irq (st : Status) (irqen : BitVec 3) : Bool :=
  (st.done && irqen.getLsbD 0) || (st.err && irqen.getLsbD 1) || (st.haz && irqen.getLsbD 2)

/-- A flag at bit `k` of a word. -/
def flagAt (b : Bool) (k : Nat) : Nat := if b then 2 ^ k else 0

/-- The STATUS word a host reads (R18); the reserved bits are 0 (R28). -/
def statusWord (st : Status) (irqen : BitVec 3) : Word :=
  BitVec.ofNat 64 (flagAt st.busy 0 + flagAt st.done 1 + flagAt st.err 2 + flagAt st.haz 3 + flagAt (irq st irqen) 4
    + 2 ^ 8 * st.errcode.number)

/-- A host write to STATUS: DONE, ERR and HAZ are cleared by a 1, every other bit is ignored (R18). -/
def Status.clearedBy (st : Status) (v : Word) : Status :=
  { st with done := st.done && !v.getLsbD 1, err := st.err && !v.getLsbD 2, haz := st.haz && !v.getLsbD 3 }

/-- STATUS after an acceptance: BUSY set, DONE, ERR and ERRCODE cleared, HAZ kept (R26). -/
def Status.accepted (st : Status) : Status :=
  { busy := true, done := false, err := false, haz := st.haz, errcode := .none }

/-- STATUS after a completion with `code`: BUSY cleared, DONE set, ERR exactly when the code is not NONE, HAZ kept (R26). -/
def Status.completed (st : Status) (code : ErrorCode) : Status :=
  { busy := false, done := true, err := decide (code ≠ .none), haz := st.haz, errcode := code }

/-- STATUS after a protocol violation: HAZ set and nothing else (R146). -/
def Status.hazard (st : Status) : Status := { st with haz := true }

end Sys2Proof.Machine
end

