-- ==== Sys2Proof/Machine/Ops.lean ====
section
/-! DEFINITION. The named operations over memory and registers: data-memory bytes, halves and entries; lanes; acceptance and
completion of a command (the block's whole "entry" and "return": it has no traps, R144); reset. -/

namespace Sys2Proof.Machine

/-! ### Data memory -/

/-- The canonical form: addresses strictly rising. An unlisted address reads as no value, so no entry can equal it (R46). -/
abbrev Memory.wf (m : Memory) : Prop := m.Pairwise (fun c d => c.1 < d.1)

/-- One byte; `none` if it was never written (R46). -/
def Memory.read : Memory → Nat → Option Byte
  | [], _ => none
  | (a', b) :: m, a => if a = a' then some b else Memory.read m a

/-- Write one byte, keeping the canonical form. -/
def Memory.write : Memory → Nat → Byte → Memory
  | [], a, b => [(a, b)]
  | (a', b') :: m, a, b =>
    if a < a' then (a, b) :: (a', b') :: m
    else if a = a' then (a, b) :: m
    else (a', b') :: Memory.write m a b

/-- `n` bytes from address `a` on; `none` if one of them was never written. -/
def Memory.readBytes (m : Memory) : Nat → Nat → Option (List Byte)
  | _, 0 => some []
  | a, n + 1 =>
    match m.read a, m.readBytes (a + 1) n with
    | some b, some bs => some (b :: bs)
    | _, _ => none

/-- Write bytes from address `a` on, lowest first. -/
def Memory.writeBytes (m : Memory) : Nat → List Byte → Memory
  | _, [] => m
  | a, b :: bs => (m.write a b).writeBytes (a + 1) bs

/-- The 64 bits at byte address `a`, little-endian; `none` if never written (R35, R46). -/
def Memory.readWord (m : Memory) (a : Nat) : Option Word := (m.readBytes a 8).map wordOfBytes

/-- Write 64 bits at byte address `a`, little-endian (R35). -/
def Memory.writeWord (m : Memory) (a : Nat) (w : Word) : Memory := m.writeBytes a (bytesOfWord w)

/-- The byte address of bits [63:0] of entry `e` inside data memory (R32). -/
def loAddr (e : Nat) : Nat := 16 * e

/-- The byte address of bits [127:64] of entry `e` inside data memory (R32). -/
def hiAddr (e : Nat) : Nat := 16 * e + 8

/-- `DRead(e)` and `DReadRaw(e)`: both halves, no bit changed; `none` if a half was never written (R38, R46). -/
def Memory.readEntry (m : Memory) (e : Nat) : Option Cplx :=
  match m.readWord (loAddr e), m.readWord (hiAddr e) with
  | some lo, some hi => some ⟨lo, hi⟩
  | _, _ => none

/-- `DWrite(e, c)` and `DWriteRaw(e, w)`: both halves written (R38). -/
def Memory.writeEntry (m : Memory) (e : Nat) (c : Cplx) : Memory :=
  (m.writeWord (loAddr e) c.re).writeWord (hiAddr e) c.im

/-- Write consecutive entries from `e` on. -/
def writeEntries (m : Memory) : Nat → List Cplx → Memory
  | _, [] => m
  | e, c :: cs => writeEntries (m.writeEntry e c) (e + 1) cs

/-- The engine's read of a whole entry: the model fault of R46 if a half was never written. -/
def dRead (m : Memory) (e : Nat) : Except Stop Cplx :=
  match m.readEntry e with
  | some c => .ok c
  | none => .error (.uninit e)

/-- `DReadLo(e)`: bits [63:0] only (R38); the other half may be never written (R46). -/
def dReadLo (m : Memory) (e : Nat) : Except Stop Word :=
  match m.readWord (loAddr e) with
  | some w => .ok w
  | none => .error (.uninit e)

/-- The results of lanes `i, i+1, ..., i+n-1` in order, or the first lane's stop (R110, R118, R141). DESIGN CHOICE, safe: of several
never-written entries the first in lane order is named (log entry 3). -/
def lanes {α : Type} (f : Nat → Except Stop α) : (n i : Nat) → Except Stop (List α)
  | 0, _ => .ok []
  | n + 1, i =>
    match f i with
    | .error e => .error e
    | .ok x =>
      match lanes f n (i + 1) with
      | .error e => .error e
      | .ok xs => .ok (x :: xs)

/-! ### Acceptance, completion, protocol violation, reset -/

/-- `Accept(v)`: CMD, the latch, STATUS and ERRIDX (R25, R26). -/
def State.accept (s : State) (v : Word) : State :=
  { s with
    regs := { s.regs with cmd := v }
    latch := ⟨v, s.regs.len, s.regs.srca, s.regs.srcb, s.regs.dst, s.regs.scalar⟩
    status := s.status.accepted
    erridx := 0 }

/-- The status part of `Complete()`: STATUS and ERRIDX for the outcome `(code, idx)` (R26, R143). -/
def State.complete (s : State) (code : ErrorCode) (idx : Nat) : State :=
  { s with status := s.status.completed code, erridx := BitVec.ofNat 64 idx }

/-- `Complete()` for the result of `Execute(L)`: data memory changes only with code NONE (R26, R142); a never-written half is the
model fault of R46. Every command ends here. -/
def State.finish (s : State) : Except Stop Memory → Host.Outcome State Fault Refusal
  | .ok m => .next ({ s with dmem := m }.complete .none 0)
  | .error (.raised code idx) => .next (s.complete code idx)
  | .error (.uninit e) => .fault (.uninitRead e)

/-- A protocol violation: HAZ is set and nothing else changes (R146). -/
def State.hazard (s : State) : State := { s with status := s.status.hazard }

/-- `Reset()` of the block (R170): a running command is abandoned. DESIGN CHOICE, safe: the host agent and the interleaving are
not the block's and go on (log entry 12). -/
def State.resetBlock (s : State) : State :=
  { State.reset with params := s.params, host := s.host, schedule := s.schedule }

end Sys2Proof.Machine
end

