-- ==== Sys2Proof/Machine/Operands.lean ====
section
/-! DEFINITION. The operands of a command, from the latched set (R51, R58), and the checks over them that precede every access
(R90, R110, R141). Sums are unbounded integers (R6), so the operands are natural numbers here. -/

namespace Sys2Proof

/-- `NMAX` (R5). -/
def Params.nmax (p : Params) : Nat := 2 ^ p.log2Nmax

/-- `DMEM_ENTRIES` (R5). -/
def Params.dmemEntries (p : Params) : Nat := 2 ^ p.log2Dmem

end Sys2Proof

namespace Sys2Proof.Machine

/-- `n = L[LEN]` (R51). -/
def Latch.n (l : Latch) : Nat := l.len.toNat

/-- `a = L[SRCA]`, an entry index (R51). -/
def Latch.a (l : Latch) : Nat := l.srca.toNat

/-- `b = L[SRCB]`, an entry index (R51). -/
def Latch.b (l : Latch) : Nat := l.srcb.toNat

/-- `d = L[DST]`, an entry index (R51). -/
def Latch.d (l : Latch) : Nat := l.dst.toNat

/-- `pow2(n)` (R6). -/
def pow2 (n : Nat) : Bool := decide (1 ≤ n ∧ 2 ^ n.log2 = n)

/-- The range `q .. q+count-1` lies inside data memory (R90, R110). -/
def inRange (p : Params) (q count : Nat) : Bool := decide (q + count ≤ p.dmemEntries)

/-- `CheckTransform` (R90) in the order of R141. `stage` is S for STAGE and TWID, `src` the source base for all but TWID, `count` the
number of destination entries. -/
def checkTransform (p : Params) (n : Nat) (stage src : Option Nat) (d count : Nat) : Option ErrorCode :=
  if !pow2 n then some .invalidArgument
  else if stage.any (fun s => !decide (1 ≤ s ∧ s ≤ n.log2)) then some .invalidArgument
  else if !decide (n ≤ p.nmax) then some .tooLong
  else if src.any (fun a => !inRange p a n) then some .range
  else if !inRange p d count then some .range
  else none

/-- The destination range partly overlaps the source range of base `q`: different first entries (R110). -/
def partlyOverlaps (n d q : Nat) : Bool := decide (q ≠ d ∧ q < d + n ∧ d < q + n)

/-- `CheckVector` (R110) in the order of R141. -/
def checkVector (p : Params) (n : Nat) (srcs : List Nat) (d : Nat) : Option ErrorCode :=
  if n = 0 then none
  else if (srcs ++ [d]).any (fun q => !inRange p q n) then some .range
  else if srcs.any (partlyOverlaps n d) then some .overlap
  else none

end Sys2Proof.Machine
end

