-- ==== Sys2Proof/Machine/Control.lean ====
section
/-! DEFINITION. The control family: NOP (R130). -/

namespace Sys2Proof.Machine

/-- NOP: completes with NONE, no access to data memory (R130). -/
def execNop (s : State) : Host.Outcome State Fault Refusal := s.finish (.ok s.dmem)

end Sys2Proof.Machine
end

