-- ==== Sys2Proof/Machine/Float.lean ====
section
/-! DEFINITION. The binary64 primitives (R60 to R69). Every finite binary64 value is a whole number of units of 2^-1074, so exact sums are
integers, exact products and quotients are fractions, and one function rounds them all (R61). -/

namespace Sys2Proof.Machine

/-- The sign bit (R60). -/
def fsign (v : Word) : Bool := decide (2 ^ 63 ≤ v.toNat)

/-- The biased exponent E (R60). -/
def fexp (v : Word) : Nat := v.toNat / 2 ^ 52 % 2 ^ 11

/-- The fraction F (R60). -/
def ffrac (v : Word) : Nat := v.toNat % 2 ^ 52

/-- E = 2047 and F ≠ 0 (R60). -/
def isNaN (v : Word) : Bool := fexp v == 2047 && ffrac v != 0

/-- E = 2047 and F = 0 (R60). -/
def isInf (v : Word) : Bool := fexp v == 2047 && ffrac v == 0

/-- E = 0 and F = 0 (R60). -/
def isZero (v : Word) : Bool := fexp v == 0 && ffrac v == 0

/-- Neither infinite nor NaN (R60). -/
def isFinite (v : Word) : Bool := fexp v != 2047

/-- The magnitude of a finite value in units of 2^-1074: F when E = 0, (2^52 + F)·2^(E-1) otherwise (R60). -/
def magUnits (v : Word) : Nat := if fexp v = 0 then ffrac v else (2 ^ 52 + ffrac v) * 2 ^ (fexp v - 1)

/-- The value of a finite binary64 in units of 2^-1074 (R60). -/
def units (v : Word) : Int := if fsign v then -(magUnits v : Int) else magUnits v

/-- One, 1.0, in units of 2^-1074. -/
def unitsOfOne : Nat := 2 ^ 1074

/-- `CANON_NAN` (R8, R66). -/
def canonNaN : Word := 0x7FF8000000000000

/-- Infinity with a sign (R60). -/
def finf (neg : Bool) : Word := if neg then 0xFFF0000000000000 else 0x7FF0000000000000

/-- Zero with a sign (R60). -/
def fzero (neg : Bool) : Word := if neg then 0x8000000000000000 else 0

/-- The integer nearest to `p / d`, a tie going to the even one (R61). -/
def nearestEven (p d : Nat) : Nat :=
  if 2 * (p % d) < d then p / d
  else if d < 2 * (p % d) then p / d + 1
  else p / d + p / d % 2

/-- How many bits the significand's last place stands above 2^-1074 for a magnitude of `p / q` units: 0 below 2^53 units, which is
where gradual underflow keeps the grid (R61). -/
def roundShift (p q : Nat) : Nat := (p / q).log2 - 52

/-- The bits below the sign of RN of `p / q` units, before the test for overflow. The exponent field and the fraction are one number, so
a significand that rounds up to 2^53 carries into the exponent (R60, R61). -/
def roundBits (p q : Nat) : Nat :=
  2 ^ 52 * roundShift p q + nearestEven p (q * 2 ^ roundShift p q)

/-- `RN` of `±p/q` units of 2^-1074, to nearest, ties to even, overflow to infinity, zero with the exact result's sign (R8, R61). -/
def roundTo64 (neg : Bool) (p q : Nat) : Word :=
  if 0x7FF0000000000000 ≤ roundBits p q then finf neg
  else BitVec.ofNat 64 (roundBits p q + flagAt neg 63)

/-- `fneg`: bit 63 inverted, also for NaN (R67). -/
def fneg (a : Word) : Word := a ^^^ 0x8000000000000000

/-- `fadd` (R62). -/
def fadd (a b : Word) : Word :=
  if isNaN a || isNaN b then canonNaN
  else if isInf a && isInf b && (fsign a != fsign b) then canonNaN
  else if isInf a then a
  else if isInf b then b
  else if units a + units b ≠ 0 then
    roundTo64 (decide (units a + units b < 0)) (units a + units b).natAbs 1
  else if isZero a && isZero b && (fsign a == fsign b) then a
  else fzero false

/-- `fsub` (R63). -/
def fsub (a b : Word) : Word := fadd a (fneg b)

/-- `fmul` (R64). -/
def fmul (a b : Word) : Word :=
  if isNaN a || isNaN b then canonNaN
  else if (isInf a && isZero b) || (isZero a && isInf b) then canonNaN
  else if isInf a || isInf b then finf (fsign a != fsign b)
  else if isZero a || isZero b then fzero (fsign a != fsign b)
  else roundTo64 (fsign a != fsign b) (magUnits a * magUnits b) unitsOfOne

/-- `fdiv` (R65). -/
def fdiv (a b : Word) : Word :=
  if isNaN a || isNaN b then canonNaN
  else if isInf a && isInf b then canonNaN
  else if isZero a && isZero b then canonNaN
  else if isInf a then finf (fsign a != fsign b)
  else if isInf b then fzero (fsign a != fsign b)
  else if isZero b then finf (fsign a != fsign b)
  else if isZero a then fzero (fsign a != fsign b)
  else roundTo64 (fsign a != fsign b) (magUnits a * unitsOfOne) (magUnits b)

/-- `floor` of a finite binary64: the largest integer not above it (R68). -/
def ffloor (t : Word) : Int := units t / (unitsOfOne : Int)

/-- `i2f`: RN of an integer (R69). -/
def i2f (v : Int) : Word := roundTo64 (decide (v < 0)) (v.natAbs * unitsOfOne) 1

/-- 1.0. -/
def fone : Word := 0x3FF0000000000000

/-- 0.5. -/
def fhalf : Word := 0x3FE0000000000000

end Sys2Proof.Machine
end

