-- ==== Sys2Proof/Machine/ComplexUnits.lean ====
section
/-! DEFINITION. The complex units and the round-to-integer unit (R70 to R77). -/

namespace Sys2Proof.Machine

/-- `ONE` (R8, R70). -/
def cone : Cplx := ⟨fone, 0⟩

/-- `CADD` (R71). -/
def cadd (a b : Cplx) : Cplx := ⟨fadd a.re b.re, fadd a.im b.im⟩

/-- `CSUB` (R72). -/
def csub (a b : Cplx) : Cplx := ⟨fsub a.re b.re, fsub a.im b.im⟩

/-- `CMUL`: four rounded products, one rounded sum a part, no fused operation (R73). -/
def cmul (a b : Cplx) : Cplx :=
  ⟨fsub (fmul a.re b.re) (fmul a.im b.im), fadd (fmul a.re b.im) (fmul a.im b.re)⟩

/-- `CSQR` (R74). -/
def csqr (a : Cplx) : Cplx := cmul a a

/-- The divisor `u² + v²` of `CDIV` (R75). -/
def cnorm (b : Cplx) : Word := fadd (fmul b.re b.re) (fmul b.im b.im)

/-- `CDIV`, without scaling (R75). -/
def cdiv (a b : Cplx) : Cplx :=
  ⟨fdiv (fadd (fmul a.re b.re) (fmul a.im b.im)) (cnorm b), fdiv (fsub (fmul a.im b.re) (fmul a.re b.im)) (cnorm b)⟩

/-- `CDIVS`: one division a part (R76). -/
def cdivs (a : Cplx) (s : Word) : Cplx := ⟨fdiv a.re s, fdiv a.im s⟩

/-- The range of an int64 (R6). -/
def isInt64 (v : Int) : Bool := decide (-(2 ^ 63 : Int) ≤ v ∧ v < 2 ^ 63)

/-- `RoundToInt`; `none` is the outcome OVERFLOW. Only the real part is used (R77). -/
def roundToInt (a : Cplx) : Option Int :=
  let t := fadd a.re fhalf
  if isNaN t || isInf t then none
  else if isInt64 (ffloor t) then some (ffloor t)
  else none

end Sys2Proof.Machine
end

