-- ==== Sys2Proof/Machine/Elementwise.lean ====
section
/-! DEFINITION. The elementwise family: VADD, VSUB, VMUL, VSQR, VDIV, VDIVS, VCVT, VROUND (R110 to R118). -/

namespace Sys2Proof.Machine

/-- The shared form: the checks, one result a lane from the snapshot, then the results from `d` on (R39, R110). -/
def elementwise (s : State) (srcs : List Nat) (lane : Nat → Except Stop Cplx) : Except Stop Memory :=
  match checkVector s.params s.latch.n srcs s.latch.d with
  | some code => .error (.raised code 0)
  | none =>
    match lanes lane s.latch.n 0 with
    | .error e => .error e
    | .ok zs => .ok (writeEntries s.dmem s.latch.d zs)

/-- A lane that reads one entry. -/
def lane1 (s : State) (f : Cplx → Cplx) (i : Nat) : Except Stop Cplx :=
  match dRead s.dmem (s.latch.a + i) with
  | .error e => .error e
  | .ok x => .ok (f x)

/-- A lane that reads an entry of each source, SRCA first. -/
def lane2 (s : State) (f : Cplx → Cplx → Cplx) (i : Nat) : Except Stop Cplx :=
  match dRead s.dmem (s.latch.a + i) with
  | .error e => .error e
  | .ok x =>
    match dRead s.dmem (s.latch.b + i) with
    | .error e => .error e
    | .ok y => .ok (f x y)

/-- A lane of VCVT: bits [63:0] read as int64, imaginary part +0 (R117). -/
def laneCvt (s : State) (i : Nat) : Except Stop Cplx :=
  match dReadLo s.dmem (s.latch.a + i) with
  | .error e => .error e
  | .ok w => .ok ⟨i2f w.toInt, 0⟩

/-- A lane of VROUND: bits [63:0] only; OVERFLOW carries the lane index; bits [127:64] become 0 (R118). -/
def laneRound (s : State) (i : Nat) : Except Stop Cplx :=
  match dReadLo s.dmem (s.latch.a + i) with
  | .error e => .error e
  | .ok w =>
    match roundToInt ⟨w, 0⟩ with
    | none => .error (.raised .overflow i)
    | some q => .ok ⟨BitVec.ofInt 64 q, 0⟩

/-- VADD (R111). -/
def execVadd (s : State) : Host.Outcome State Fault Refusal :=
  s.finish (elementwise s [s.latch.a, s.latch.b] (lane2 s cadd))

/-- VSUB: SRCA minus SRCB (R112). -/
def execVsub (s : State) : Host.Outcome State Fault Refusal :=
  s.finish (elementwise s [s.latch.a, s.latch.b] (lane2 s csub))

/-- VMUL (R113). -/
def execVmul (s : State) : Host.Outcome State Fault Refusal :=
  s.finish (elementwise s [s.latch.a, s.latch.b] (lane2 s cmul))

/-- VSQR (R114). -/
def execVsqr (s : State) : Host.Outcome State Fault Refusal :=
  s.finish (elementwise s [s.latch.a] (lane1 s csqr))

/-- VDIV: the dividend at SRCA, the divisor at SRCB; a zero divisor is no error (R115). -/
def execVdiv (s : State) : Host.Outcome State Fault Refusal :=
  s.finish (elementwise s [s.latch.a, s.latch.b] (lane2 s cdiv))

/-- VDIVS: the divisor is the latched SCALAR (R116). -/
def execVdivs (s : State) : Host.Outcome State Fault Refusal :=
  s.finish (elementwise s [s.latch.a] (lane1 s (fun x => cdivs x s.latch.scalar)))

/-- VCVT (R117). -/
def execVcvt (s : State) : Host.Outcome State Fault Refusal :=
  s.finish (elementwise s [s.latch.a] (laneCvt s))

/-- VROUND: all lanes are converted before any is written (R118, R142). -/
def execVround (s : State) : Host.Outcome State Fault Refusal :=
  s.finish (elementwise s [s.latch.a] (laneRound s))

end Sys2Proof.Machine
end

