-- ==== Sys2Proof/Machine/Twiddle.lean ====
section
/-! DEFINITION. The twiddle-factor unit: the root ROM, stage roots, running powers and direct twiddles (R79 to R83). -/

namespace Sys2Proof.Machine

/-- `ROOTROM[0]` to `ROOTROM[10]` (R83). -/
def rootRomLow : List Cplx :=
  [⟨0x3FF0000000000000, 0xBCB1A62633145C07⟩,
   ⟨0xBFF0000000000000, 0x3CA1A62633145C07⟩,
   ⟨0x3C91A62633145C07, 0x3FF0000000000000⟩,
   ⟨0x3FE6A09E667F3BCD, 0x3FE6A09E667F3BCC⟩,
   ⟨0x3FED906BCF328D46, 0x3FD87DE2A6AEA963⟩,
   ⟨0x3FEF6297CFF75CB0, 0x3FC8F8B83C69A60A⟩,
   ⟨0x3FEFD88DA3D12526, 0x3FB917A6BC29B42C⟩,
   ⟨0x3FEFF621E3796D7E, 0x3FA91F65F10DD814⟩,
   ⟨0x3FEFFD886084CD0D, 0x3F992155F7A3667E⟩,
   ⟨0x3FEFFF62169B92DB, 0x3F8921D1FCDEC784⟩,
   ⟨0x3FEFFFD8858E8A92, 0x3F7921F0FE670071⟩]

/-- `ROOTROM[11]` to `ROOTROM[20]` (R83). -/
def rootRomHigh : List Cplx :=
  [⟨0x3FEFFFF621621D02, 0x3F6921F8BECCA4BA⟩,
   ⟨0x3FEFFFFD88586EE6, 0x3F5921FAAEE6472D⟩,
   ⟨0x3FEFFFFF62161A34, 0x3F4921FB2AECB360⟩,
   ⟨0x3FEFFFFFD8858675, 0x3F3921FB49EE4EA6⟩,
   ⟨0x3FEFFFFFF621619C, 0x3F2921FB51AEB57B⟩,
   ⟨0x3FEFFFFFFD885867, 0x3F1921FB539ECF31⟩,
   ⟨0x3FEFFFFFFF62161A, 0x3F0921FB541AD59E⟩,
   ⟨0x3FEFFFFFFFD88586, 0x3EF921FB5439D73A⟩,
   ⟨0x3FEFFFFFFFF62162, 0x3EE921FB544197A0⟩,
   ⟨0x3FEFFFFFFFFD8858, 0x3ED921FB544387BA⟩]

/-- The root ROM, L = 0 to 20 (R13, R83). -/
def rootRom : List Cplx := rootRomLow ++ rootRomHigh

/-- `ROOTROM[L]`; an absent entry is a free value, and none is read with legal parameters (R83, log entry 9). -/
def romEntry (L : Nat) : Cplx := (rootRom[L]?).getD (Config.absentRoot L)

/-- The conjugate for `inv = 1` (R79, R82). -/
def conjIf (inv : Bool) (c : Cplx) : Cplx := ⟨c.re, if inv then fneg c.im else c.im⟩

/-- `ROOT(2^L, inv)` (R79). -/
def root (L : Nat) (inv : Bool) : Cplx := conjIf inv (romEntry L)

/-- The stage root of GEN: `ROOT(2^L, inv)` squared `L - S` times (R80). -/
def genRoot (L S : Nat) (inv : Bool) : Cplx := csqr^[L - S] (root L inv)

/-! ### Direct twiddles

R82 defines them by real cosines and sines. The model computes these in exact integer arithmetic: fixed point with 128 fraction bits, roots
by the half-angle formulas, other angles by multiplying the roots that the bits of `k` select. DEDUCED, unsafe (log entry 10): the error stays
below 2^-100, and no value of R82 with m ≤ 2^20 is nearer than 2^-74 to a tie of its rounding (evaluated for every angle outside Lean). -/

/-- The fixed-point one: 128 fraction bits. -/
def fixOne : Nat := 2 ^ 128

/-- The integer square root, bit by bit: the largest `r + x`, `x < 2^k`, whose square is at most `n`. -/
def isqrtFrom (n : Nat) : Nat → Nat → Nat
  | 0, r => r
  | k + 1, r => if (r + 2 ^ k) * (r + 2 ^ k) ≤ n then isqrtFrom n k (r + 2 ^ k) else isqrtFrom n k r

/-- The integer square root of a number below 2^258. -/
def isqrt (n : Nat) : Nat := isqrtFrom n 129 0

/-- `cos(2π/2^(j+2))` in fixed point: the half-angle formula `cos(x/2) = √((1 + cos x)/2)` from `cos(π/2) = 0`. -/
def fixCosRoot : Nat → Nat
  | 0 => 0
  | j + 1 => isqrt ((fixOne + fixCosRoot j) * fixOne / 2)

/-- `sin(2π/2^(j+2))` in fixed point: `sin(x/2) = √((1 - cos x)/2)`. -/
def fixSinRoot : Nat → Nat
  | 0 => fixOne
  | j + 1 => isqrt ((fixOne - fixCosRoot j) * fixOne / 2)

/-- `e^(2πi/2^S)` in fixed point. -/
def fixRoot : Nat → Int × Int
  | 0 => (fixOne, 0)
  | 1 => (-(fixOne : Int), 0)
  | j + 2 => (fixCosRoot j, fixSinRoot j)

/-- The product of two fixed-point complex numbers. -/
def fixMul (a b : Int × Int) : Int × Int :=
  ((a.1 * b.1 - a.2 * b.2) / (fixOne : Int), (a.1 * b.2 + a.2 * b.1) / (fixOne : Int))

/-- `e^(2πi·k/2^S)` in fixed point, one factor for each bit of `k`. -/
def fixUnit : Nat → Nat → Int × Int
  | 0, _ => (fixOne, 0)
  | S + 1, k => if k % 2 = 1 then fixMul (fixRoot (S + 1)) (fixUnit S (k / 2)) else fixUnit S (k / 2)

/-- RN of a fixed-point number. -/
def fixTo64 (v : Int) : Word := roundTo64 (decide (v < 0)) (v.natAbs * unitsOfOne) fixOne

/-- `DIRECTTW(2^S, k, inv)` (R82): ONE for k = 0 in both directions, an exact zero cosine (k = m/4) is +0. -/
def directTw (S k : Nat) (inv : Bool) : Cplx :=
  if k = 0 then cone
  else if 4 * k = 2 ^ S then conjIf inv ⟨0, fone⟩
  else conjIf inv ⟨fixTo64 (fixUnit S k).1, fixTo64 (fixUnit S k).2⟩

/-! ### Twiddles of a stage -/

/-- The running power: `p, p·w, p·w·w, ...`, each one rounded product after the one before (R81). -/
def runningPowers (w : Cplx) : Nat → Cplx → List Cplx
  | 0, _ => []
  | n + 1, p => p :: runningPowers w n (cmul p w)

/-- The twiddles of stage S in a transform of length 2^L, k = 0 to 2^(S-1) - 1, by the mode (R80, R81, R82). -/
def twiddles (mode : TwMode) (L S : Nat) (inv : Bool) : List Cplx :=
  match mode with
  | .gen => runningPowers (genRoot L S inv) (2 ^ (S - 1)) cone
  | .level => runningPowers (root S inv) (2 ^ (S - 1)) cone
  | .direct => (List.range (2 ^ (S - 1))).map (fun k => directTw S k inv)

/-- `TW(2^L, 2^S, k, inv)`, one twiddle, from R81 and R82 as they stand. `twiddles` lists its values (Laws/Transform). -/
def tw (mode : TwMode) (L S k : Nat) (inv : Bool) : Cplx :=
  match mode with
  | .gen => (fun p => cmul p (genRoot L S inv))^[k] cone
  | .level => (fun p => cmul p (root S inv))^[k] cone
  | .direct => directTw S k inv

end Sys2Proof.Machine
end

