-- ==== Sys2Proof/Machine/Butterfly.lean ====
section
/-! DEFINITION. The bit-reversal permutation unit, the butterfly, the stage function and the transform core (R84 to R89). -/

namespace Sys2Proof.Machine

/-- `rev_L(i)`: the L-bit representation of `i` read in reverse (R84). -/
def rev : Nat → Nat → Nat
  | 0, _ => 0
  | L + 1, i => i % 2 * 2 ^ L + rev L (i / 2)

/-- `BITREVP(x)` for a sequence of length 2^L: `y[i] = x[rev_L(i)]` (R84). Every index lies inside such a sequence, so the second
argument of `getD` is never a result. -/
def bitrevP (L : Nat) (x : List Cplx) : List Cplx := (List.range (2 ^ L)).map (fun i => x.getD (rev L i) cone)

/-- `BFLY(E, O, t)`; the product is taken also when `t` is ONE (R85). -/
def bfly (e o t : Cplx) : Cplx × Cplx := (cadd e (cmul t o), csub e (cmul t o))

/-- The butterflies of one block: twiddle, first-half and second-half inputs side by side (R86). -/
def bflyRow : List Cplx → List Cplx → List Cplx → List (Cplx × Cplx)
  | t :: ts, e :: es, o :: os => bfly e o t :: bflyRow ts es os
  | _, _, _ => []

/-- One block of a stage: all sums, then all differences, in place of its two halves (R86). -/
def bflyBlock (ts es os : List Cplx) : List Cplx :=
  (bflyRow ts es os).map Prod.fst ++ (bflyRow ts es os).map Prod.snd

/-- The blocks of a stage one after the other, each of `2·h` elements (R86). -/
def stageBlocks (ts : List Cplx) (h : Nat) : Nat → List Cplx → List Cplx
  | 0, _ => []
  | nb + 1, x => bflyBlock ts (x.take h) ((x.drop h).take h) ++ stageBlocks ts h nb (x.drop (2 * h))

/-- `STAGEFN(x, 2^L, S, inv)` (R86). -/
def stageFn (mode : TwMode) (L S : Nat) (inv : Bool) (x : List Cplx) : List Cplx :=
  stageBlocks (twiddles mode L S inv) (2 ^ (S - 1)) (2 ^ (L - S)) x

/-- Stages 1 to S in order (R87). -/
def stagesUpTo (mode : TwMode) (L : Nat) (inv : Bool) : Nat → List Cplx → List Cplx
  | 0, x => x
  | S + 1, x => stageFn mode L (S + 1) inv (stagesUpTo mode L inv S x)

/-- `CORE(x, inv)` for a sequence of length 2^L (R87). -/
def fftCore (mode : TwMode) (L : Nat) (inv : Bool) (x : List Cplx) : List Cplx := stagesUpTo mode L inv L (bitrevP L x)

/-- `INVCORE(x)` for a sequence of length 2^L (R89). -/
def invCore (mode : TwMode) (L : Nat) (x : List Cplx) : List Cplx :=
  if L = 0 then x.map (fun c => cdivs c fone)
  else (fftCore mode L true x).map (fun c => cdivs c (i2f ((2 ^ L : Nat) : Int)))

end Sys2Proof.Machine
end

