-- ==== Sys2Proof/Machine/Transform.lean ====
section
/-! DEFINITION. The transform family: FFT, IFFT, BITREV, STAGE, TWID (R90 to R95). -/

namespace Sys2Proof.Machine

/-- The shared form of FFT, IFFT, BITREV and STAGE: the checks, the snapshot `x[i] = DMEM[a+i]`, then the results from `d` on (R39, R90). -/
def transform (s : State) (stage : Option Nat) (f : List Cplx → List Cplx) : Except Stop Memory :=
  match checkTransform s.params s.latch.n stage (some s.latch.a) s.latch.d s.latch.n with
  | some code => .error (.raised code 0)
  | none =>
    match lanes (fun i => dRead s.dmem (s.latch.a + i)) s.latch.n 0 with
    | .error e => .error e
    | .ok x => .ok (writeEntries s.dmem s.latch.d (f x))

/-- FFT: the core in the forward direction; a sequence of length 1 is copied with every bit kept (R91). -/
def execFft (s : State) : Host.Outcome State Fault Refusal :=
  s.finish (transform s none (fun x => if s.latch.n = 1 then x else fftCore s.params.twmode s.latch.n.log2 false x))

/-- IFFT: the inverse core (R92). -/
def execIfft (s : State) : Host.Outcome State Fault Refusal :=
  s.finish (transform s none (invCore s.params.twmode s.latch.n.log2))

/-- BITREV: entries moved as raw 128-bit words (R93). -/
def execBitrev (s : State) : Host.Outcome State Fault Refusal :=
  s.finish (transform s none (bitrevP s.latch.n.log2))

/-- STAGE: one butterfly stage of a transform of length `n` (R94). -/
def execStage (st : Nat) (inv : Bool) (s : State) : Host.Outcome State Fault Refusal :=
  s.finish (transform s (some st) (stageFn s.params.twmode s.latch.n.log2 st inv))

/-- TWID: the twiddles of a stage, `2^(S-1)` entries; it reads no data memory (R95). -/
def execTwid (st : Nat) (inv : Bool) (s : State) : Host.Outcome State Fault Refusal :=
  s.finish (match checkTransform s.params s.latch.n (some st) none s.latch.d (2 ^ (st - 1)) with
    | some code => .error (.raised code 0)
    | none => .ok (writeEntries s.dmem s.latch.d (twiddles s.params.twmode s.latch.n.log2 st inv)))

end Sys2Proof.Machine
end

