-- ==== Sys2Proof/Machine/Dispatch.lean ====
section
/-! DEFINITION. One arm per command: the engine's whole `Complete` step for it (R26, R52). -/

namespace Sys2Proof.Machine

def exec (i : Instr) (s : State) : Host.Outcome State Fault Refusal :=
  match i with
  | .nop => Sys2Proof.Machine.execNop s
  | .fft => Sys2Proof.Machine.execFft s
  | .ifft => Sys2Proof.Machine.execIfft s
  | .bitrev => Sys2Proof.Machine.execBitrev s
  | .stage st inv => Sys2Proof.Machine.execStage st inv s
  | .twid st inv => Sys2Proof.Machine.execTwid st inv s
  | .vadd => Sys2Proof.Machine.execVadd s
  | .vsub => Sys2Proof.Machine.execVsub s
  | .vmul => Sys2Proof.Machine.execVmul s
  | .vsqr => Sys2Proof.Machine.execVsqr s
  | .vdiv => Sys2Proof.Machine.execVdiv s
  | .vdivs => Sys2Proof.Machine.execVdivs s
  | .vcvt => Sys2Proof.Machine.execVcvt s
  | .vround => Sys2Proof.Machine.execVround s

end Sys2Proof.Machine
end

