-- ==== Sys2Proof/Machine/Bus.lean ====
section
/-! DEFINITION. The register page and the host's bus accesses: the one operation that reads registers, the one that writes them, and
`MemRead` and `MemWrite` (R15 to R24, R30 to R37, R180, R181). -/

namespace Sys2Proof.Machine

/-- The offset of a register (R15). -/
def Reg.offset : Reg → Nat
  | .id => 0x000
  | .cfg => 0x008
  | .status => 0x010
  | .erridx => 0x018
  | .irqen => 0x020
  | .cmd => 0x028
  | .len => 0x030
  | .srca => 0x038
  | .srcb => 0x040
  | .dst => 0x048
  | .scalar => 0x050

/-- The registers in the order of their offsets (R15). -/
def allRegs : List Reg := [.id, .cfg, .status, .erridx, .irqen, .cmd, .len, .srca, .srcb, .dst, .scalar]

/-- The offset of the data-memory window (R31, R32). -/
def windowOffset : Nat := 0x01000000

/-- How many bytes of the bus space the block decodes (R30). -/
def blockSize : Nat := 0x02000000

/-- The number of a twiddle mode in CFG (R17). -/
def twModeNumber : TwMode → Nat
  | .gen => 0
  | .level => 1
  | .direct => 2

/-- The constant ID (R16). -/
def idWord : Word := 0x0000000142544646

/-- The CFG word for the parameters (R17). -/
def cfgWord (p : Params) : Word :=
  BitVec.ofNat 64 (p.log2Nmax % 2 ^ 8 + 2 ^ 8 * (p.log2Dmem % 2 ^ 8) + 2 ^ 16 * twModeNumber p.twmode)

/-- `RegRead` (R15 to R24): no side effect (R40). -/
def readReg (s : State) : Reg → Word
  | .id => idWord
  | .cfg => cfgWord s.params
  | .status => statusWord s.status s.regs.irqen
  | .erridx => s.erridx
  | .irqen => s.regs.irqen.setWidth 64
  | .cmd => s.regs.cmd
  | .len => s.regs.len
  | .srca => s.regs.srca
  | .srcb => s.regs.srcb
  | .dst => s.regs.dst
  | .scalar => s.regs.scalar

/-- `RegWrite` (R15 to R24): read-only registers ignore it (R28), STATUS clears by 1 (R18), IRQEN stores three bits (R20), CMD offers the word to
the engine and is refused with HAZ while it is busy (R21, R26, R180). -/
def writeReg (s : State) (r : Reg) (v : Word) : State :=
  match r with
  | .id => s
  | .cfg => s
  | .status => { s with status := s.status.clearedBy v }
  | .erridx => s
  | .irqen => { s with regs := { s.regs with irqen := v.setWidth 3 } }
  | .cmd => if s.status.busy then s.hazard else s.accept v
  | .len => { s with regs := { s.regs with len := v } }
  | .srca => { s with regs := { s.regs with srca := v } }
  | .srcb => { s with regs := { s.regs with srcb := v } }
  | .dst => { s with regs := { s.regs with dst := v } }
  | .scalar => { s with regs := { s.regs with scalar := v } }

/-- What an 8-aligned offset reaches; `none` where it is unmapped (R31, R32). -/
def targetOf (p : Params) (off : Nat) : Option Target :=
  if off < 0x58 then (allRegs[off / 8]?).map Target.reg
  else if windowOffset ≤ off ∧ off < windowOffset + 16 * p.dmemEntries then
    some (.half ((off - windowOffset) / 16) (decide ((off - windowOffset) % 16 / 8 = 1)))
  else none

/-- The address decoding of a host access: the block's own space first (log entry 8), then the bus error conditions of R33. -/
def route (p : Params) (addr size : Nat) : Except Fault Target :=
  if addr < p.base ∨ p.base + blockSize ≤ addr then .error (.outsideBlock addr)
  else if size ≠ 8 ∨ (addr - p.base) % 8 ≠ 0 then .error (.busError addr size)
  else match targetOf p (addr - p.base) with
    | none => .error (.busError addr size)
    | some t => .ok t

/-- The byte address inside data memory of a half of an entry (R32). -/
def halfAddr (e : Nat) (hi : Bool) : Nat := if hi then hiAddr e else loAddr e

/-- `MemRead(addr, size)` (R37): the value and the state after. While busy a window read returns 0 and sets HAZ (R181). -/
def memRead (s : State) (addr size : Nat) : Except Fault (Word × State) :=
  match route s.params addr size with
  | .error f => .error f
  | .ok (.reg r) => .ok (readReg s r, s)
  | .ok (.half e hi) =>
    if s.status.busy then .ok (0, s.hazard)
    else match s.dmem.readWord (halfAddr e hi) with
      | none => .error (.uninitRead e)
      | some w => .ok (w, s)

/-- `MemWrite(addr, size, v)` (R37). While busy a window write is dropped and sets HAZ (R181). -/
def memWrite (s : State) (addr size : Nat) (v : Word) : Except Fault State :=
  match route s.params addr size with
  | .error f => .error f
  | .ok (.reg r) => .ok (writeReg s r v)
  | .ok (.half e hi) =>
    if s.status.busy then .ok s.hazard
    else .ok { s with dmem := s.dmem.writeWord (halfAddr e hi) v }

end Sys2Proof.Machine
end

