-- ==== Sys2Proof/Machine/HostProgram.lean ====
section
/-! DEFINITION. The host agent: one statement of its assembled program (R9, R37), the host assembly language and its pseudo-instructions
(R56, R57), and their assembly into bus accesses. -/

namespace Sys2Proof.Machine

/-! ### One statement of the host -/

/-- The value of a variable; `none` if no statement assigned it. -/
def lookupVar : List (Nat × Word) → Nat → Option Word
  | [], _ => none
  | (x, v) :: vs, y => if y = x then some v else lookupVar vs y

/-- Assign a variable, keeping the list sorted and without repeats. -/
def assignVar : List (Nat × Word) → Nat → Word → List (Nat × Word)
  | [], y, w => [(y, w)]
  | (x, v) :: vs, y, w =>
    if y < x then (y, w) :: (x, v) :: vs
    else if y = x then (y, w) :: vs
    else (x, v) :: assignVar vs y w

/-- The host at statement `k`. -/
def State.hostAt (s : State) (k : Nat) : State := { s with host := { s.host with pc := k } }

/-- The host at the statement after this one. -/
def State.hostNext (s : State) : State := s.hostAt (s.host.pc + 1)

/-- The host has read `v` into a variable. -/
def State.hostAssign (s : State) (var : Nat) (v : Word) : State :=
  { s with host := { s.host with vars := assignVar s.host.vars var v } }

/-- One statement (R37, R56). A bus error stops the host program (R155). DESIGN CHOICE, safe: a bit above 63 reads as 0, and a field with `hi` below
`lo` is empty and reads as 0 (log entry 7). -/
def hostOp (s : State) : HostOp → Host.Outcome State Fault Refusal
  | .read addr size var =>
    match memRead s addr size with
    | .error f => .fault f
    | .ok (v, s') => .next (s'.hostAssign var v).hostNext
  | .write addr size v =>
    match memWrite s addr size v with
    | .error f => .fault f
    | .ok s' => .next s'.hostNext
  | .bit var k target =>
    match lookupVar s.host.vars var with
    | none => .fault (.unassignedVariable var)
    | some v => if v.getLsbD k then .next (s.hostAt target) else .next s.hostNext
  | .jmp target => .next (s.hostAt target)
  | .expect var hi lo imm =>
    match lookupVar s.host.vars var with
    | none => .fault (.unassignedVariable var)
    | some v => if field v lo (hi + 1 - lo) = imm.toNat then .next s.hostNext else .fault (.expectFailed var)

/-- The host's turn. After its last statement it makes no access and the block keeps its state (R159). -/
def hostStep (s : State) : Host.Outcome State Fault Refusal :=
  match s.host.program[s.host.pc]? with
  | none => .next s
  | some op => hostOp s op

/-! ### The host assembly language (R56) -/

/-- A label or variable of a host program: the programmer's, or a fresh one of a pseudo-instruction (R57). -/
inductive HostName where
  | user (n : Nat)
  | fresh (n : Nat)
  deriving DecidableEq, Repr

/-- The number of a variable; different names have different numbers. -/
def HostName.key : HostName → Nat
  | .user n => 2 * n
  | .fresh n => 2 * n + 1

/-- What a `cmd`, `run` or `op` line gives to the engine: a command by its mnemonic, or `raw` with any 64-bit word (R56, R57). -/
inductive Command where
  | instr (i : Instr)
  | raw (imm : Word)
  deriving DecidableEq, Repr

/-- The word that a command line writes to CMD (R56). DESIGN CHOICE, safe: R50 and R56 give S the values 0 to 63 and R56 says nothing of a larger `s=`; a
line with one has no word (log entry 7). -/
def Command.word : Command → Option Word
  | .instr i => if i.wellFormed then some (encode i) else none
  | .raw imm => some imm

/-- The statements of R56; `part` of an entry is im when `hi`. -/
inductive Stmt where
  | wr (r : Reg) (imm : Word)
  | rd (r : Reg) (var : HostName)
  | dw (e : Nat) (hi : Bool) (imm : Word)
  | dr (e : Nat) (hi : Bool) (var : HostName)
  | cmd (c : Command)
  | label (l : HostName)
  | bit (var : HostName) (k : Nat) (l : HostName)
  | jmp (l : HostName)
  | expect (var : HostName) (hi lo : Nat) (imm : Word)
  deriving DecidableEq, Repr

/-- `f64(±p/q)`: the binary64 nearest to the rational that a decimal writes (R56). -/
def f64 (neg : Bool) (p q : Nat) : Word := roundTo64 neg (p * unitsOfOne) q

/-- `i64(v)`: two's complement (R56). -/
def i64 (v : Int) : Word := BitVec.ofInt 64 v

/-- The bus address of a register (R15, R56). -/
def regAddr (base : Nat) (r : Reg) : Nat := base + r.offset

/-- The bus address of a half of an entry (R32, R56). -/
def windowAddr (base e : Nat) (hi : Bool) : Nat := base + windowOffset + halfAddr e hi

/-- The position of a label among the statements that are not labels. DESIGN CHOICE, safe: R56 does not say what a label that stands twice names; it
names its first position here (log entry 7). -/
def labelPosition (l : HostName) : List Stmt → Nat → Option Nat
  | [], _ => none
  | .label l' :: rest, k => if l = l' then some k else labelPosition l rest k
  | _ :: rest, k => labelPosition l rest (k + 1)

/-- The assembled form of one statement: no operation for a label, none at all where a label is not defined or a command has no word
(log entry 7). -/
def assembleStmt (base : Nat) (whole : List Stmt) : Stmt → Option (List HostOp)
  | .wr r imm => some [.write (regAddr base r) 8 imm]
  | .rd r var => some [.read (regAddr base r) 8 var.key]
  | .dw e hi imm => some [.write (windowAddr base e hi) 8 imm]
  | .dr e hi var => some [.read (windowAddr base e hi) 8 var.key]
  | .cmd c => c.word.map (fun w => [.write (regAddr base .cmd) 8 w])
  | .label _ => some []
  | .bit var k l => (labelPosition l whole 0).map (fun t => [.bit var.key k t])
  | .jmp l => (labelPosition l whole 0).map (fun t => [.jmp t])
  | .expect var hi lo imm => some [.expect var.key hi lo imm]

/-- Assemble the statements `part` of the program `whole`. -/
def assembleFrom (base : Nat) (whole : List Stmt) : List Stmt → Option (List HostOp)
  | [] => some []
  | st :: rest =>
    match assembleStmt base whole st, assembleFrom base whole rest with
    | some ops, some ops' => some (ops ++ ops')
    | _, _ => none

/-- Assemble a host program for a block at `base`. -/
def assemble (base : Nat) (prog : List Stmt) : Option (List HostOp) := assembleFrom base prog prog

/-! ### Pseudo-instructions (R57) -/

/-- A line of a host program: a statement or a pseudo-instruction. -/
inductive Line where
  | stmt (s : Stmt)
  | wait
  | run (c : Command)
  | clr
  | check (k : Word)
  | op (c : Command) (n a b d : Option Word)
  | fftIter (n a d : Word)
  deriving DecidableEq, Repr

/-- `wait`: poll STATUS until BUSY = 0, with the fresh name `k` (R57). -/
def waitStmts (k : Nat) : List Stmt :=
  [.label (.fresh k), .rd .status (.fresh k), .bit (.fresh k) 0 (.fresh k)]

/-- The register write of an operand that an `op` line names. -/
def operandStmt (r : Reg) : Option Word → List Stmt
  | none => []
  | some v => [.wr r v]

/-- `op` (R57). -/
def opStmts (k : Nat) (c : Command) (n a b d : Option Word) : List Stmt :=
  operandStmt .len n ++ operandStmt .srca a ++ operandStmt .srcb b ++ operandStmt .dst d ++ .cmd c :: waitStmts k

/-- The STAGE lines of `fft.iter`, `count` of them from stage `S` on (R57). -/
def iterStmts (n d : Word) : (count S k : Nat) → List Stmt
  | 0, _, _ => []
  | c + 1, S, k => opStmts k (.instr (.stage S false)) (some n) (some d) none (some d) ++ iterStmts n d c (S + 1) (k + 1)

/-- The expansion of a line and how many fresh names it takes from `k` on (R57). DESIGN CHOICE, safe: R57 counts the STAGE lines of `fft.iter` by log2(n), which
R6 defines for a power of two only; for any other n the model takes the floor of the logarithm, 0 for n = 0, and the block answers the lines with
INVALID_ARGUMENT (log entry 7). -/
def expandLine (k : Nat) : Line → List Stmt × Nat
  | .stmt s => ([s], 0)
  | .wait => (waitStmts k, 1)
  | .run c => (.cmd c :: waitStmts k, 1)
  | .clr => ([.wr .status 0xE], 0)
  | .check c => ([.rd .status (.fresh k), .expect (.fresh k) 11 8 c, .expect (.fresh k) 1 1 1], 1)
  | .op c n a b d => (opStmts k c n a b d, 1)
  | .fftIter n a d =>
    (opStmts k (.instr .bitrev) (some n) (some a) none (some d) ++ iterStmts n d n.toNat.log2 1 (k + 1), n.toNat.log2 + 1)

/-- The expansion of a program, with fresh names from `k` on. -/
def expandFrom : Nat → List Line → List Stmt
  | _, [] => []
  | k, l :: ls => (expandLine k l).1 ++ expandFrom (k + (expandLine k l).2) ls

/-- The host agent at the start of a program for a block at `base`; `none` where a label is not defined or a command has no word. -/
def hostFor (base : Nat) (prog : List Line) : Option HostAgent :=
  (assemble base (expandFrom 0 prog)).map (fun ops => ⟨ops, 0, []⟩)

end Sys2Proof.Machine
end

