-- ==== Sys2Proof/Machine/Engine.lean ====
section
/-! DEFINITION. The engine's step, the turns of the interleaving, and the loading of one command (R26, R41, R54, R177). -/

namespace Sys2Proof.Machine

/-- `Complete()`, enabled only while BUSY = 1: the latched word's command, or ILLEGAL_COMMAND for a word that is not legal (R26, R54). A turn
offered to an idle engine changes nothing. -/
def engineStep (s : State) : Host.Outcome State Fault Refusal :=
  if s.status.busy then
    match decode s.latch.cmd with
    | .ok i => exec i s
    | .error _ => .next (s.complete .illegalCommand 0)
  else .next s

/-- One turn of the interleaving (R41, R148, R170). -/
def takeTurn (s : State) : Turn → Host.Outcome State Fault Refusal
  | .host => hostStep s
  | .engine => engineStep s
  | .reset => .next s.resetBlock

/-- With no turn prescribed a busy engine completes first (R177 allows any point), otherwise the host goes on (log entry 5). -/
def freeTurn (s : State) : Turn := if s.status.busy then .engine else .host

/-- The acceptance of one command word, with the engine's turn next (R26, log entry 6). -/
def State.load (s : State) (w : Word) : State := { s.accept w with schedule := .engine :: s.schedule }

end Sys2Proof.Machine
end

