-- ==== Sys2Proof/Machine/Step.lean ====
section
/-! DEFINITION. One step of the two agents, and the placing of a command for the very next step. -/

namespace Sys2Proof.Machine

/-- One step: the turn that the schedule prescribes, or the free turn where it prescribes none (R41, R177). -/
def step (s : State) : Host.Outcome State Fault Refusal :=
  match s.schedule with
  | [] => takeTurn s (freeTurn s)
  | t :: rest => takeTurn { s with schedule := rest } t

/-- `s` with the command word `w` of `nbits` bits accepted, so that the next step is its `Complete` (log entry 6). -/
def State.withFetchWord (s : State) (nbits w : Nat) : State := s.load (BitVec.ofNat 64 (w % 2 ^ nbits))

end Sys2Proof.Machine
end

