-- ==== Sys2Proof/Safety.lean ====
section
/-! DEFINITION. The terms in which claims are made: what a completion leaves, what was written, the spec's recursion beside the block's
iteration, real values and nearness of a rounding, and the invariant of every step. -/

namespace Sys2Proof.Machine

/-! ### What a command reads, writes and leaves -/

/-- The entries from `e` on hold `xs`. -/
def HoldsFrom (m : Memory) (e : Nat) (xs : List Cplx) : Prop := ∀ k (h : k < xs.length), m.readEntry (e + k) = some xs[k]

/-- `m'` is `m` with the entries from `d` on replaced by `ys`: those entries read `ys`, every byte outside them reads as before. -/
def WrittenFrom (m m' : Memory) (d : Nat) (ys : List Cplx) : Prop :=
  HoldsFrom m' d ys ∧ ∀ a, (a < 16 * d ∨ 16 * (d + ys.length) ≤ a) → m'.read a = m.read a

/-- Everything that no command changes: parameters, registers, latch, host agent and schedule (R142). -/
def SameOutside (s t : State) : Prop :=
  t.params = s.params ∧ t.regs = s.regs ∧ t.latch = s.latch ∧ t.host = s.host ∧ t.schedule = s.schedule

/-- STATUS and ERRIDX after a completion with code NONE (R26); the rest outside data memory unchanged. -/
def CompletedOk (s t : State) : Prop :=
  t.status = ⟨false, true, false, s.status.haz, .none⟩ ∧ t.erridx = 0 ∧ SameOutside s t

/-- The state after a completion with an error code (R26, R143): STATUS and ERRIDX only. -/
def failedWith (s : State) (code : ErrorCode) (idx : Nat) : State :=
  { s with status := ⟨false, true, true, s.status.haz, code⟩, erridx := BitVec.ofNat 64 idx }

/-- The ranges of an elementwise command are admissible, from R110's own conditions: no element at all, or every range inside data
memory and the destination equal to or disjoint from each source. -/
def VectorAdmits (s : State) (srcs : List Nat) : Prop :=
  s.latch.n = 0 ∨
    ((∀ q ∈ srcs ++ [s.latch.d], q + s.latch.n ≤ 2 ^ s.params.log2Dmem) ∧
      ∀ q ∈ srcs, q = s.latch.d ∨ q + s.latch.n ≤ s.latch.d ∨ s.latch.d + s.latch.n ≤ q)

/-- A transform of length 2^L fits (R90): the length, the source range from `a` on and `count` destination entries. -/
def TransformAdmits (s : State) (L count : Nat) : Prop :=
  s.latch.n = 2 ^ L ∧ L ≤ s.params.log2Nmax ∧ s.latch.a + 2 ^ L ≤ 2 ^ s.params.log2Dmem ∧
    s.latch.d + count ≤ 2 ^ s.params.log2Dmem

/-! ### The spec's recursion (R87, R88) -/

/-- The elements at even indices. -/
def evens : List Cplx → List Cplx
  | [] => []
  | [x] => [x]
  | x :: _ :: xs => x :: evens xs

/-- The elements at odd indices. -/
def odds : List Cplx → List Cplx
  | [] => []
  | [_] => []
  | _ :: y :: xs => y :: odds xs

/-- The combine loop of `REC`: the pairs `(E[k] + p·O[k], E[k] - p·O[k])` with the running power `p` (R87). -/
def recPairs (w : Cplx) : Cplx → List Cplx → List Cplx → List (Cplx × Cplx)
  | p, e :: es, o :: os => (cadd e (cmul p o), csub e (cmul p o)) :: recPairs w (cmul p w) es os
  | _, _, _ => []

/-- `REC(x, w)` for a sequence of length 2^L (R87): the halves use the squared root. -/
def recFft : Nat → Cplx → List Cplx → List Cplx
  | 0, _, x => x
  | L + 1, w, x =>
    (recPairs w cone (recFft L (csqr w) (evens x)) (recFft L (csqr w) (odds x))).map Prod.fst ++
      (recPairs w cone (recFft L (csqr w) (evens x)) (recFft L (csqr w) (odds x))).map Prod.snd

/-- The variant of `REC` that takes `ROOT(n, inv)` anew at each level (R88, LEVEL). -/
def recLevel (inv : Bool) : Nat → List Cplx → List Cplx
  | 0, x => x
  | L + 1, x =>
    (recPairs (root (L + 1) inv) cone (recLevel inv L (evens x)) (recLevel inv L (odds x))).map Prod.fst ++
      (recPairs (root (L + 1) inv) cone (recLevel inv L (evens x)) (recLevel inv L (odds x))).map Prod.snd

/-- The block's own iteration by commands: STAGE with S = 1 to `count`, source and destination both at `d` (R94, `fft.iter` of R57). -/
def runStages (inv : Bool) : Nat → State → Option State
  | 0, s => some s
  | S + 1, s =>
    match runStages inv S s with
    | none => none
    | some u =>
      match exec (.stage (S + 1) inv) { u with latch := { u.latch with srca := u.latch.dst } } with
      | .next v => some v
      | _ => none

/-! ### Real values -/

/-- The value of a finite binary64 as a rational (R60). -/
def fvalue (w : Word) : ℚ := (units w : ℚ) / 2 ^ 1074

/-- From this magnitude on, rounding to nearest gives infinity (R61): halfway between the largest finite value and 2^1024. -/
def overflowBound : ℚ := 2 ^ 1024 - 2 ^ 970

/-- `w` is RN of the non-zero rational `r` (R8, R61). At or above the overflow bound it is the infinity of `r`'s sign. Below it, it is finite, no finite
value is nearer, another finite value just as near makes its significand even, and its sign is `r`'s. -/
def IsRounded (r : ℚ) (w : Word) : Prop :=
  (overflowBound ≤ |r| → w = finf (decide (r < 0))) ∧
  (|r| < overflowBound →
    isFinite w = true ∧ fsign w = decide (r < 0) ∧
      (∀ y, isFinite y = true → |fvalue w - r| ≤ |fvalue y - r|) ∧
      (∀ y, isFinite y = true → y ≠ w → |fvalue y - r| = |fvalue w - r| → w.toNat % 2 = 0))

/-! ### The invariant -/

/-- Data memory is in canonical form, inside `2^LOG2_DMEM` entries, and every half is written whole or not at all (R12, R46). -/
def DmemInv (p : Params) (m : Memory) : Prop :=
  m.wf ∧ (∀ a, (m.read a).isSome = true → a < 16 * 2 ^ p.log2Dmem) ∧
    (∀ a, (m.read a).isSome = (m.read (8 * (a / 8))).isSome)

/-- What STATUS, ERRIDX, CMD and the latch agree on (R25, R26, R140): a busy block has cleared the last outcome and holds the accepted word in
CMD and in the latch; DONE excludes BUSY; ERR has an error code; ERRIDX is non-zero for OVERFLOW only. -/
def ControlInv (s : State) : Prop :=
  (s.status.busy = true → s.status.done = false ∧ s.status.err = false ∧ s.status.errcode = .none ∧ s.latch.cmd = s.regs.cmd) ∧
  (s.status.err = true → s.status.errcode ≠ .none) ∧
  (s.erridx ≠ 0 → s.status.errcode = .overflow)

/-- The invariant of every step: legal parameters (R5), data memory and control. -/
def Inv (s : State) : Prop := s.params.legal ∧ DmemInv s.params s.dmem ∧ ControlInv s

end Sys2Proof.Machine
end

