-- ==== Sys2Proof/Certificates/Slice0/Obligations.lean ====
section
/-! DEFINITION. The statements for the provers. They come from the spec's numbered rules; the terms they use beside the model's own functions stand in
Sys2Proof/Safety.lean. -/

open Sys2Proof Sys2Proof.Machine

/-! ### The command word -/

/-- R50 to R53: encoding a command and decoding it gives the command back, on the word and on its bytes, and a word that decodes is the encoding of
what it decodes to. -/
def Obligations.DecodeEncodeRoundTrip : Prop :=
  (∀ i : Instr, i.wellFormed = true → decode (encode i) = .ok i ∧ decodeBytes (bytesOfWord (encode i)) = .ok i) ∧
  (∀ (w : Word) (i : Instr), decode w = .ok i → i.wellFormed = true ∧ encode i = w)

/-- R53: the legal words are the decodable ones; each of the twelve operations other than STAGE and TWID has one word, and STAGE and TWID have one for
each S and INV. -/
def Obligations.LegalWordsAreTheDecodable : Prop :=
  (∀ w : Word, legalWord w = true ↔ ∃ i, decode w = .ok i) ∧
  (∀ (w : Word) (i : Instr), (∀ s v, i ≠ .stage s v ∧ i ≠ .twid s v) → (decode w = .ok i ↔ w.toNat = i.opcode)) ∧
  (∀ (w : Word) (s : Nat) (v : Bool), s < 64 →
    (decode w = .ok (.stage s v) ↔ w.toNat = 0x04 + s * 2 ^ 8 + (if v then 2 ^ 14 else 0)) ∧
    (decode w = .ok (.twid s v) ↔ w.toNat = 0x05 + s * 2 ^ 8 + (if v then 2 ^ 14 else 0)))

/-- R52, R53 and the words of 95_test_vectors.md: a few words written out from the spec decode to their commands, and a few illegal ones do not. That an
illegal word does not decode is the spec's; which reason the decoder names for it, where several hold, is the model's choice (log entry 15). -/
def Obligations.SpecWordsDecode : Prop :=
  decode 0x0000000000000000 = .ok .nop ∧ decode 0x0000000000000001 = .ok .fft ∧
  decode 0x0000000000000304 = .ok (.stage 3 false) ∧ decode 0x0000000000004204 = .ok (.stage 2 true) ∧
  decode 0x0000000000004305 = .ok (.twid 3 true) ∧ decode 0x0000000000000012 = .ok .vmul ∧
  decode 0x0000000000000015 = .ok .vdivs ∧ decode 0x0000000000000019 = .ok .vround ∧
  decode 0x0000000000000006 = .error (.reservedOpcode 6) ∧ decode 0x0000000000000101 = .error .strayField ∧
  decode 0x0000000000008004 = .error .reservedBits ∧ decode 0x0000000000000100 = .error .strayField

/-- R54: the words that are not legal are exactly those with a reserved OPC, a non-zero RSV, or a non-zero S or INV outside STAGE and TWID; an idle block
accepts any word; a running illegal word completes with ILLEGAL_COMMAND and nothing but STATUS and ERRIDX changes, data memory included. -/
def Obligations.IllegalWordCompletesWithoutEffect : Prop :=
  (∀ v : Word, legalWord v = false ↔
    field v 0 8 ∉ [0x00, 0x01, 0x02, 0x03, 0x04, 0x05, 0x10, 0x11, 0x12, 0x13, 0x14, 0x15, 0x18, 0x19] ∨ field v 15 49 ≠ 0 ∨
      (field v 0 8 ∉ [0x04, 0x05] ∧ (field v 8 6 ≠ 0 ∨ field v 14 1 ≠ 0))) ∧
  (∀ (s : State) (v : Word), s.status.busy = false →
    (writeReg s .cmd v).status.busy = true ∧ (writeReg s .cmd v).latch.cmd = v ∧ (writeReg s .cmd v).dmem = s.dmem) ∧
  (∀ s : State, s.status.busy = true → legalWord s.latch.cmd = false → engineStep s = .next (failedWith s .illegalCommand 0))

/-! ### Steps and turns -/

/-- R26, R54: while BUSY the engine's turn is `exec` of the command that the latched word decodes to, and completes an illegal word with ILLEGAL_COMMAND. A
step is that turn when the schedule prescribes it, which is then used up. That it is also the step when the schedule prescribes no turn is the model's choice
(log entry 5): R177 would let the host go first. -/
def Obligations.BusyStepRunsDecodedCommand : Prop :=
  ∀ s : State, s.status.busy = true →
    (s.schedule = [] → step s = engineStep s) ∧
    (∀ rest, s.schedule = .engine :: rest → step s = engineStep { s with schedule := rest }) ∧
    (∀ i : Instr, decode s.latch.cmd = .ok i →
      engineStep s = exec i s ∧ (s.schedule = [] → step s = exec i s) ∧
        ∀ rest, s.schedule = .engine :: rest → step s = exec i { s with schedule := rest }) ∧
    (legalWord s.latch.cmd = false →
      engineStep s = .next (failedWith s .illegalCommand 0) ∧
      (s.schedule = [] → step s = .next (failedWith s .illegalCommand 0)) ∧
        ∀ rest, s.schedule = .engine :: rest → step s = .next (failedWith { s with schedule := rest } .illegalCommand 0))

/-- The model's loading of a command (log entry 6) and R26: the very next step after placing a well-formed command's word runs that command on the state
that its acceptance leaves. -/
def Obligations.PlacedWordRunsNext : Prop :=
  ∀ (s : State) (i : Instr), i.wellFormed = true →
    step (s.withFetchWord 64 (encode i).toNat) = exec i { s.accept (encode i) with schedule := s.schedule }

/-- R159 and the model's schedule (log entry 5): an idle block whose host has no statement left keeps its whole state. -/
def Obligations.IdleBlockKeepsItsState : Prop :=
  ∀ s : State, s.status.busy = false → s.schedule = [] → s.host.program.length ≤ s.host.pc → step s = .next s

/-- R170: reset in any state, busy or not, leaves every register at its reset value and no byte of data memory written, and abandons a running command.
Nothing is said of the latch, whose value after reset the spec leaves open. -/
def Obligations.ResetTurnResetsTheBlock : Prop :=
  ∀ (s : State) (rest : List Turn), s.schedule = .reset :: rest →
    ∃ t, step s = .next t ∧ t.status = ⟨false, false, false, false, .none⟩ ∧ t.erridx = 0 ∧ t.regs = ⟨0, 0, 0, 0, 0, 0, 0⟩ ∧
      (∀ a, t.dmem.read a = none) ∧ readReg t .id = 0x0000000142544646 ∧ readReg t .cfg = readReg s .cfg ∧ t.params = s.params

/-- R15, R16, R17: the registers as a host reads them right after reset, with the default parameters, and no entry of data memory readable (R170). -/
def Obligations.ResetRegisterValues : Prop :=
  readReg State.reset .id = 0x0000000142544646 ∧ readReg State.reset .cfg = 0x0000000000001210 ∧
  (∀ r, r ≠ Reg.id → r ≠ Reg.cfg → readReg State.reset r = 0) ∧
  (∀ e, State.reset.dmem.readWord (loAddr e) = none ∧ State.reset.dmem.readWord (hiAddr e) = none)

/-! ### Registers and the bus -/

/-- R16, R17: ID is one constant, CFG shows the parameters at their bits and nothing else, and no write and no step changes either. -/
def Obligations.IdAndCfgAreConstant : Prop :=
  ∀ s : State,
    readReg s .id = 0x0000000142544646 ∧
    (s.params.legal → field (readReg s .cfg) 0 8 = s.params.log2Nmax ∧ field (readReg s .cfg) 8 8 = s.params.log2Dmem) ∧
    field (readReg s .cfg) 16 2 = (match s.params.twmode with | .gen => 0 | .level => 1 | .direct => 2) ∧
    field (readReg s .cfg) 18 46 = 0 ∧ (s.params = Params.default → readReg s .cfg = 0x0000000000001210) ∧
    (∀ r v, readReg (writeReg s r v) .cfg = readReg s .cfg ∧ readReg (writeReg s r v) .id = readReg s .id) ∧
    ∀ t : State, step s = .next t → readReg t .cfg = readReg s .cfg ∧ readReg t .id = readReg s .id

/-- R18, R28, R140: the STATUS word has BUSY, DONE, ERR, HAZ, IRQ at bits 0 to 4, ERRCODE at bits [11:8] with the numbers of R140, and every reserved
bit 0. -/
def Obligations.StatusWordLayout : Prop :=
  ∀ s : State,
    (readReg s .status).getLsbD 0 = s.status.busy ∧ (readReg s .status).getLsbD 1 = s.status.done ∧
    (readReg s .status).getLsbD 2 = s.status.err ∧ (readReg s .status).getLsbD 3 = s.status.haz ∧
    (readReg s .status).getLsbD 4 = irq s.status s.regs.irqen ∧ field (readReg s .status) 5 3 = 0 ∧
    field (readReg s .status) 8 4 =
      (match s.status.errcode with
        | .none => 0 | .invalidArgument => 1 | .overflow => 2 | .illegalCommand => 3 | .tooLong => 4 | .range => 5 | .overlap => 6) ∧
    field (readReg s .status) 12 52 = 0

/-- R150: the level of `irq`, and STATUS.IRQ shows it; it is a function of STATUS and IRQEN. -/
def Obligations.InterruptLineLevel : Prop :=
  ∀ s : State,
    (readReg s .status).getLsbD 4 =
      ((s.status.done && s.regs.irqen.getLsbD 0) || (s.status.err && s.regs.irqen.getLsbD 1) ||
        (s.status.haz && s.regs.irqen.getLsbD 2)) ∧
    ∀ t : State, t.status = s.status → t.regs.irqen = s.regs.irqen →
      (readReg t .status).getLsbD 4 = (readReg s .status).getLsbD 4

/-- R18: a host write of STATUS clears DONE, ERR and HAZ where the written bit is 1 and changes nothing else, ERRCODE and BUSY included. -/
def Obligations.StatusWriteClearsFlags : Prop :=
  ∀ (s : State) (v : Word),
    memWrite s (s.params.base + 0x010) 8 v =
      .ok { s with status := ⟨s.status.busy, s.status.done && !v.getLsbD 1, s.status.err && !v.getLsbD 2,
        s.status.haz && !v.getLsbD 3, s.status.errcode⟩ }

/-- R15, R37, R20, R22 to R24, R28: an access of 8 bytes at a register's own address reaches that register; a stored register reads back what was written,
IRQEN its low three bits; no other register changes but STATUS.IRQ, nor do the latch and data memory; writes to ID, CFG and ERRIDX are ignored. -/
def Obligations.RegisterWritesReadBack : Prop :=
  ∀ (s : State) (v : Word),
    (∀ p ∈ [(0x000, Reg.id), (0x008, .cfg), (0x010, .status), (0x018, .erridx), (0x020, .irqen), (0x028, .cmd), (0x030, .len), (0x038, .srca),
        (0x040, .srcb), (0x048, .dst), (0x050, .scalar)],
      memRead s (s.params.base + p.1) 8 = .ok (readReg s p.2, s) ∧ memWrite s (s.params.base + p.1) 8 v = .ok (writeReg s p.2 v)) ∧
    (readReg s .erridx = s.erridx ∧ readReg s .irqen = BitVec.ofNat 64 s.regs.irqen.toNat ∧ readReg s .cmd = s.regs.cmd ∧ readReg s .len = s.regs.len ∧
      readReg s .srca = s.regs.srca ∧ readReg s .srcb = s.regs.srcb ∧ readReg s .dst = s.regs.dst ∧ readReg s .scalar = s.regs.scalar) ∧
    (∀ r ∈ [Reg.len, Reg.srca, Reg.srcb, Reg.dst, Reg.scalar],
      readReg (writeReg s r v) r = v ∧ (∀ r', r' ≠ r → readReg (writeReg s r v) r' = readReg s r') ∧
        (writeReg s r v).latch = s.latch ∧ (writeReg s r v).dmem = s.dmem) ∧
    (readReg (writeReg s .irqen v) .irqen = BitVec.ofNat 64 (v.toNat % 8) ∧
      (∀ r', r' ≠ .irqen → r' ≠ .status → readReg (writeReg s .irqen v) r' = readReg s r') ∧
      (writeReg s .irqen v).status = s.status ∧ (writeReg s .irqen v).latch = s.latch ∧ (writeReg s .irqen v).dmem = s.dmem) ∧
    (∀ r ∈ [Reg.id, Reg.cfg, Reg.erridx], writeReg s r v = s)

/-- R21, R180 (with R25 and R26): a CMD write while idle is accepted: CMD and the latch take the word and the operand registers, BUSY is set, the last
outcome is cleared, HAZ kept; while busy it sets HAZ and nothing else. CMD reads the last accepted word. -/
def Obligations.CommandWriteIsAcceptedOrRefused : Prop :=
  ∀ (s : State) (v : Word),
    (s.status.busy = false →
      ∃ t, memWrite s (s.params.base + 0x028) 8 v = .ok t ∧ readReg t .cmd = v ∧
        t = { s with
              regs := { s.regs with cmd := v }
              latch := ⟨v, s.regs.len, s.regs.srca, s.regs.srcb, s.regs.dst, s.regs.scalar⟩
              status := ⟨true, false, false, s.status.haz, .none⟩
              erridx := 0 }) ∧
    (s.status.busy = true →
      memWrite s (s.params.base + 0x028) 8 v = .ok { s with status := { s.status with haz := true } })

/-- R181: a window access while BUSY: a read returns 0, a write is dropped, and either sets HAZ and changes nothing else. -/
def Obligations.WindowAccessWhileBusySetsHaz : Prop :=
  ∀ (s : State) (e : Nat) (hi : Bool) (v : Word), s.params.legal → e < 2 ^ s.params.log2Dmem → s.status.busy = true →
    memRead s (s.params.base + 0x01000000 + 16 * e + (if hi then 8 else 0)) 8 =
      .ok (0, { s with status := { s.status with haz := true } }) ∧
    memWrite s (s.params.base + 0x01000000 + 16 * e + (if hi then 8 else 0)) 8 v =
      .ok { s with status := { s.status with haz := true } }

/-- R32, R37: while idle, a window write stores exactly its half: reading it back gives the value, every byte outside it is unchanged, and so is
everything but data memory. -/
def Obligations.WindowWriteThenRead : Prop :=
  ∀ (s : State) (e : Nat) (hi : Bool) (v : Word), s.params.legal → e < 2 ^ s.params.log2Dmem → s.status.busy = false →
    ∃ t, memWrite s (s.params.base + 0x01000000 + 16 * e + (if hi then 8 else 0)) 8 v = .ok t ∧
      memRead t (s.params.base + 0x01000000 + 16 * e + (if hi then 8 else 0)) 8 = .ok (v, t) ∧
      (∀ a, (a < 16 * e + (if hi then 8 else 0) ∨ 16 * e + (if hi then 8 else 0) + 8 ≤ a) → t.dmem.read a = s.dmem.read a) ∧
      SameOutside s t ∧ t.status = s.status ∧ t.erridx = s.erridx

/-- R31, R33: inside the space the block decodes, a host access is a bus error exactly when its size is not 8, its offset is not a multiple of 8, or its
offset is in an unmapped range. -/
def Obligations.BusErrorsExactly : Prop :=
  ∀ (s : State) (off size : Nat) (v : Word), s.params.legal → off < 0x02000000 →
    (memRead s (s.params.base + off) size = .error (.busError (s.params.base + off) size) ↔
      size ≠ 8 ∨ off % 8 ≠ 0 ∨ (0x58 ≤ off ∧ off < 0x01000000) ∨ 0x01000000 + 16 * 2 ^ s.params.log2Dmem ≤ off) ∧
    (memWrite s (s.params.base + off) size v = .error (.busError (s.params.base + off) size) ↔
      size ≠ 8 ∨ off % 8 ≠ 0 ∨ (0x58 ≤ off ∧ off < 0x01000000) ∨ 0x01000000 + 16 * 2 ^ s.params.log2Dmem ≤ off)

/-- R37, R42, R46: while idle, a host read of a half that was never written is the model fault, and of a written half, by a host or by a command, it returns
that half and changes nothing. -/
def Obligations.UnwrittenWindowReadFaults : Prop :=
  ∀ (s : State) (e : Nat) (hi : Bool), s.params.legal → e < 2 ^ s.params.log2Dmem → s.status.busy = false →
    (s.dmem.readWord (16 * e + (if hi then 8 else 0)) = none →
      memRead s (s.params.base + 0x01000000 + 16 * e + (if hi then 8 else 0)) 8 = .error (.uninitRead e)) ∧
    ∀ w, s.dmem.readWord (16 * e + (if hi then 8 else 0)) = some w →
      memRead s (s.params.base + 0x01000000 + 16 * e + (if hi then 8 else 0)) 8 = .ok (w, s)

/-- R57: `wait` assembles to a poll of STATUS and a branch on bit 0; two host turns of it come back to its start while BUSY, and leave it otherwise, with
nothing of the block changed. That a fresh variable `k` has the number 2k + 1 and that a target is a statement's index is the model's choice (log entry 7). -/
def Obligations.WaitPollsUntilIdle : Prop :=
  (∀ base k, assemble base (waitStmts k) = some [.read (base + 0x010) 8 (2 * k + 1), .bit (2 * k + 1) 0 0]) ∧
  ∀ (s : State) (k : Nat), assemble s.params.base (waitStmts k) = some s.host.program → s.host.pc = 0 →
    ∃ u v, hostStep s = .next u ∧ hostStep u = .next v ∧ v.host.pc = (if s.status.busy then 0 else 2) ∧
      v.status = s.status ∧ v.regs = s.regs ∧ v.latch = s.latch ∧ v.dmem = s.dmem ∧ v.erridx = s.erridx

/-! ### Completion in general -/

/-- R26, R142: whatever a command answers, it changes nothing but data memory, STATUS and ERRIDX; BUSY falls, DONE rises, ERR is exactly a code other than
NONE, HAZ is kept. -/
def Obligations.EveryCommandKeepsItsFrame : Prop :=
  ∀ (i : Instr) (s t : State), exec i s = .next t →
    SameOutside s t ∧ t.status.busy = false ∧ t.status.done = true ∧ t.status.haz = s.status.haz ∧
      (t.status.err = true ↔ t.status.errcode ≠ .none)

/-- R142: a command that completes with a code other than NONE, legal or not, has written no byte of data memory and no register but STATUS and ERRIDX,
and running it again on the same latch and data memory gives the same error. -/
def Obligations.ErrorCompletionWritesNothing : Prop :=
  ∀ s t : State, s.status.busy = true → engineStep s = .next t → t.status.errcode ≠ .none →
    t.dmem = s.dmem ∧ t.regs = s.regs ∧
    ∀ s' : State, s'.params = s.params → s'.latch = s.latch → s'.dmem = s.dmem → s'.status.busy = true →
      ∃ t', engineStep s' = .next t' ∧ t'.status.errcode = t.status.errcode ∧ t'.erridx = t.erridx ∧ t'.dmem = s'.dmem

/-- R144, R25: what a command reports and writes is a function of the parameters, the latched operands and the snapshot only. -/
def Obligations.OutcomeFixedByLatchAndSnapshot : Prop :=
  ∀ (i : Instr) (s s' : State), s'.params = s.params → s'.latch = s.latch → s'.dmem = s.dmem →
    (∀ t, exec i s = .next t →
      ∃ t', exec i s' = .next t' ∧ t'.dmem = t.dmem ∧ t'.status.errcode = t.status.errcode ∧ t'.erridx = t.erridx) ∧
    (∀ f, exec i s = .fault f → exec i s' = .fault f)

/-- R46, R147: no command is refused, and the only fault of a command is the read of a never-written half. -/
def Obligations.CommandsAreNeverRefused : Prop :=
  ∀ (i : Instr) (s : State), (∃ t, exec i s = .next t) ∨ ∃ e, exec i s = .fault (.uninitRead e)

/-! ### Errors -/

/-- R90, R141: the checks of the transform family, in their order, each with the state it completes to. -/
def Obligations.TransformChecksInOrder : Prop :=
  ∀ s : State,
    (∀ i ∈ [Instr.fft, Instr.ifft, Instr.bitrev],
      ((∀ L, s.latch.n ≠ 2 ^ L) → exec i s = .next (failedWith s .invalidArgument 0)) ∧
      ∀ L, s.latch.n = 2 ^ L →
        (s.params.log2Nmax < L → exec i s = .next (failedWith s .tooLong 0)) ∧
        (L ≤ s.params.log2Nmax →
          (2 ^ s.params.log2Dmem < s.latch.a + 2 ^ L ∨ 2 ^ s.params.log2Dmem < s.latch.d + 2 ^ L) →
          exec i s = .next (failedWith s .range 0))) ∧
    (∀ (st : Nat) (inv : Bool),
      ((∀ L, s.latch.n ≠ 2 ^ L) →
        exec (.stage st inv) s = .next (failedWith s .invalidArgument 0) ∧
        exec (.twid st inv) s = .next (failedWith s .invalidArgument 0)) ∧
      ∀ L, s.latch.n = 2 ^ L →
        ((st = 0 ∨ L < st) →
          exec (.stage st inv) s = .next (failedWith s .invalidArgument 0) ∧
          exec (.twid st inv) s = .next (failedWith s .invalidArgument 0)) ∧
        (1 ≤ st → st ≤ L → s.params.log2Nmax < L →
          exec (.stage st inv) s = .next (failedWith s .tooLong 0) ∧ exec (.twid st inv) s = .next (failedWith s .tooLong 0)) ∧
        (1 ≤ st → st ≤ L → L ≤ s.params.log2Nmax →
          ((2 ^ s.params.log2Dmem < s.latch.a + 2 ^ L ∨ 2 ^ s.params.log2Dmem < s.latch.d + 2 ^ L) →
            exec (.stage st inv) s = .next (failedWith s .range 0)) ∧
          (2 ^ s.params.log2Dmem < s.latch.d + 2 ^ (st - 1) → exec (.twid st inv) s = .next (failedWith s .range 0))))

/-- R110, R141: the checks of the elementwise family: RANGE for a source or the destination, then OVERLAP; neither for n = 0. -/
def Obligations.VectorChecksInOrder : Prop :=
  ∀ s : State, s.latch.n ≠ 0 →
    ∀ p ∈ [(Instr.vadd, [s.latch.a, s.latch.b]), (.vsub, [s.latch.a, s.latch.b]), (.vmul, [s.latch.a, s.latch.b]),
           (.vdiv, [s.latch.a, s.latch.b]), (.vsqr, [s.latch.a]), (.vdivs, [s.latch.a]), (.vcvt, [s.latch.a]),
           (.vround, [s.latch.a])],
      ((∃ q ∈ p.2 ++ [s.latch.d], 2 ^ s.params.log2Dmem < q + s.latch.n) → exec p.1 s = .next (failedWith s .range 0)) ∧
      ((∀ q ∈ p.2 ++ [s.latch.d], q + s.latch.n ≤ 2 ^ s.params.log2Dmem) →
        (∃ q ∈ p.2, q ≠ s.latch.d ∧ q < s.latch.d + s.latch.n ∧ s.latch.d < q + s.latch.n) →
        exec p.1 s = .next (failedWith s .overlap 0))

/-- R118, R141: VROUND stops with OVERFLOW at the first lane whose value does not round into an int64, with that lane's index, and writes nothing, whatever
stands in the later lanes. -/
def Obligations.VroundOverflowAtFirstLane : Prop :=
  ∀ (s : State) (j : Nat) (w : Nat → Word), VectorAdmits s [s.latch.a] → j < s.latch.n →
    (∀ k, k ≤ j → s.dmem.readWord (loAddr (s.latch.a + k)) = some (w k)) →
    (∀ k, k < j → roundToInt ⟨w k, 0⟩ ≠ none) → roundToInt ⟨w j, 0⟩ = none →
    exec .vround s = .next (failedWith s .overflow j)

/-- R46, R141: a command that passes its checks and reads a half never written is the model fault. Which entry the fault names is the first in lane order,
SRCA before SRCB: the model's choice (log entry 3). VCVT and VROUND read bits [63:0] only. -/
def Obligations.UnwrittenSourceFaults : Prop :=
  ∀ (s : State) (k : Nat),
    (∀ L, TransformAdmits s L (2 ^ L) → k < 2 ^ L → s.dmem.readEntry (s.latch.a + k) = none →
      (∀ j, j < k → s.dmem.readEntry (s.latch.a + j) ≠ none) →
      (∀ i ∈ [Instr.fft, Instr.ifft, Instr.bitrev], exec i s = .fault (.uninitRead (s.latch.a + k))) ∧
      ∀ st inv, 1 ≤ st → st ≤ L → exec (.stage st inv) s = .fault (.uninitRead (s.latch.a + k))) ∧
    (VectorAdmits s [s.latch.a, s.latch.b] → k < s.latch.n →
      (∀ j, j < k → s.dmem.readEntry (s.latch.a + j) ≠ none ∧ s.dmem.readEntry (s.latch.b + j) ≠ none) →
      ∀ i ∈ [Instr.vadd, Instr.vsub, Instr.vmul, Instr.vdiv],
        (s.dmem.readEntry (s.latch.a + k) = none → exec i s = .fault (.uninitRead (s.latch.a + k))) ∧
        (s.dmem.readEntry (s.latch.a + k) ≠ none → s.dmem.readEntry (s.latch.b + k) = none →
          exec i s = .fault (.uninitRead (s.latch.b + k)))) ∧
    (VectorAdmits s [s.latch.a] → k < s.latch.n → s.dmem.readEntry (s.latch.a + k) = none →
      (∀ j, j < k → s.dmem.readEntry (s.latch.a + j) ≠ none) →
      ∀ i ∈ [Instr.vsqr, Instr.vdivs], exec i s = .fault (.uninitRead (s.latch.a + k))) ∧
    (VectorAdmits s [s.latch.a] → k < s.latch.n → s.dmem.readWord (loAddr (s.latch.a + k)) = none →
      ((∀ j, j < k → s.dmem.readWord (loAddr (s.latch.a + j)) ≠ none) → exec .vcvt s = .fault (.uninitRead (s.latch.a + k))) ∧
      ((∀ j, j < k → ∃ w, s.dmem.readWord (loAddr (s.latch.a + j)) = some w ∧ roundToInt ⟨w, 0⟩ ≠ none) →
        exec .vround s = .fault (.uninitRead (s.latch.a + k))))

/-! ### What each command does -/

/-- R130: NOP completes with NONE from every state, changing STATUS and ERRIDX only; its one legal word is 0, and every other word with OPC 0 is illegal; offered
to an idle block it sets BUSY, and its completion then sets DONE. -/
def Obligations.NopCompletes : Prop :=
  (∀ s : State, exec .nop s = .next { s with status := ⟨false, true, false, s.status.haz, .none⟩, erridx := 0 }) ∧
  (∀ w : Word, (decode w = .ok .nop ↔ w = 0) ∧ (field w 0 8 = 0 → w ≠ 0 → legalWord w = false)) ∧
  ∀ s : State, s.status.busy = false →
    (writeReg s .cmd 0).status = ⟨true, false, false, s.status.haz, .none⟩ ∧
    ∃ t, engineStep (writeReg s .cmd 0) = .next t ∧ t.status = ⟨false, true, false, s.status.haz, .none⟩ ∧ t.erridx = 0 ∧ t.dmem = s.dmem

/-- R91: FFT of a fitting length with a written source completes; from DST on stands the forward core of the source sequence, or the source entry itself
for length 1, and every other byte is unchanged. The ranges may overlap in any way (R39). -/
def Obligations.FftWritesTheTransform : Prop :=
  ∀ (s : State) (L : Nat) (xs : List Cplx), TransformAdmits s L (2 ^ L) → xs.length = 2 ^ L → HoldsFrom s.dmem s.latch.a xs →
    ∃ (t : State) (ys : List Cplx), exec .fft s = .next t ∧ CompletedOk s t ∧ ys.length = 2 ^ L ∧
      ys = (if L = 0 then xs else fftCore s.params.twmode L false xs) ∧ WrittenFrom s.dmem t.dmem s.latch.d ys

/-- R92, R89: IFFT likewise with the conjugate root, each part then divided by n; for length 1 the division is by 1.0. -/
def Obligations.IfftWritesTheInverse : Prop :=
  ∀ (s : State) (L : Nat) (xs : List Cplx), TransformAdmits s L (2 ^ L) → xs.length = 2 ^ L → HoldsFrom s.dmem s.latch.a xs →
    ∃ (t : State) (ys : List Cplx), exec .ifft s = .next t ∧ CompletedOk s t ∧ ys.length = 2 ^ L ∧
      (∀ (k : Nat) (c : Cplx), (if L = 0 then xs else fftCore s.params.twmode L true xs)[k]? = some c →
        ys[k]? = some (cdivs c (i2f ((2 ^ L : Nat) : Int)))) ∧
      WrittenFrom s.dmem t.dmem s.latch.d ys

/-- R93: BITREV completes; source entry i stands, bit for bit, at DST + rev_L(i), and every byte outside the destination is unchanged. -/
def Obligations.BitrevMovesEntries : Prop :=
  ∀ (s : State) (L : Nat) (xs : List Cplx), TransformAdmits s L (2 ^ L) → xs.length = 2 ^ L → HoldsFrom s.dmem s.latch.a xs →
    ∃ t, exec .bitrev s = .next t ∧ CompletedOk s t ∧
      (∀ i x, xs[i]? = some x → t.dmem.readEntry (s.latch.d + rev L i) = some x) ∧
      ∀ a, (a < 16 * s.latch.d ∨ 16 * (s.latch.d + 2 ^ L) ≤ a) → t.dmem.read a = s.dmem.read a

/-- R94, R86, R85: STAGE completes; in each block of 2^S entries the butterfly of place k joins elements k and k + 2^(S-1) with the twiddle TW(n, 2^S, k, INV),
and every byte outside the destination is unchanged. -/
def Obligations.StageWritesButterflies : Prop :=
  ∀ (s : State) (L st : Nat) (inv : Bool) (xs : List Cplx), TransformAdmits s L (2 ^ L) → 1 ≤ st → st ≤ L → xs.length = 2 ^ L →
    HoldsFrom s.dmem s.latch.a xs →
    ∃ t, exec (.stage st inv) s = .next t ∧ CompletedOk s t ∧
      (∀ b k e o, b < 2 ^ (L - st) → k < 2 ^ (st - 1) → xs[b * 2 ^ st + k]? = some e →
        xs[b * 2 ^ st + k + 2 ^ (st - 1)]? = some o →
        t.dmem.readEntry (s.latch.d + (b * 2 ^ st + k)) =
          some (cadd e (cmul (tw s.params.twmode L st k inv) o)) ∧
        t.dmem.readEntry (s.latch.d + (b * 2 ^ st + k + 2 ^ (st - 1))) =
          some (csub e (cmul (tw s.params.twmode L st k inv) o))) ∧
      ∀ a, (a < 16 * s.latch.d ∨ 16 * (s.latch.d + 2 ^ L) ≤ a) → t.dmem.read a = s.dmem.read a

/-- R95, R81: TWID completes with any SRCA; entry DST + k is TW(n, 2^S, k, INV) for k below 2^(S-1), and every byte outside these entries is unchanged. -/
def Obligations.TwidWritesTheTwiddles : Prop :=
  ∀ (s : State) (L st : Nat) (inv : Bool), s.latch.n = 2 ^ L → L ≤ s.params.log2Nmax → 1 ≤ st → st ≤ L →
    s.latch.d + 2 ^ (st - 1) ≤ 2 ^ s.params.log2Dmem →
    ∃ t, exec (.twid st inv) s = .next t ∧ CompletedOk s t ∧
      (∀ k, k < 2 ^ (st - 1) → t.dmem.readEntry (s.latch.d + k) = some (tw s.params.twmode L st k inv)) ∧
      ∀ a, (a < 16 * s.latch.d ∨ 16 * (s.latch.d + 2 ^ (st - 1)) ≤ a) → t.dmem.read a = s.dmem.read a

/-- R111, R112, R113, R115 with the units of R71, R72, R73, R75 written out: VADD, VSUB, VMUL and VDIV complete on admissible ranges with written sources; lane
i of the destination is the unit's result on lanes i of SRCA and SRCB, in that order; every byte outside the destination is unchanged. With n = 0 nothing is
written. -/
def Obligations.TwoSourceCommandsWriteLanes : Prop :=
  ∀ p ∈ [
      (Instr.vadd, fun x y : Cplx => Cplx.mk (fadd x.re y.re) (fadd x.im y.im)),
      (.vsub, fun x y => ⟨fsub x.re y.re, fsub x.im y.im⟩),
      (.vmul, fun x y => ⟨fsub (fmul x.re y.re) (fmul x.im y.im), fadd (fmul x.re y.im) (fmul x.im y.re)⟩),
      (.vdiv, fun x y =>
        ⟨fdiv (fadd (fmul x.re y.re) (fmul x.im y.im)) (fadd (fmul y.re y.re) (fmul y.im y.im)),
         fdiv (fsub (fmul x.im y.re) (fmul x.re y.im)) (fadd (fmul y.re y.re) (fmul y.im y.im))⟩)],
    ∀ (s : State) (xs ys : List Cplx), VectorAdmits s [s.latch.a, s.latch.b] → xs.length = s.latch.n → ys.length = s.latch.n →
      HoldsFrom s.dmem s.latch.a xs → HoldsFrom s.dmem s.latch.b ys →
      ∃ t, exec p.1 s = .next t ∧ CompletedOk s t ∧ WrittenFrom s.dmem t.dmem s.latch.d (List.zipWith p.2 xs ys)

/-- R114, R116: VSQR and VDIVS likewise, VSQR with the square of each lane, VDIVS dividing both parts by the latched SCALAR. -/
def Obligations.OneSourceCommandsWriteLanes : Prop :=
  ∀ (s : State) (xs : List Cplx), VectorAdmits s [s.latch.a] → xs.length = s.latch.n → HoldsFrom s.dmem s.latch.a xs →
    (∃ t, exec .vsqr s = .next t ∧ CompletedOk s t ∧ WrittenFrom s.dmem t.dmem s.latch.d (xs.map (fun x => cmul x x))) ∧
    (∃ t, exec .vdivs s = .next t ∧ CompletedOk s t ∧
      WrittenFrom s.dmem t.dmem s.latch.d (xs.map (fun x => ⟨fdiv x.re s.latch.scalar, fdiv x.im s.latch.scalar⟩)))

/-- R117: VCVT completes when bits [63:0] of every source entry are written; lane i is (i2f of that int64, +0). -/
def Obligations.VcvtWritesLanes : Prop :=
  ∀ (s : State) (ws : List Word), VectorAdmits s [s.latch.a] → ws.length = s.latch.n →
    (∀ k (h : k < ws.length), s.dmem.readWord (loAddr (s.latch.a + k)) = some ws[k]) →
    ∃ t, exec .vcvt s = .next t ∧ CompletedOk s t ∧
      WrittenFrom s.dmem t.dmem s.latch.d (ws.map (fun w => ⟨i2f w.toInt, 0⟩))

/-- R118: VROUND completes when bits [63:0] of every source entry are written and every lane rounds into an int64; lane i holds that int64 in bits [63:0] and
0 in bits [127:64]. -/
def Obligations.VroundWritesLanes : Prop :=
  ∀ (s : State) (ws : List Word) (qs : List Int), VectorAdmits s [s.latch.a] → ws.length = s.latch.n → qs.length = s.latch.n →
    (∀ k (h : k < ws.length), s.dmem.readWord (loAddr (s.latch.a + k)) = some ws[k]) →
    (∀ k (h : k < ws.length) (h' : k < qs.length), roundToInt ⟨ws[k], 0⟩ = some qs[k]) →
    ∃ t, exec .vround s = .next t ∧ CompletedOk s t ∧
      WrittenFrom s.dmem t.dmem s.latch.d (qs.map (fun q => ⟨BitVec.ofInt 64 q, 0⟩))

/-! ### The transform -/

/-- R88: with GEN the core is the document's recursion with the root of the length, bit for bit, in both directions; with LEVEL it is the variant that takes
the root anew at each level. -/
def Obligations.CoreIsTheRecursion : Prop :=
  ∀ (L : Nat) (inv : Bool) (x : List Cplx), 1 ≤ L → x.length = 2 ^ L →
    fftCore .gen L inv x = recFft L (root L inv) x ∧ fftCore .level L inv x = recLevel inv L x

/-- R94 (corner cases), R134: for n ≥ 2, BITREV and then STAGE 1 to log2(n) in place leave data memory as FFT does, byte for byte.
It takes `exec` as the whole `Complete` step on the latch it is given, BUSY or not: the model's choice (log entry 11). -/
def Obligations.FftEqualsBitrevThenStages : Prop :=
  ∀ (s t : State) (L : Nat), 1 ≤ L → s.latch.n = 2 ^ L → exec .fft s = .next t → t.status.errcode = .none →
    ∃ u v, exec .bitrev s = .next u ∧ runStages false L u = some v ∧ v.status.errcode = .none ∧
      ∀ a, v.dmem.read a = t.dmem.read a

/-- R94 (corner cases), R92, R116: for n ≥ 2, BITREV, the inverse stages in place and then VDIVS in place with SCALAR = i2f(n) leave data memory as IFFT
does. It takes `exec` as the whole `Complete` step on
the latch it is given, BUSY or not: the model's choice (log entry 11). -/
def Obligations.IfftEqualsStagesThenVdivs : Prop :=
  ∀ (s t : State) (L : Nat), 1 ≤ L → s.latch.n = 2 ^ L → exec .ifft s = .next t → t.status.errcode = .none →
    ∃ u v w, exec .bitrev s = .next u ∧ runStages true L u = some v ∧
      exec .vdivs { v with latch := { v.latch with srca := v.latch.dst, scalar := i2f ((2 ^ L : Nat) : Int) } } = .next w ∧
      w.status.errcode = .none ∧ ∀ a, w.dmem.read a = t.dmem.read a

/-- R114: VSQR answers as VMUL with SRCB = SRCA, errors and faults included. -/
def Obligations.VsqrEqualsVmulWithItself : Prop :=
  ∀ s : State,
    (∀ t, exec .vsqr s = .next t → exec .vmul { s with latch := { s.latch with srcb := s.latch.srca } } =
      .next { t with latch := { s.latch with srcb := s.latch.srca } }) ∧
    (∀ f, exec .vsqr s = .fault f → exec .vmul { s with latch := { s.latch with srcb := s.latch.srca } } = .fault f)

/-- R84: `rev_L(i)` is the sum of i's bits in reverse places; it stays below 2^L and is its own inverse; `BITREVP` puts `x[i]` at `rev_L(i)`, equivalently
`x[rev_L(i)]` at i. -/
def Obligations.BitReversalIsAnInvolution : Prop :=
  ∀ L i : Nat, i < 2 ^ L →
    rev L i = ∑ j ∈ Finset.range L, (i / 2 ^ j % 2) * 2 ^ (L - 1 - j) ∧ rev L i < 2 ^ L ∧ rev L (rev L i) = i ∧
    ∀ x : List Cplx, x.length = 2 ^ L →
      (bitrevP L x).length = 2 ^ L ∧ (bitrevP L x)[rev L i]? = x[i]? ∧ (bitrevP L x)[i]? = x[rev L i]?

/-- R81, R82: the twiddle of place 0 is ONE in every mode and direction, and in GEN and LEVEL each next one is one product with the stage root. -/
def Obligations.TwiddlesAreRunningPowers : Prop :=
  ∀ (mode : TwMode) (L S : Nat) (inv : Bool),
    tw mode L S 0 inv = cone ∧
    (∀ k, tw .gen L S (k + 1) inv = cmul (tw .gen L S k inv) (csqr^[L - S] (root L inv))) ∧
    (∀ k, tw .level L S (k + 1) inv = cmul (tw .level L S k inv) (root S inv))

/-- R82: entry k·2^j of the table of 2^(S+j) is the direct twiddle k of 2^S, which has the same exact angle. -/
def Obligations.DirectTwiddlesShareOneTable : Prop :=
  ∀ (S j k : Nat) (inv : Bool), directTw (S + j) (k * 2 ^ j) inv = directTw S k inv

/-- R82, through the model's way to compute it (log entry 10). The fixed-point unit root of every angle up to 2^20 steps is within 2^-100 of the real cosine and
sine. The direct twiddle is ONE for k = 0 and has an exact +0 cosine at k = m/4; for INV = 1 the imaginary part is negated; elsewhere each part is the fixed-point
number rounded once, so no finite value is nearer to the real cosine or sine by more than 2^-99; and for m up to 64 each part is the one nearest value. -/
def Obligations.DirectRootsNearRealValues : Prop :=
  (∀ S k : Nat, S ≤ 20 → k < 2 ^ S →
    |((fixUnit S k).1 : ℝ) / 2 ^ 128 - Real.cos (2 * Real.pi * k / 2 ^ S)| ≤ 1 / 2 ^ 100 ∧
    |((fixUnit S k).2 : ℝ) / 2 ^ 128 - Real.sin (2 * Real.pi * k / 2 ^ S)| ≤ 1 / 2 ^ 100) ∧
  (∀ (S : Nat) (inv : Bool), directTw S 0 inv = ⟨0x3FF0000000000000, 0⟩) ∧
  (∀ (S k : Nat) (inv : Bool), 4 * k = 2 ^ S → directTw S k inv = ⟨0, if inv then 0xBFF0000000000000 else 0x3FF0000000000000⟩) ∧
  (∀ S k : Nat, k ≠ 0 → directTw S k true = ⟨(directTw S k false).re, fneg (directTw S k false).im⟩) ∧
  ∀ S k : Nat, S ≤ 20 → 0 < k → 2 * k < 2 ^ S → 4 * k ≠ 2 ^ S →
    IsRounded (((fixUnit S k).1 : ℚ) / 2 ^ 128) (directTw S k false).re ∧
    IsRounded (((fixUnit S k).2 : ℚ) / 2 ^ 128) (directTw S k false).im ∧
    (∀ y : Word, isFinite y = true →
      |((fvalue (directTw S k false).re : ℚ) : ℝ) - Real.cos (2 * Real.pi * k / 2 ^ S)| ≤
        |((fvalue y : ℚ) : ℝ) - Real.cos (2 * Real.pi * k / 2 ^ S)| + 1 / 2 ^ 99 ∧
      |((fvalue (directTw S k false).im : ℚ) : ℝ) - Real.sin (2 * Real.pi * k / 2 ^ S)| ≤
        |((fvalue y : ℚ) : ℝ) - Real.sin (2 * Real.pi * k / 2 ^ S)| + 1 / 2 ^ 99) ∧
    (S ≤ 6 → ∀ y : Word, isFinite y = true →
      (y ≠ (directTw S k false).re →
        |((fvalue (directTw S k false).re : ℚ) : ℝ) - Real.cos (2 * Real.pi * k / 2 ^ S)| <
          |((fvalue y : ℚ) : ℝ) - Real.cos (2 * Real.pi * k / 2 ^ S)|) ∧
      (y ≠ (directTw S k false).im →
        |((fvalue (directTw S k false).im : ℚ) : ℝ) - Real.sin (2 * Real.pi * k / 2 ^ S)| <
          |((fvalue y : ℚ) : ℝ) - Real.sin (2 * Real.pi * k / 2 ^ S)|))

/-- R79, R83: each ROM entry, L = 0 to 20, is within half a unit in its own last place of the real cosine and sine of the binary64 angle 2·PI64/2^L, and the root
for INV = 1 is the conjugate. -/
def Obligations.RomRootsWithinHalfUlp : Prop :=
  (∀ L : Nat, L ≤ 20 →
    |((fvalue (root L false).re : ℚ) : ℝ) - Real.cos (2 * ((fvalue 0x400921FB54442D18 : ℚ) : ℝ) / 2 ^ L)| ≤ 1 / 2 ^ (if L = 2 then 107 else 54) ∧
    |((fvalue (root L false).im : ℚ) : ℝ) - Real.sin (2 * ((fvalue 0x400921FB54442D18 : ℚ) : ℝ) / 2 ^ L)| ≤
      1 / 2 ^ (if L = 0 then 105 else if L = 1 then 106 else 51 + L)) ∧
  ∀ L : Nat, root L true = ⟨(root L false).re, fneg (root L false).im⟩

/-! ### Binary64 -/

/-- R8, R61: the one rounding function rounds the fraction p/q of units of 2^-1074 to nearest, ties to even, with gradual underflow, overflow to infinity and
the exact result's sign. -/
def Obligations.RoundingIsNearestEven : Prop :=
  ∀ (neg : Bool) (p q : Nat), 0 < p → 0 < q →
    IsRounded ((if neg then -1 else 1) * ((p : ℚ) / (q : ℚ)) / 2 ^ 1074) (roundTo64 neg p q)

/-- R61 to R65, R69: on finite operands with a non-zero exact result each primitive is that result rounded once. Zero operands of `fmul` and `fdiv`, zero sums,
infinities and NaN are in SpecialOperands. -/
def Obligations.PrimitivesRoundTheExactResult : Prop :=
  (∀ a b : Word, isFinite a = true → isFinite b = true →
    (fvalue a + fvalue b ≠ 0 → IsRounded (fvalue a + fvalue b) (fadd a b)) ∧
    (fvalue a - fvalue b ≠ 0 → IsRounded (fvalue a - fvalue b) (fsub a b)) ∧
    (isZero a = false → isZero b = false → IsRounded (fvalue a * fvalue b) (fmul a b) ∧ IsRounded (fvalue a / fvalue b) (fdiv a b))) ∧
  (∀ v : Int, v ≠ 0 → IsRounded (v : ℚ) (i2f v))

/-- R78, with R62 and R64: addition, multiplication and complex multiplication are commutative bit for bit. -/
def Obligations.ProductsAndSumsCommute : Prop :=
  ∀ a b : Word, fadd a b = fadd b a ∧ fmul a b = fmul b a ∧ ∀ c d : Word, cmul ⟨a, c⟩ ⟨b, d⟩ = cmul ⟨b, d⟩ ⟨a, c⟩

/-- R66: a NaN result of a primitive is CANON_NAN, a NaN operand gives it, and a converted integer is never NaN. -/
def Obligations.NanResultsAreCanonical : Prop :=
  (∀ f ∈ [fadd, fsub, fmul, fdiv], ∀ a b : Word,
    (isNaN (f a b) = true → f a b = 0x7FF8000000000000) ∧ (isNaN a = true ∨ isNaN b = true → f a b = 0x7FF8000000000000)) ∧
  ∀ v : Int, isNaN (i2f v) = false

/-- R62, R64, R65: every case of the primitives that rounds nothing. NaN operands; for `fadd` infinities and exact zero sums; for `fmul` infinities and zeros; for
`fdiv` infinities and zeros, division by zero among them. -/
def Obligations.SpecialOperands : Prop :=
  (finf false = 0x7FF0000000000000 ∧ finf true = 0xFFF0000000000000 ∧ fzero false = 0 ∧ fzero true = 0x8000000000000000) ∧
  (∀ a b : Word, isNaN a = true ∨ isNaN b = true →
    fadd a b = 0x7FF8000000000000 ∧ fmul a b = 0x7FF8000000000000 ∧ fdiv a b = 0x7FF8000000000000) ∧
  (∀ s : Bool, fadd (finf s) (finf (!s)) = 0x7FF8000000000000 ∧ fadd (finf s) (finf s) = finf s ∧
    ∀ a, isFinite a = true → fadd (finf s) a = finf s ∧ fadd a (finf s) = finf s) ∧
  (∀ a b : Word, isFinite a = true → isFinite b = true → fvalue a + fvalue b = 0 →
    fadd a b = if isZero a = true ∧ isZero b = true ∧ fsign a = fsign b then a else 0) ∧
  (∀ s r : Bool, fmul (fzero s) (finf r) = 0x7FF8000000000000 ∧ fmul (finf r) (fzero s) = 0x7FF8000000000000) ∧
  (∀ (s : Bool) (a : Word), isNaN a = false → isZero a = false → fmul (finf s) a = finf (s != fsign a) ∧ fmul a (finf s) = finf (fsign a != s)) ∧
  (∀ (s : Bool) (a : Word), isFinite a = true → fmul (fzero s) a = fzero (s != fsign a) ∧ fmul a (fzero s) = fzero (fsign a != s)) ∧
  (∀ s r : Bool, fdiv (finf s) (finf r) = 0x7FF8000000000000 ∧ fdiv (fzero s) (fzero r) = 0x7FF8000000000000) ∧
  (∀ (s : Bool) (a : Word), isFinite a = true → fdiv (finf s) a = finf (s != fsign a) ∧ fdiv a (finf s) = fzero (fsign a != s)) ∧
  (∀ (s : Bool) (a : Word), isFinite a = true → isZero a = false → fdiv a (fzero s) = finf (fsign a != s) ∧ fdiv (fzero s) a = fzero (s != fsign a))

/-- R63: subtraction adds the negation; the difference of a finite value and itself is +0; the signs of the differences of zeros; the difference of two
infinities of one sign is CANON_NAN. -/
def Obligations.SubtractionAddsTheNegation : Prop :=
  (∀ a b : Word, fsub a b = fadd a (fneg b)) ∧ (∀ x : Word, isFinite x = true → fsub x x = 0) ∧
  fsub (fzero false) (fzero false) = fzero false ∧ fsub (fzero true) (fzero false) = fzero true ∧
  fsub (fzero true) (fzero true) = fzero false ∧ ∀ neg, fsub (finf neg) (finf neg) = 0x7FF8000000000000

/-- R69: an int64 converts to its rounded value: exactly up to 2^53 in magnitude, 0 to +0, never to NaN or infinity; and the rule's four examples. -/
def Obligations.IntegersConvertRounded : Prop :=
  (∀ v : Int, -(2 ^ 63 : Int) ≤ v → v < 2 ^ 63 →
    isFinite (i2f v) = true ∧ (v ≠ 0 → IsRounded (v : ℚ) (i2f v)) ∧
    (-(2 ^ 53 : Int) ≤ v → v ≤ 2 ^ 53 → fvalue (i2f v) = v)) ∧
  i2f 0 = 0 ∧ i2f (2 ^ 53 + 1) = 0x4340000000000000 ∧ i2f (2 ^ 53 + 3) = 0x4340000000000002 ∧
  i2f (2 ^ 63 - 1) = 0x43E0000000000000 ∧ i2f (-(2 ^ 63)) = 0xC3E0000000000000

/-- R77: RoundToInt adds 0.5 in binary64 and takes the floor; it is OVERFLOW exactly for a sum that is not finite or a floor outside int64; the imaginary
part plays no role. -/
def Obligations.RoundToIntIsFloorOfTheSum : Prop :=
  ∀ (re im : Word) (q : Int),
    roundToInt ⟨re, im⟩ = some q ↔
      isFinite (fadd re 0x3FE0000000000000) = true ∧ (q : ℚ) ≤ fvalue (fadd re 0x3FE0000000000000) ∧
        fvalue (fadd re 0x3FE0000000000000) < (q : ℚ) + 1 ∧ -(2 ^ 63 : Int) ≤ q ∧ q < 2 ^ 63

/-! ### Invariants and whole-machine rules -/

/-- The invariant of R5, R12, R25, R26, R46 and R140 is kept by every step, from every state that has it. -/
def Obligations.StepKeepsTheInvariant : Prop := ∀ s t : State, Inv s → step s = .next t → Inv t

/-- The invariant holds right after reset. -/
def Obligations.ResetHasTheInvariant : Prop := Inv State.reset

/-- R25, R45, R176, R181: while a command runs, no turn of the host changes its latch, data memory, BUSY, the last outcome's code or the parameters. -/
def Obligations.HostCannotDisturbARunningCommand : Prop :=
  ∀ s t : State, s.status.busy = true → hostStep s = .next t →
    t.latch = s.latch ∧ t.dmem = s.dmem ∧ t.status.busy = true ∧ t.status.errcode = s.status.errcode ∧ t.regs.cmd = s.regs.cmd ∧
      t.params = s.params

/-- R146, R151: HAZ falls only by a reset or by a host write to STATUS with bit 3 set. The clause for an empty schedule, that the turn is
the host's only while the block is idle, is the model's choice (log entry 5). -/
def Obligations.HazardFallsOnlyByClearOrReset : Prop :=
  ∀ s t : State, s.status.haz = true → step s = .next t → t.status.haz = false →
    s.schedule.head? = some .reset ∨
      ((s.schedule.head? = some .host ∨ (s.schedule = [] ∧ s.status.busy = false)) ∧
        ∃ v : Word, v.getLsbD 3 = true ∧ s.host.program[s.host.pc]? = some (.write (s.params.base + 0x010) 8 v))

/-- R177, with the model's schedule (log entry 5): a running command completes within one step more than the turns prescribed, whatever they are, if no
reset is among them and no step before stops. -/
def Obligations.RunningCommandCompletes : Prop :=
  ∀ (s t : State), s.status.busy = true → Turn.reset ∉ s.schedule → core.run (s.schedule.length + 1) s = .next t →
    ∃ j u, j ≤ s.schedule.length + 1 ∧ core.run j s = .next u ∧ (u : State).status.busy = false ∧ (u : State).status.done = true
end

