-- ==== Sys2Proof/Laws/State.lean ====
section
/-! SUPPORT. One lemma per field per named update of the state. -/

namespace Sys2Proof.Machine

@[simp] theorem accept_params (s : State) (v : Word) : (s.accept v).params = s.params := rfl
@[simp] theorem accept_dmem (s : State) (v : Word) : (s.accept v).dmem = s.dmem := rfl
@[simp] theorem accept_status (s : State) (v : Word) : (s.accept v).status = s.status.accepted := rfl
@[simp] theorem accept_erridx (s : State) (v : Word) : (s.accept v).erridx = 0 := rfl
@[simp] theorem accept_regs (s : State) (v : Word) : (s.accept v).regs = { s.regs with cmd := v } := rfl
@[simp] theorem accept_latch (s : State) (v : Word) : (s.accept v).latch = ⟨v, s.regs.len, s.regs.srca, s.regs.srcb, s.regs.dst, s.regs.scalar⟩ := rfl
@[simp] theorem accept_host (s : State) (v : Word) : (s.accept v).host = s.host := rfl
@[simp] theorem accept_schedule (s : State) (v : Word) : (s.accept v).schedule = s.schedule := rfl

@[simp] theorem complete_params (s : State) (c : ErrorCode) (k : Nat) : (s.complete c k).params = s.params := rfl
@[simp] theorem complete_dmem (s : State) (c : ErrorCode) (k : Nat) : (s.complete c k).dmem = s.dmem := rfl
@[simp] theorem complete_status (s : State) (c : ErrorCode) (k : Nat) : (s.complete c k).status = s.status.completed c := rfl
@[simp] theorem complete_erridx (s : State) (c : ErrorCode) (k : Nat) : (s.complete c k).erridx = BitVec.ofNat 64 k := rfl
@[simp] theorem complete_regs (s : State) (c : ErrorCode) (k : Nat) : (s.complete c k).regs = s.regs := rfl
@[simp] theorem complete_latch (s : State) (c : ErrorCode) (k : Nat) : (s.complete c k).latch = s.latch := rfl
@[simp] theorem complete_host (s : State) (c : ErrorCode) (k : Nat) : (s.complete c k).host = s.host := rfl
@[simp] theorem complete_schedule (s : State) (c : ErrorCode) (k : Nat) : (s.complete c k).schedule = s.schedule := rfl

@[simp] theorem hazard_params (s : State) : s.hazard.params = s.params := rfl
@[simp] theorem hazard_dmem (s : State) : s.hazard.dmem = s.dmem := rfl
@[simp] theorem hazard_status (s : State) : s.hazard.status = s.status.hazard := rfl
@[simp] theorem hazard_erridx (s : State) : s.hazard.erridx = s.erridx := rfl
@[simp] theorem hazard_regs (s : State) : s.hazard.regs = s.regs := rfl
@[simp] theorem hazard_latch (s : State) : s.hazard.latch = s.latch := rfl
@[simp] theorem hazard_host (s : State) : s.hazard.host = s.host := rfl
@[simp] theorem hazard_schedule (s : State) : s.hazard.schedule = s.schedule := rfl

@[simp] theorem resetBlock_params (s : State) : s.resetBlock.params = s.params := rfl
@[simp] theorem resetBlock_dmem (s : State) : s.resetBlock.dmem = [] := rfl
@[simp] theorem resetBlock_status (s : State) : s.resetBlock.status = Status.reset := rfl
@[simp] theorem resetBlock_erridx (s : State) : s.resetBlock.erridx = 0 := rfl
@[simp] theorem resetBlock_regs (s : State) : s.resetBlock.regs = Regs.reset := rfl
@[simp] theorem resetBlock_latch (s : State) : s.resetBlock.latch = Latch.reset := rfl
@[simp] theorem resetBlock_host (s : State) : s.resetBlock.host = s.host := rfl
@[simp] theorem resetBlock_schedule (s : State) : s.resetBlock.schedule = s.schedule := rfl

@[simp] theorem hostAt_params (s : State) (k : Nat) : (s.hostAt k).params = s.params := rfl
@[simp] theorem hostAt_dmem (s : State) (k : Nat) : (s.hostAt k).dmem = s.dmem := rfl
@[simp] theorem hostAt_status (s : State) (k : Nat) : (s.hostAt k).status = s.status := rfl
@[simp] theorem hostAt_erridx (s : State) (k : Nat) : (s.hostAt k).erridx = s.erridx := rfl
@[simp] theorem hostAt_regs (s : State) (k : Nat) : (s.hostAt k).regs = s.regs := rfl
@[simp] theorem hostAt_latch (s : State) (k : Nat) : (s.hostAt k).latch = s.latch := rfl
@[simp] theorem hostAt_host (s : State) (k : Nat) : (s.hostAt k).host = { s.host with pc := k } := rfl
@[simp] theorem hostAt_schedule (s : State) (k : Nat) : (s.hostAt k).schedule = s.schedule := rfl

@[simp] theorem hostNext_params (s : State) : s.hostNext.params = s.params := rfl
@[simp] theorem hostNext_dmem (s : State) : s.hostNext.dmem = s.dmem := rfl
@[simp] theorem hostNext_status (s : State) : s.hostNext.status = s.status := rfl
@[simp] theorem hostNext_erridx (s : State) : s.hostNext.erridx = s.erridx := rfl
@[simp] theorem hostNext_regs (s : State) : s.hostNext.regs = s.regs := rfl
@[simp] theorem hostNext_latch (s : State) : s.hostNext.latch = s.latch := rfl
@[simp] theorem hostNext_host (s : State) : s.hostNext.host = { s.host with pc := s.host.pc + 1 } := rfl
@[simp] theorem hostNext_schedule (s : State) : s.hostNext.schedule = s.schedule := rfl

@[simp] theorem hostAssign_params (s : State) (x : Nat) (v : Word) : (s.hostAssign x v).params = s.params := rfl
@[simp] theorem hostAssign_dmem (s : State) (x : Nat) (v : Word) : (s.hostAssign x v).dmem = s.dmem := rfl
@[simp] theorem hostAssign_status (s : State) (x : Nat) (v : Word) : (s.hostAssign x v).status = s.status := rfl
@[simp] theorem hostAssign_erridx (s : State) (x : Nat) (v : Word) : (s.hostAssign x v).erridx = s.erridx := rfl
@[simp] theorem hostAssign_regs (s : State) (x : Nat) (v : Word) : (s.hostAssign x v).regs = s.regs := rfl
@[simp] theorem hostAssign_latch (s : State) (x : Nat) (v : Word) : (s.hostAssign x v).latch = s.latch := rfl
@[simp] theorem hostAssign_host (s : State) (x : Nat) (v : Word) : (s.hostAssign x v).host = { s.host with vars := assignVar s.host.vars x v } := rfl
@[simp] theorem hostAssign_schedule (s : State) (x : Nat) (v : Word) : (s.hostAssign x v).schedule = s.schedule := rfl

@[simp] theorem load_params (s : State) (v : Word) : (s.load v).params = s.params := rfl
@[simp] theorem load_dmem (s : State) (v : Word) : (s.load v).dmem = s.dmem := rfl
@[simp] theorem load_status (s : State) (v : Word) : (s.load v).status = s.status.accepted := rfl
@[simp] theorem load_erridx (s : State) (v : Word) : (s.load v).erridx = 0 := rfl
@[simp] theorem load_regs (s : State) (v : Word) : (s.load v).regs = { s.regs with cmd := v } := rfl
@[simp] theorem load_latch (s : State) (v : Word) : (s.load v).latch = ⟨v, s.regs.len, s.regs.srca, s.regs.srcb, s.regs.dst, s.regs.scalar⟩ := rfl
@[simp] theorem load_host (s : State) (v : Word) : (s.load v).host = s.host := rfl
@[simp] theorem load_schedule (s : State) (v : Word) : (s.load v).schedule = .engine :: s.schedule := rfl

@[simp] theorem accepted_busy (st : Status) : st.accepted.busy = true := rfl
@[simp] theorem accepted_done (st : Status) : st.accepted.done = false := rfl
@[simp] theorem accepted_err (st : Status) : st.accepted.err = false := rfl
@[simp] theorem accepted_haz (st : Status) : st.accepted.haz = st.haz := rfl
@[simp] theorem accepted_errcode (st : Status) : st.accepted.errcode = .none := rfl

@[simp] theorem completed_busy (st : Status) (c : ErrorCode) : (st.completed c).busy = false := rfl
@[simp] theorem completed_done (st : Status) (c : ErrorCode) : (st.completed c).done = true := rfl
@[simp] theorem completed_err (st : Status) (c : ErrorCode) : (st.completed c).err = decide (c ≠ .none) := rfl
@[simp] theorem completed_haz (st : Status) (c : ErrorCode) : (st.completed c).haz = st.haz := rfl
@[simp] theorem completed_errcode (st : Status) (c : ErrorCode) : (st.completed c).errcode = c := rfl

@[simp] theorem hazardStatus_busy (st : Status) : st.hazard.busy = st.busy := rfl
@[simp] theorem hazardStatus_done (st : Status) : st.hazard.done = st.done := rfl
@[simp] theorem hazardStatus_err (st : Status) : st.hazard.err = st.err := rfl
@[simp] theorem hazardStatus_haz (st : Status) : st.hazard.haz = true := rfl
@[simp] theorem hazardStatus_errcode (st : Status) : st.hazard.errcode = st.errcode := rfl

@[simp] theorem clearedBy_busy (st : Status) (v : Word) : (st.clearedBy v).busy = st.busy := rfl
@[simp] theorem clearedBy_done (st : Status) (v : Word) : (st.clearedBy v).done = (st.done && !v.getLsbD 1) := rfl
@[simp] theorem clearedBy_err (st : Status) (v : Word) : (st.clearedBy v).err = (st.err && !v.getLsbD 2) := rfl
@[simp] theorem clearedBy_haz (st : Status) (v : Word) : (st.clearedBy v).haz = (st.haz && !v.getLsbD 3) := rfl
@[simp] theorem clearedBy_errcode (st : Status) (v : Word) : (st.clearedBy v).errcode = st.errcode := rfl

end Sys2Proof.Machine
end

