-- ==== Sys2Proof/Laws/Bus.lean ====
section
/-! SUPPORT. What a bus access, a host turn, an engine turn and a step can do, each said once. -/

namespace Sys2Proof.Machine

theorem allRegs_offset : ∀ k (h : k < allRegs.length), (allRegs[k]).offset = 8 * k := by decide

theorem reg_at_offset (r : Reg) : allRegs[r.offset / 8]? = some r ∧ r.offset % 8 = 0 ∧ r.offset < 0x58 := by cases r <;> decide

/-- A register's offset reaches that register (R15). -/
theorem targetOf_offset (p : Params) (r : Reg) : targetOf p r.offset = some (.reg r) := by
  obtain ⟨h1, -, h3⟩ := reg_at_offset r
  simp [targetOf, h3, h1]

/-- An 8-aligned offset that reaches a register is that register's (R15). -/
theorem targetOf_eq_reg {p : Params} {off : Nat} {r : Reg} (h : targetOf p off = some (.reg r)) (ha : off % 8 = 0) : off = r.offset := by
  unfold targetOf at h
  split at h
  · obtain ⟨r', hr, hr'⟩ := Option.map_eq_some_iff.1 h
    cases hr'
    obtain ⟨hk, he⟩ := List.getElem?_eq_some_iff.1 hr
    rw [← he, allRegs_offset]
    omega
  · split at h <;> simp at h

/-- The window address of a half reaches it (R32). -/
theorem targetOf_half {p : Params} {e : Nat} (hi : Bool) (he : e < p.dmemEntries) :
    targetOf p (windowOffset + halfAddr e hi) = some (.half e hi) := by
  unfold targetOf
  rw [if_neg (by simp [windowOffset]; omega), if_pos (by unfold halfAddr loAddr hiAddr; split <;> omega)]
  cases hi
  · simp [halfAddr, loAddr]
  · simp [halfAddr, hiAddr]
    omega

/-- Only entries of data memory are reached (R31). -/
theorem targetOf_half_lt {p : Params} {off e : Nat} {hi : Bool} (h : targetOf p off = some (.half e hi)) : e < p.dmemEntries := by
  unfold targetOf at h
  split at h
  · obtain ⟨_, -, h'⟩ := Option.map_eq_some_iff.1 h
    cases h'
  · split at h
    · rename_i h1 h2
      simp only [Option.some.injEq, Target.half.injEq] at h
      obtain ⟨rfl, -⟩ := h
      omega
    · cases h

/-- What a routed access says about its address (R31, R33). -/
theorem route_eq_ok {p : Params} {addr size : Nat} {t : Target} (h : route p addr size = .ok t) :
    p.base ≤ addr ∧ addr < p.base + blockSize ∧ size = 8 ∧ (addr - p.base) % 8 = 0 ∧ targetOf p (addr - p.base) = some t := by
  unfold route at h
  split at h
  · cases h
  · split at h
    · cases h
    · split at h
      · cases h
      · cases h
        refine ⟨?_, ?_, ?_, ?_, ‹_›⟩ <;> omega

/-- Inside the block's space an aligned access of 8 bytes goes where its offset leads (R31, R33). -/
theorem route_inside {p : Params} {off : Nat} (h : off < blockSize) (ha : off % 8 = 0) :
    route p (p.base + off) 8 =
      match targetOf p off with
      | none => .error (.busError (p.base + off) 8)
      | some t => .ok t := by
  unfold route
  rw [if_neg (by omega), if_neg (by simp [ha])]
  cases h' : targetOf p off <;> simp only [Nat.add_sub_cancel_left, h']

/-- A register access at the register's own address (R15, R37). -/
theorem route_reg (p : Params) (r : Reg) : route p (p.base + r.offset) 8 = .ok (.reg r) := by
  obtain ⟨-, h2, h3⟩ := reg_at_offset r
  rw [route_inside (by simp [blockSize]; omega) h2, targetOf_offset]

/-- A window access at a half's own address (R32, R37). -/
theorem route_half {p : Params} (hp : p.legal) {e : Nat} (hi : Bool) (he : e < p.dmemEntries) :
    route p (p.base + (windowOffset + halfAddr e hi)) 8 = .ok (.half e hi) := by
  have hd : p.dmemEntries ≤ 2 ^ 20 := Nat.pow_le_pow_right (by decide) hp.2.2.2.1
  rw [route_inside, targetOf_half hi he]
  · cases hi <;> simp [windowOffset, blockSize, halfAddr, loAddr, hiAddr] <;> omega
  · cases hi <;> simp [windowOffset, halfAddr, loAddr, hiAddr] <;> omega

/-- All a read can do: a register's value, 0 with HAZ while busy, or a written half (R37, R181). -/
theorem memRead_cases {s t : State} {addr size : Nat} {v : Word} (h : memRead s addr size = .ok (v, t)) :
    (∃ r : Reg, addr = s.params.base + r.offset ∧ size = 8 ∧ v = readReg s r ∧ t = s) ∨
    (∃ e, e < s.params.dmemEntries ∧ s.status.busy = true ∧ v = 0 ∧ t = s.hazard) ∨
    (∃ e hi, e < s.params.dmemEntries ∧ s.status.busy = false ∧ s.dmem.readWord (halfAddr e hi) = some v ∧ t = s) := by
  unfold memRead at h
  split at h
  · cases h
  · rename_i r hr
    obtain ⟨h1, -, h3, h4, h5⟩ := route_eq_ok hr
    cases h
    exact .inl ⟨r, by have := targetOf_eq_reg h5 h4; omega, h3, rfl, rfl⟩
  · rename_i e hi hr
    have he := targetOf_half_lt (route_eq_ok hr).2.2.2.2
    split at h
    · cases h
      exact .inr (.inl ⟨e, he, ‹_›, rfl, rfl⟩)
    · split at h
      · cases h
      · cases h
        exact .inr (.inr ⟨e, hi, he, by simpa using ‹¬s.status.busy = true›, ‹_›, rfl⟩)

/-- All a write can do: a register write, a dropped write with HAZ while busy, or one half of an entry (R37, R181). -/
theorem memWrite_cases {s t : State} {addr size : Nat} {v : Word} (h : memWrite s addr size v = .ok t) :
    (∃ r : Reg, addr = s.params.base + r.offset ∧ size = 8 ∧ t = writeReg s r v) ∨
    (∃ e, e < s.params.dmemEntries ∧ s.status.busy = true ∧ t = s.hazard) ∨
    (∃ e hi, e < s.params.dmemEntries ∧ s.status.busy = false ∧ t = { s with dmem := s.dmem.writeWord (halfAddr e hi) v }) := by
  unfold memWrite at h
  split at h
  · cases h
  · rename_i r hr
    obtain ⟨h1, -, h3, h4, h5⟩ := route_eq_ok hr
    cases h
    exact .inl ⟨r, by have := targetOf_eq_reg h5 h4; omega, h3, rfl⟩
  · rename_i e hi hr
    have he := targetOf_half_lt (route_eq_ok hr).2.2.2.2
    split at h
    · cases h
      exact .inr (.inl ⟨e, he, ‹_›, rfl⟩)
    · cases h
      exact .inr (.inr ⟨e, hi, he, by simpa using ‹¬s.status.busy = true›, rfl⟩)

/-- All a register write can do, beside an accepted command: one register, cleared flags, HAZ, or nothing (R18 to R24, R180). -/
theorem writeReg_cases (s : State) (r : Reg) (v : Word) :
    writeReg s r v = s ∨
    (r = .status ∧ writeReg s r v = { s with status := s.status.clearedBy v }) ∨
    (r = .cmd ∧ s.status.busy = true ∧ writeReg s r v = s.hazard) ∨
    (r = .cmd ∧ s.status.busy = false ∧ writeReg s r v = s.accept v) ∨
    (∃ g : Regs, g.cmd = s.regs.cmd ∧ writeReg s r v = { s with regs := g }) := by
  cases r
  case cmd =>
    cases h : s.status.busy
    · exact .inr (.inr (.inr (.inl ⟨rfl, rfl, by simp [writeReg, h]⟩)))
    · exact .inr (.inr (.inl ⟨rfl, rfl, by simp [writeReg, h]⟩))
  case status => exact .inr (.inl ⟨rfl, rfl⟩)
  case id => exact .inl rfl
  case cfg => exact .inl rfl
  case erridx => exact .inl rfl
  case irqen => exact .inr (.inr (.inr (.inr ⟨(writeReg s .irqen v).regs, rfl, rfl⟩)))
  case len => exact .inr (.inr (.inr (.inr ⟨(writeReg s .len v).regs, rfl, rfl⟩)))
  case srca => exact .inr (.inr (.inr (.inr ⟨(writeReg s .srca v).regs, rfl, rfl⟩)))
  case srcb => exact .inr (.inr (.inr (.inr ⟨(writeReg s .srcb v).regs, rfl, rfl⟩)))
  case dst => exact .inr (.inr (.inr (.inr ⟨(writeReg s .dst v).regs, rfl, rfl⟩)))
  case scalar => exact .inr (.inr (.inr (.inr ⟨(writeReg s .scalar v).regs, rfl, rfl⟩)))

/-- All a host turn can do to the block: nothing, HAZ while busy, a register write of the statement it is at, or one half of an entry. -/
theorem hostStep_cases {s t : State} (h : hostStep s = .next t) :
    ∃ (u : State) (g : HostAgent), t = { u with host := g } ∧
      (u = s ∨ (s.status.busy = true ∧ u = s.hazard) ∨
        (∃ (r : Reg) (v : Word), s.host.program[s.host.pc]? = some (.write (s.params.base + r.offset) 8 v) ∧ u = writeReg s r v) ∨
        (∃ e hi v, e < s.params.dmemEntries ∧ s.status.busy = false ∧ u = { s with dmem := s.dmem.writeWord (halfAddr e hi) v })) := by
  unfold hostStep at h
  split at h
  · cases h
    exact ⟨s, s.host, rfl, .inl rfl⟩
  · rename_i op hop
    cases op with
    | read addr size var =>
      simp only [hostOp] at h
      split at h
      · cases h
      · rename_i v s' hr
        cases h
        refine ⟨s', _, rfl, ?_⟩
        obtain ⟨_, -, -, -, rfl⟩ | ⟨_, -, hb, -, rfl⟩ | ⟨_, _, -, -, -, rfl⟩ := memRead_cases hr
        · exact .inl rfl
        · exact .inr (.inl ⟨hb, rfl⟩)
        · exact .inl rfl
    | write addr size v =>
      simp only [hostOp] at h
      split at h
      · cases h
      · rename_i s' hw
        cases h
        refine ⟨s', _, rfl, ?_⟩
        obtain ⟨r, rfl, rfl, rfl⟩ | ⟨_, -, hb, rfl⟩ | ⟨e, hi, he, hb, rfl⟩ := memWrite_cases hw
        · exact .inr (.inr (.inl ⟨r, v, hop, rfl⟩))
        · exact .inr (.inl ⟨hb, rfl⟩)
        · exact .inr (.inr (.inr ⟨e, hi, v, he, hb, rfl⟩))
    | bit var k target =>
      simp only [hostOp] at h
      split at h
      · cases h
      · split at h <;> cases h <;> exact ⟨s, _, rfl, .inl rfl⟩
    | jmp target =>
      cases h
      exact ⟨s, _, rfl, .inl rfl⟩
    | expect var hi lo imm =>
      simp only [hostOp] at h
      split at h
      · cases h
      · split at h
        · cases h
          exact ⟨s, _, rfl, .inl rfl⟩
        · cases h

/-- All an engine turn can do: nothing while idle, or one command's `Complete` (R26, R54). -/
theorem engineStep_cases {s t : State} (h : engineStep s = .next t) :
    (s.status.busy = false ∧ t = s) ∨
    (s.status.busy = true ∧ ∃ i, decode s.latch.cmd = .ok i ∧ exec i s = .next t) ∨
    (s.status.busy = true ∧ (∃ e, decode s.latch.cmd = .error e) ∧ t = s.complete .illegalCommand 0) := by
  unfold engineStep at h
  split at h
  · split at h
    · exact .inr (.inl ⟨‹_›, _, ‹_›, h⟩)
    · cases h
      exact .inr (.inr ⟨‹_›, ⟨_, ‹_›⟩, rfl⟩)
  · cases h
    exact .inl ⟨by simpa using ‹¬s.status.busy = true›, rfl⟩

/-- A step is one turn, prescribed or free (R41, R177). -/
theorem step_cases {s t : State} (h : step s = .next t) :
    ∃ (turn : Turn) (rest : List Turn), takeTurn { s with schedule := rest } turn = .next t ∧
      (s.schedule = turn :: rest ∨ (s.schedule = [] ∧ rest = [] ∧ turn = freeTurn s)) := by
  unfold step at h
  split at h
  · rename_i hs
    refine ⟨freeTurn s, [], ?_, .inr ⟨hs, rfl, rfl⟩⟩
    rw [← hs]
    exact h
  · exact ⟨_, _, h, .inl ‹_›⟩

end Sys2Proof.Machine
end

