-- ==== Sys2Proof/Laws/Memory.lean ====
section
/-! SUPPORT. Data memory: read after write, the canonical form, halves and entries; once each. -/

namespace Sys2Proof

theorem field_lt (v : Word) (lo len : Nat) : field v lo len < 2 ^ len := Nat.mod_lt _ (Nat.two_pow_pos len)

theorem bytesOfWord_length (w : Word) : (bytesOfWord w).length = 8 := rfl

theorem wordOfBytes_bytesOfWord (w : Word) : wordOfBytes (bytesOfWord w) = w := by
  have hw := w.isLt
  apply BitVec.eq_of_toNat_eq
  simp only [wordOfBytes, bytesOfWord, natOfBytes, BitVec.toNat_ofNat]
  omega

end Sys2Proof

namespace Sys2Proof.Machine

@[simp] theorem read_nil (a : Nat) : Memory.read [] a = none := rfl

theorem read_cons (c : Host.Cell) (m : Memory) (a : Nat) :
    Memory.read (c :: m) a = if a = c.1 then some c.2 else Memory.read m a := rfl

theorem write_cons (c : Host.Cell) (m : Memory) (a : Nat) (b : Byte) :
    Memory.write (c :: m) a b =
      if a < c.1 then (a, b) :: c :: m else if a = c.1 then (a, b) :: m else c :: Memory.write m a b := rfl

/-- One byte read after a write of one byte, at any address. -/
theorem read_write (m : Memory) (a x : Nat) (b : Byte) :
    (m.write a b).read x = if x = a then some b else m.read x := by
  induction m with
  | nil => rfl
  | cons c m ih =>
    rw [write_cons]
    split
    · rfl
    · split
      · next h =>
        rw [read_cons, read_cons, ← h]
        split <;> rfl
      · next h =>
        rw [read_cons, read_cons, ih]
        by_cases hx : x = c.1
        · rw [if_pos hx, if_pos hx, if_neg (by omega)]
        · rw [if_neg hx, if_neg hx]

@[simp] theorem read_write_same (m : Memory) (a : Nat) (b : Byte) : (m.write a b).read a = some b := by
  rw [read_write, if_pos rfl]

theorem read_write_other (m : Memory) {a x : Nat} (b : Byte) (h : x ≠ a) : (m.write a b).read x = m.read x := by
  rw [read_write, if_neg h]

/-- A cell of a written memory is an old cell or the written one. -/
theorem mem_write {m : Memory} {a : Nat} {b : Byte} {c : Host.Cell} (h : c ∈ m.write a b) : c = (a, b) ∨ c ∈ m := by
  induction m with
  | nil => simpa [Memory.write] using h
  | cons d m ih =>
    rw [write_cons] at h
    split at h
    · simpa using h
    · split at h
      · rcases List.mem_cons.1 h with h | h
        · exact .inl h
        · exact .inr (List.mem_cons_of_mem _ h)
      · rcases List.mem_cons.1 h with h | h
        · exact .inr (h ▸ List.mem_cons_self)
        · exact (ih h).imp_right (List.mem_cons_of_mem _)

/-- A write keeps the canonical form. -/
theorem write_wf {m : Memory} (h : m.wf) (a : Nat) (b : Byte) : (m.write a b).wf := by
  induction m with
  | nil => exact List.pairwise_singleton _ _
  | cons c m ih =>
    obtain ⟨hc, hm⟩ := List.pairwise_cons.1 h
    rw [write_cons]
    split
    · next ha =>
      refine List.pairwise_cons.2 ⟨?_, h⟩
      intro d hd
      rcases List.mem_cons.1 hd with rfl | hd
      · exact ha
      · exact Nat.lt_trans ha (hc d hd)
    · split
      · next ha =>
        refine List.pairwise_cons.2 ⟨?_, hm⟩
        intro d hd
        rw [ha]
        exact hc d hd
      · next h1 h2 =>
        refine List.pairwise_cons.2 ⟨?_, ih hm⟩
        intro d hd
        rcases mem_write hd with rfl | hd
        · exact Nat.lt_of_le_of_ne (Nat.le_of_not_lt h1) (Ne.symm h2)
        · exact hc d hd

/-- In canonical form the bytes read determine the memory. -/
theorem memory_ext {m m' : Memory} (h : m.wf) (h' : m'.wf) (hr : ∀ a, m.read a = m'.read a) : m = m' := by
  have low : ∀ (c : Host.Cell) (n : Memory), Memory.wf (c :: n) → ∀ x, x ≤ c.1 → n.read x = none := by
    intro c n hn x hx
    have hlt := (List.pairwise_cons.1 hn).1
    induction n with
    | nil => rfl
    | cons d n ih =>
      have hd := hlt d List.mem_cons_self
      rw [read_cons, if_neg (by omega)]
      refine ih ?_ (fun e he => hlt e (List.mem_cons_of_mem _ he))
      exact List.Pairwise.sublist (List.Sublist.cons_cons c (List.sublist_cons_self d n)) hn
  induction m generalizing m' with
  | nil =>
    cases m' with
    | nil => rfl
    | cons c n => have := hr c.1; rw [read_cons, if_pos rfl] at this; cases this
  | cons c n ih =>
    cases m' with
    | nil => have := hr c.1; rw [read_cons, if_pos rfl] at this; cases this
    | cons d k =>
      have e1 := hr c.1
      have e2 := hr d.1
      rw [read_cons, read_cons, if_pos rfl] at e1
      rw [read_cons, read_cons, if_pos rfl] at e2
      have hcd : c.1 = d.1 := by
        by_contra hne
        rw [if_neg hne] at e1
        rw [if_neg (Ne.symm hne)] at e2
        rcases Nat.lt_or_gt_of_ne hne with hl | hl
        · rw [low d k h' c.1 (Nat.le_of_lt hl)] at e1; cases e1
        · rw [low c n h d.1 (Nat.le_of_lt hl)] at e2; cases e2
      rw [if_pos hcd] at e1
      have hc : c = d := Prod.ext hcd (by simpa using e1)
      subst hc
      congr 1
      refine ih (List.pairwise_cons.1 h).2 (List.pairwise_cons.1 h').2 ?_
      intro a
      have e3 := hr a
      rw [read_cons, read_cons] at e3
      by_cases ha : a = c.1
      · rw [ha, low c n h c.1 (Nat.le_refl _), low c k h' c.1 (Nat.le_refl _)]
      · simpa [ha] using e3

/-! ### Runs of bytes -/

/-- One byte read after a write of a run of bytes. -/
theorem read_writeBytes (bs : List Byte) : ∀ (m : Memory) (a x : Nat),
    (m.writeBytes a bs).read x = if a ≤ x ∧ x < a + bs.length then bs[x - a]? else m.read x := by
  induction bs with
  | nil =>
    intro m a x
    rw [if_neg (by simp only [List.length_nil]; omega)]
    rfl
  | cons b bs ih =>
    intro m a x
    show ((m.write a b).writeBytes (a + 1) bs).read x = _
    rw [ih, List.length_cons]
    by_cases h : a + 1 ≤ x ∧ x < a + 1 + bs.length
    · rw [if_pos h, if_pos (by omega)]
      obtain ⟨k, rfl⟩ := Nat.exists_eq_add_of_le h.1
      rw [Nat.add_sub_cancel_left, Nat.add_assoc a 1 k, Nat.add_sub_cancel_left, Nat.add_comm 1 k]
      rfl
    · rw [if_neg h, read_write]
      by_cases hx : x = a
      · subst hx
        rw [if_pos rfl, if_pos (by omega)]
        simp
      · rw [if_neg hx, if_neg (by omega)]

theorem writeBytes_wf (bs : List Byte) : ∀ {m : Memory} (a : Nat), m.wf → (m.writeBytes a bs).wf := by
  induction bs with
  | nil => intro m a h; exact h
  | cons b bs ih => intro m a h; exact ih (a + 1) (write_wf h a b)

/-- A run of bytes is readable exactly when each of its bytes is. -/
theorem readBytes_eq_some (m : Memory) : ∀ (n a : Nat) (bs : List Byte),
    m.readBytes a n = some bs ↔ bs.length = n ∧ ∀ k, k < n → m.read (a + k) = bs[k]? := by
  intro n
  induction n with
  | zero =>
    intro a bs
    simp only [Memory.readBytes, Option.some.injEq, Nat.not_lt_zero, false_implies, implies_true, and_true]
    exact ⟨fun h => h ▸ rfl, fun h => (List.length_eq_zero_iff.1 h).symm⟩
  | succ n ih =>
    intro a bs
    constructor
    · intro h
      simp only [Memory.readBytes] at h
      split at h
      · next b bs' hb hbs =>
        cases h
        obtain ⟨hl, hk⟩ := (ih (a + 1) bs').1 hbs
        refine ⟨by rw [List.length_cons, hl], ?_⟩
        intro k hkn
        cases k with
        | zero => simpa using hb
        | succ k =>
          have := hk k (by omega)
          rw [Nat.add_assoc, Nat.add_comm 1 k] at this
          simpa using this
      · cases h
    · rintro ⟨hl, hk⟩
      cases bs with
      | nil => cases hl
      | cons b bs =>
        have h0 : m.read a = some b := by simpa using hk 0 (Nat.succ_pos n)
        have h1 : m.readBytes (a + 1) n = some bs := by
          refine (ih (a + 1) bs).2 ⟨by simpa using hl, ?_⟩
          intro k hkn
          have := hk (k + 1) (by omega)
          rw [Nat.add_assoc, Nat.add_comm 1 k]
          simpa using this
        simp only [Memory.readBytes, h0, h1]

/-- Reading a run depends only on its bytes. -/
theorem readBytes_congr {m m' : Memory} : ∀ (n a : Nat), (∀ k, k < n → m.read (a + k) = m'.read (a + k)) →
    m.readBytes a n = m'.readBytes a n := by
  intro n
  induction n with
  | zero => intro a _; rfl
  | succ n ih =>
    intro a h
    have h0 : m.read a = m'.read a := h 0 (Nat.succ_pos n)
    have h1 : m.readBytes (a + 1) n = m'.readBytes (a + 1) n := by
      refine ih (a + 1) (fun k hk => ?_)
      have := h (k + 1) (by omega)
      rw [Nat.add_assoc, Nat.add_comm 1 k]
      exact this
    simp only [Memory.readBytes, h0, h1]

/-! ### Halves -/

/-- One byte read after a write of one half. -/
theorem read_writeWord (m : Memory) (a x : Nat) (w : Word) :
    (m.writeWord a w).read x = if a ≤ x ∧ x < a + 8 then (bytesOfWord w)[x - a]? else m.read x :=
  read_writeBytes (bytesOfWord w) m a x

theorem read_writeWord_other (m : Memory) {a x : Nat} (w : Word) (h : x < a ∨ a + 8 ≤ x) :
    (m.writeWord a w).read x = m.read x := by
  rw [read_writeWord, if_neg (by omega)]

theorem writeWord_wf {m : Memory} (h : m.wf) (a : Nat) (w : Word) : (m.writeWord a w).wf := writeBytes_wf _ a h

@[simp] theorem readWord_writeWord_same (m : Memory) (a : Nat) (w : Word) : (m.writeWord a w).readWord a = some w := by
  have h : (m.writeWord a w).readBytes a 8 = some (bytesOfWord w) := by
    refine (readBytes_eq_some _ 8 a _).2 ⟨rfl, fun k hk => ?_⟩
    rw [read_writeWord, if_pos (by omega), Nat.add_sub_cancel_left]
  rw [Memory.readWord, h, Option.map_some, wordOfBytes_bytesOfWord]

/-- Reading a half depends only on its eight bytes. -/
theorem readWord_congr {m m' : Memory} {a : Nat} (h : ∀ k, k < 8 → m.read (a + k) = m'.read (a + k)) :
    m.readWord a = m'.readWord a := by
  rw [Memory.readWord, Memory.readWord, readBytes_congr 8 a h]

theorem readWord_writeWord_other (m : Memory) {a x : Nat} (w : Word) (h : x + 8 ≤ a ∨ a + 8 ≤ x) :
    (m.writeWord a w).readWord x = m.readWord x :=
  readWord_congr (fun k hk => read_writeWord_other m w (by omega))

/-! ### Entries -/

/-- One byte outside an entry reads as before the entry was written. -/
theorem read_writeEntry_other (m : Memory) {e x : Nat} (c : Cplx) (h : x < 16 * e ∨ 16 * e + 16 ≤ x) :
    (m.writeEntry e c).read x = m.read x := by
  rw [Memory.writeEntry, read_writeWord_other _ _ (by unfold hiAddr; omega), read_writeWord_other _ _ (by unfold loAddr; omega)]

theorem writeEntry_wf {m : Memory} (h : m.wf) (e : Nat) (c : Cplx) : (m.writeEntry e c).wf :=
  writeWord_wf (writeWord_wf h _ _) _ _

theorem readEntry_eq_some {m : Memory} {e : Nat} {c : Cplx} :
    m.readEntry e = some c ↔ m.readWord (loAddr e) = some c.re ∧ m.readWord (hiAddr e) = some c.im := by
  unfold Memory.readEntry
  constructor
  · intro h
    split at h
    · next lo hi hlo hhi => cases h; exact ⟨hlo, hhi⟩
    · cases h
  · rintro ⟨h1, h2⟩
    rw [h1, h2]

@[simp] theorem readEntry_writeEntry_same (m : Memory) (e : Nat) (c : Cplx) : (m.writeEntry e c).readEntry e = some c := by
  rw [readEntry_eq_some, Memory.writeEntry]
  refine ⟨?_, readWord_writeWord_same _ _ _⟩
  rw [readWord_writeWord_other _ _ (by unfold loAddr hiAddr; omega), readWord_writeWord_same]

/-- Reading an entry depends only on its sixteen bytes. -/
theorem readEntry_congr {m m' : Memory} {e : Nat} (h : ∀ x, 16 * e ≤ x → x < 16 * e + 16 → m.read x = m'.read x) :
    m.readEntry e = m'.readEntry e := by
  unfold Memory.readEntry
  rw [readWord_congr (m := m) (m' := m') (a := loAddr e) (fun k hk => h _ (by unfold loAddr; omega) (by unfold loAddr; omega)),
    readWord_congr (m := m) (m' := m') (a := hiAddr e) (fun k hk => h _ (by unfold hiAddr; omega) (by unfold hiAddr; omega))]

/-- One byte outside the written entries reads as before. -/
theorem read_writeEntries_other (ys : List Cplx) : ∀ (m : Memory) {d x : Nat}, (x < 16 * d ∨ 16 * (d + ys.length) ≤ x) →
    (writeEntries m d ys).read x = m.read x := by
  induction ys with
  | nil => intro m d x _; rfl
  | cons y ys ih =>
    intro m d x h
    rw [List.length_cons] at h
    show (writeEntries (m.writeEntry d y) (d + 1) ys).read x = _
    rw [ih _ (by omega), read_writeEntry_other _ _ (by omega)]

theorem writeEntries_wf (ys : List Cplx) : ∀ {m : Memory} (d : Nat), m.wf → (writeEntries m d ys).wf := by
  induction ys with
  | nil => intro m d h; exact h
  | cons y ys ih => intro m d h; exact ih (d + 1) (writeEntry_wf h d y)

/-- What `writeEntries` does, once: the entries hold the list, every other byte is kept. -/
theorem writeEntries_spec (ys : List Cplx) : ∀ (m : Memory) (d : Nat), WrittenFrom m (writeEntries m d ys) d ys := by
  induction ys with
  | nil => intro m d; exact ⟨fun k h => absurd h (Nat.not_lt_zero k), fun _ _ => rfl⟩
  | cons y ys ih =>
    intro m d
    refine ⟨?_, fun a ha => read_writeEntries_other (y :: ys) m ha⟩
    intro k hk
    cases k with
    | zero =>
      show (writeEntries (m.writeEntry d y) (d + 1) ys).readEntry d = some y
      rw [← readEntry_writeEntry_same m d y]
      exact readEntry_congr (fun x h1 h2 => read_writeEntries_other ys _ (by omega))
    | succ k =>
      have := (ih (m.writeEntry d y) (d + 1)).1 k (by simpa using hk)
      rw [Nat.add_assoc, Nat.add_comm 1 k] at this
      exact this

end Sys2Proof.Machine
end

