-- ==== Sys2Proof/Laws/Exec.lean ====
section
/-! SUPPORT. Lanes, the checks, and what a completion can do: one lemma each, cited instead of unfolding. -/

namespace Sys2Proof.Machine

/-! ### Lanes -/

/-- All lanes succeed: the results in lane order. -/
theorem lanes_eq_ok {α : Type} (f : Nat → Except Stop α) : ∀ (n i : Nat) (xs : List α),
    lanes f n i = .ok xs ↔ xs.length = n ∧ ∀ k (h : k < xs.length), f (i + k) = .ok xs[k] := by
  intro n
  induction n with
  | zero =>
    intro i xs
    constructor
    · intro h
      cases h
      exact ⟨rfl, fun k hk => absurd hk (Nat.not_lt_zero k)⟩
    · rintro ⟨h, -⟩
      rw [List.length_eq_zero_iff.1 h]
      rfl
  | succ n ih =>
    intro i xs
    constructor
    · intro h
      simp only [lanes] at h
      split at h
      · cases h
      · next x hx =>
        split at h
        · cases h
        · next ys hys =>
          cases h
          obtain ⟨hl, hk⟩ := (ih (i + 1) ys).1 hys
          refine ⟨by rw [List.length_cons, hl], ?_⟩
          intro k hkl
          cases k with
          | zero => exact hx
          | succ k =>
            have := hk k (by simpa using hkl)
            rw [Nat.add_assoc, Nat.add_comm 1 k] at this
            exact this
    · rintro ⟨hl, hk⟩
      cases xs with
      | nil => cases hl
      | cons x ys =>
        have h0 : f i = .ok x := hk 0 (Nat.succ_pos _)
        have h1 : lanes f n (i + 1) = .ok ys := by
          refine (ih (i + 1) ys).2 ⟨by simpa using hl, ?_⟩
          intro k hkl
          have := hk (k + 1) (by simpa using hkl)
          rw [Nat.add_assoc, Nat.add_comm 1 k]
          exact this
        simp only [lanes, h0, h1]

/-- A lane stops: it is the first that does, and all before it succeed. -/
theorem lanes_eq_error {α : Type} (f : Nat → Except Stop α) : ∀ (n i : Nat) (e : Stop),
    lanes f n i = .error e ↔ ∃ k, k < n ∧ f (i + k) = .error e ∧ ∀ j, j < k → ∃ x, f (i + j) = .ok x := by
  intro n
  induction n with
  | zero =>
    intro i e
    constructor
    · intro h; cases h
    · rintro ⟨k, hk, -⟩; exact absurd hk (Nat.not_lt_zero k)
  | succ n ih =>
    intro i e
    constructor
    · intro h
      simp only [lanes] at h
      split at h
      · next e' he => cases h; exact ⟨0, Nat.succ_pos n, he, fun j hj => absurd hj (Nat.not_lt_zero j)⟩
      · next x hx =>
        split at h
        · next e' he =>
          cases h
          obtain ⟨k, hk, hf, hb⟩ := (ih (i + 1) e).1 he
          refine ⟨k + 1, by omega, by rw [← hf, Nat.add_assoc, Nat.add_comm 1 k], ?_⟩
          intro j hj
          cases j with
          | zero => exact ⟨x, hx⟩
          | succ j =>
            obtain ⟨y, hy⟩ := hb j (by omega)
            exact ⟨y, by rw [← hy, Nat.add_assoc, Nat.add_comm 1 j]⟩
        · cases h
    · rintro ⟨k, hk, hf, hb⟩
      cases k with
      | zero =>
        have hf : f i = .error e := hf
        simp only [lanes, hf]
      | succ k =>
        obtain ⟨x, hx⟩ := hb 0 (Nat.succ_pos k)
        have hx : f i = .ok x := hx
        have h1 : lanes f n (i + 1) = .error e := by
          refine (ih (i + 1) e).2 ⟨k, by omega, by rw [← hf, Nat.add_assoc, Nat.add_comm 1 k], ?_⟩
          intro j hj
          obtain ⟨y, hy⟩ := hb (j + 1) (by omega)
          exact ⟨y, by rw [← hy, Nat.add_assoc, Nat.add_comm 1 j]⟩
        simp only [lanes, hx, h1]

theorem lanes_congr {α : Type} {f g : Nat → Except Stop α} (h : ∀ i, f i = g i) (n i : Nat) : lanes f n i = lanes g n i := by
  rw [funext h]

/-! ### Reads of the engine -/

theorem dRead_eq_ok {m : Memory} {e : Nat} {c : Cplx} : dRead m e = .ok c ↔ m.readEntry e = some c := by
  unfold dRead
  split
  · next c' h => rw [h]; exact ⟨fun h => by cases h; rfl, fun h => by cases h; rfl⟩
  · next h => rw [h]; exact ⟨fun h => (by cases h), fun h => (by cases h)⟩

theorem dRead_eq_error {m : Memory} {e : Nat} {st : Stop} : dRead m e = .error st ↔ m.readEntry e = none ∧ st = .uninit e := by
  unfold dRead
  split
  · next c' h => rw [h]; exact ⟨fun h => (by cases h), fun h => (by cases h.1)⟩
  · next h => rw [h]; exact ⟨fun h => by cases h; exact ⟨rfl, rfl⟩, fun h => by rw [h.2]⟩

theorem dReadLo_eq_ok {m : Memory} {e : Nat} {w : Word} : dReadLo m e = .ok w ↔ m.readWord (loAddr e) = some w := by
  unfold dReadLo
  split
  · next c' h => rw [h]; exact ⟨fun h => by cases h; rfl, fun h => by cases h; rfl⟩
  · next h => rw [h]; exact ⟨fun h => (by cases h), fun h => (by cases h)⟩

theorem dReadLo_eq_error {m : Memory} {e : Nat} {st : Stop} :
    dReadLo m e = .error st ↔ m.readWord (loAddr e) = none ∧ st = .uninit e := by
  unfold dReadLo
  split
  · next c' h => rw [h]; exact ⟨fun h => (by cases h), fun h => (by cases h.1)⟩
  · next h => rw [h]; exact ⟨fun h => by cases h; exact ⟨rfl, rfl⟩, fun h => by rw [h.2]⟩

/-- The snapshot of a transform is read exactly when every source entry is written. -/
theorem lanes_dRead_eq_ok {m : Memory} {a n : Nat} {xs : List Cplx} :
    lanes (fun i => dRead m (a + i)) n 0 = .ok xs ↔ xs.length = n ∧ HoldsFrom m a xs := by
  rw [lanes_eq_ok]
  simp only [Nat.zero_add, dRead_eq_ok]
  rfl

/-! ### The checks -/

theorem pow2_iff {n : Nat} : pow2 n = true ↔ ∃ L, n = 2 ^ L := by
  unfold pow2
  rw [decide_eq_true_iff]
  constructor
  · rintro ⟨-, h⟩; exact ⟨n.log2, h.symm⟩
  · rintro ⟨L, rfl⟩; exact ⟨Nat.one_le_two_pow, by rw [Nat.log2_two_pow]⟩

/-- `CheckTransform` passes exactly when every condition of R90 fails to raise. -/
theorem checkTransform_eq_none {p : Params} {n : Nat} {stage src : Option Nat} {d count : Nat} :
    checkTransform p n stage src d count = none ↔
      pow2 n = true ∧ (∀ s, stage = some s → 1 ≤ s ∧ s ≤ n.log2) ∧ n ≤ p.nmax ∧
        (∀ a, src = some a → a + n ≤ p.dmemEntries) ∧ d + count ≤ p.dmemEntries := by
  unfold checkTransform inRange
  cases stage <;> cases src <;> simp <;> grind

/-- No check reports the code NONE. -/
theorem checkTransform_ne_none {p : Params} {n : Nat} {stage src : Option Nat} {d count : Nat} {c : ErrorCode}
    (h : checkTransform p n stage src d count = some c) : c ≠ .none ∧ c ≠ .overflow := by
  unfold checkTransform at h
  repeat' split at h
  all_goals first | (cases h; exact ⟨by decide, by decide⟩) | cases h

/-- `CheckVector` passes exactly for no element, or ranges inside data memory and no partial overlap (R110). -/
theorem checkVector_eq_none {p : Params} {n : Nat} {srcs : List Nat} {d : Nat} :
    checkVector p n srcs d = none ↔
      n = 0 ∨ ((∀ q ∈ srcs ++ [d], q + n ≤ p.dmemEntries) ∧ ∀ q ∈ srcs, q = d ∨ q + n ≤ d ∨ d + n ≤ q) := by
  unfold checkVector inRange partlyOverlaps
  by_cases hn : n = 0
  · simp [hn]
  · simp only [hn, if_false, false_or]
    split
    · next h =>
      simp only [List.any_eq_true, Bool.not_eq_true', decide_eq_false_iff_not] at h
      obtain ⟨q, hq, hr⟩ := h
      exact ⟨fun h => (by cases h), fun h => absurd (h.1 q hq) hr⟩
    · next h =>
      simp only [List.any_eq_true, Bool.not_eq_true', decide_eq_false_iff_not, not_exists, not_and, not_not] at h
      split
      · next h2 =>
        simp only [List.any_eq_true, decide_eq_true_eq] at h2
        obtain ⟨q, hq, h3⟩ := h2
        refine ⟨fun h => (by cases h), fun h4 => ?_⟩
        have := h4.2 q hq
        omega
      · next h2 =>
        simp only [List.any_eq_true, decide_eq_true_eq, not_exists, not_and] at h2
        refine ⟨fun _ => ⟨h, fun q hq => ?_⟩, fun _ => rfl⟩
        have := h2 q hq
        omega

theorem checkVector_ne_none {p : Params} {n : Nat} {srcs : List Nat} {d : Nat} {c : ErrorCode}
    (h : checkVector p n srcs d = some c) : c ≠ .none ∧ c ≠ .overflow := by
  unfold checkVector at h
  repeat' split at h
  all_goals first | (cases h; exact ⟨by decide, by decide⟩) | cases h

/-- `VectorAdmits` is what `checkVector` tests. -/
theorem vectorAdmits_iff {s : State} {srcs : List Nat} :
    VectorAdmits s srcs ↔ checkVector s.params s.latch.n srcs s.latch.d = none := by
  rw [checkVector_eq_none]
  rfl

/-! ### Completion -/

/-- Every command ends in `finish` (R26). -/
theorem exec_eq_finish (i : Instr) (s : State) : ∃ r, exec i s = s.finish r := by
  cases i
  all_goals
    simp only [exec, execNop, execFft, execIfft, execBitrev, execStage, execTwid, execVadd, execVsub, execVmul, execVsqr,
      execVdiv, execVdivs, execVcvt, execVround]
    exact ⟨_, rfl⟩

/-- What `finish` can answer: a completion with NONE and a new memory, a completion with an error and the old memory, or the fault. -/
theorem finish_cases (s : State) (r : Except Stop Memory) :
    (∃ m, r = .ok m ∧ s.finish r = .next ({ s with dmem := m }.complete .none 0)) ∨
    (∃ c k, r = .error (.raised c k) ∧ s.finish r = .next (s.complete c k)) ∨
    (∃ e, r = .error (.uninit e) ∧ s.finish r = .fault (.uninitRead e)) := by
  cases r with
  | ok m => exact .inl ⟨m, rfl, rfl⟩
  | error e =>
    cases e with
    | raised c k => exact .inr (.inl ⟨c, k, rfl, rfl⟩)
    | uninit e => exact .inr (.inr ⟨e, rfl, rfl⟩)

/-- A completion with NONE in the terms of the claims. -/
theorem finish_ok (s : State) (m : Memory) :
    ∃ t, s.finish (.ok m) = .next t ∧ CompletedOk s t ∧ t.dmem = m :=
  ⟨_, rfl, ⟨rfl, rfl, rfl, rfl, rfl, rfl, rfl⟩, rfl⟩

/-- A completion with an error in the terms of the claims. -/
theorem finish_raised (s : State) {c : ErrorCode} (h : c ≠ .none) (k : Nat) :
    s.finish (.error (.raised c k)) = .next (failedWith s c k) := by
  simp [State.finish, State.complete, Status.completed, failedWith, h]

/-- The elementwise form, when every lane succeeds. -/
theorem elementwise_ok {s : State} {srcs : List Nat} {lane : Nat → Except Stop Cplx} {zs : List Cplx}
    (hc : VectorAdmits s srcs) (hl : zs.length = s.latch.n) (hz : ∀ k (h : k < zs.length), lane k = .ok zs[k]) :
    elementwise s srcs lane = .ok (writeEntries s.dmem s.latch.d zs) := by
  have h : lanes lane s.latch.n 0 = .ok zs := (lanes_eq_ok lane _ 0 zs).2 ⟨hl, by simpa using hz⟩
  simp only [elementwise, vectorAdmits_iff.1 hc, h]

/-- The transform form, when the checks pass and the source is written. -/
theorem transform_ok {s : State} {stage : Option Nat} {f : List Cplx → List Cplx} {xs : List Cplx}
    (hc : checkTransform s.params s.latch.n stage (some s.latch.a) s.latch.d s.latch.n = none)
    (hl : xs.length = s.latch.n) (hx : HoldsFrom s.dmem s.latch.a xs) :
    transform s stage f = .ok (writeEntries s.dmem s.latch.d (f xs)) := by
  have h := lanes_dRead_eq_ok.2 ⟨hl, hx⟩
  simp only [transform, hc, h]

end Sys2Proof.Machine
end

