-- ==== Sys2Proof/Laws/Transform.lean ====
section
/-! SUPPORT. Lengths and elements of the twiddle unit, the bit reversal and the stages. -/

namespace Sys2Proof.Machine

/-! ### Twiddles -/

@[simp] theorem runningPowers_length (w : Cplx) : ∀ (n : Nat) (p : Cplx), (runningPowers w n p).length = n := by
  intro n
  induction n with
  | zero => intro p; rfl
  | succ n ih => intro p; rw [runningPowers, List.length_cons, ih]

/-- The k-th running power is k multiplications away (R81). -/
theorem runningPowers_getElem (w : Cplx) : ∀ (n : Nat) (p : Cplx) (k : Nat) (h : k < (runningPowers w n p).length),
    (runningPowers w n p)[k] = (fun q => cmul q w)^[k] p := by
  intro n
  induction n with
  | zero => intro p k h; exact absurd h (Nat.not_lt_zero k)
  | succ n ih =>
    intro p k h
    cases k with
    | zero => rfl
    | succ k => exact ih (cmul p w) k (by simpa [runningPowers] using h)

@[simp] theorem twiddles_length (mode : TwMode) (L S : Nat) (inv : Bool) : (twiddles mode L S inv).length = 2 ^ (S - 1) := by
  cases mode <;> simp [twiddles]

/-- The list of a stage's twiddles holds the values of `TW` (R81, R82). -/
theorem twiddles_getElem (mode : TwMode) (L S : Nat) (inv : Bool) (k : Nat) (h : k < (twiddles mode L S inv).length) :
    (twiddles mode L S inv)[k] = tw mode L S k inv := by
  cases mode with
  | gen => exact runningPowers_getElem _ _ _ k h
  | level => exact runningPowers_getElem _ _ _ k h
  | direct => simp [twiddles, tw]

/-! ### Bit reversal -/

theorem rev_lt : ∀ (L i : Nat), rev L i < 2 ^ L := by
  intro L
  induction L with
  | zero => intro i; exact Nat.one_pos
  | succ L ih =>
    intro i
    have h := ih (i / 2)
    have h2 : i % 2 < 2 := Nat.mod_lt _ (by decide)
    simp only [rev, Nat.pow_succ]
    rcases Nat.lt_succ_iff_lt_or_eq.1 h2 with h3 | h3
    · have : i % 2 = 0 := by omega
      rw [this]
      omega
    · rw [h3]
      omega

@[simp] theorem bitrevP_length (L : Nat) (x : List Cplx) : (bitrevP L x).length = 2 ^ L := by simp [bitrevP]

/-- `BITREVP`, element by element (R84). -/
theorem bitrevP_getElem {L : Nat} {x : List Cplx} (hx : x.length = 2 ^ L) (i : Nat) (h : i < (bitrevP L x).length) :
    (bitrevP L x)[i] = x[rev L i]'(hx ▸ rev_lt L i) := by
  simp only [bitrevP, List.getElem_map, List.getElem_range]
  exact List.getD_eq_getElem x cone (hx ▸ rev_lt L i)

/-! ### Butterflies and stages -/

theorem bflyRow_length : ∀ (ts es os : List Cplx), (bflyRow ts es os).length = min ts.length (min es.length os.length) := by
  intro ts
  induction ts with
  | nil => intro es os; simp [bflyRow]
  | cons t ts ih =>
    intro es os
    cases es with
    | nil => simp [bflyRow]
    | cons e es =>
      cases os with
      | nil => simp [bflyRow]
      | cons o os => simp only [bflyRow, List.length_cons, ih]; omega

/-- The butterfly of one place of a block (R86). -/
theorem bflyRow_getElem : ∀ (ts es os : List Cplx) (k : Nat) (h : k < (bflyRow ts es os).length)
    (ht : k < ts.length) (he : k < es.length) (ho : k < os.length),
    (bflyRow ts es os)[k] = bfly es[k] os[k] ts[k] := by
  intro ts
  induction ts with
  | nil => intro es os k h ht; exact absurd ht (Nat.not_lt_zero k)
  | cons t ts ih =>
    intro es os k h ht he ho
    cases es with
    | nil => exact absurd he (Nat.not_lt_zero k)
    | cons e es =>
      cases os with
      | nil => exact absurd ho (Nat.not_lt_zero k)
      | cons o os =>
        cases k with
        | zero => rfl
        | succ k =>
          exact ih es os k (by simpa [bflyRow] using h) (by simpa using ht) (by simpa using he) (by simpa using ho)

theorem bflyBlock_length (ts es os : List Cplx) :
    (bflyBlock ts es os).length = 2 * min ts.length (min es.length os.length) := by
  rw [bflyBlock, List.length_append, List.length_map, List.length_map, bflyRow_length]
  omega

theorem stageBlocks_length {ts : List Cplx} {h : Nat} (ht : ts.length = h) : ∀ (nb : Nat) (x : List Cplx),
    x.length = 2 * h * nb → (stageBlocks ts h nb x).length = x.length := by
  intro nb
  induction nb with
  | zero => intro x hx; simpa [stageBlocks] using hx.symm
  | succ nb ih =>
    intro x hx
    rw [Nat.mul_succ] at hx
    rw [stageBlocks, List.length_append, bflyBlock_length, ih (x.drop (2 * h)) (by rw [List.length_drop, hx]; omega)]
    simp only [List.length_take, List.length_drop, ht, hx]
    omega

/-- The blocks of a stage cover a sequence of length 2^L. -/
theorem two_pow_blocks {L S : Nat} (h1 : 1 ≤ S) (h2 : S ≤ L) : 2 * 2 ^ (S - 1) * 2 ^ (L - S) = 2 ^ L := by
  rw [← Nat.pow_succ', ← Nat.pow_add]
  congr 1
  omega

theorem stageFn_length {mode : TwMode} {L S : Nat} {inv : Bool} {x : List Cplx} (h1 : 1 ≤ S) (h2 : S ≤ L)
    (hx : x.length = 2 ^ L) : (stageFn mode L S inv x).length = 2 ^ L := by
  rw [stageFn, stageBlocks_length (twiddles_length ..) _ x (by rw [two_pow_blocks h1 h2, hx]), hx]

theorem stagesUpTo_length {mode : TwMode} {L : Nat} {inv : Bool} : ∀ (S : Nat) {x : List Cplx}, S ≤ L → x.length = 2 ^ L →
    (stagesUpTo mode L inv S x).length = 2 ^ L := by
  intro S
  induction S with
  | zero => intro x _ hx; exact hx
  | succ S ih => intro x hS hx; exact stageFn_length (Nat.succ_pos S) hS (ih (by omega) hx)

/-- The transform keeps the length (R91). -/
@[simp] theorem fftCore_length (mode : TwMode) (L : Nat) (inv : Bool) (x : List Cplx) : (fftCore mode L inv x).length = 2 ^ L :=
  stagesUpTo_length L (Nat.le_refl L) (bitrevP_length L x)

theorem invCore_length {mode : TwMode} {L : Nat} {x : List Cplx} (hx : x.length = 2 ^ L) :
    (invCore mode L x).length = 2 ^ L := by
  unfold invCore
  split <;> simp [hx]

end Sys2Proof.Machine
end

