-- ==== Sys2Proof/Laws/Commands.lean ====
section
/-! SUPPORT. What any command can leave when it goes on, said once for all commands. -/

namespace Sys2Proof.Machine

/-- The two ways a command goes on: entries written from DST on, inside data memory unless there are none, with code NONE; or an error code, with an index
only for OVERFLOW. -/
def CommandLeaves (s t : State) : Prop :=
  (∃ ys : List Cplx, (ys = [] ∨ s.latch.d + ys.length ≤ s.params.dmemEntries) ∧
    t = ({ s with dmem := writeEntries s.dmem s.latch.d ys }).complete .none 0) ∨
  (∃ c k, c ≠ .none ∧ (k = 0 ∨ c = .overflow) ∧ t = s.complete c k)

/-- The transform form, for a function of the source that keeps its length. -/
theorem transform_leaves {s t : State} {stage : Option Nat} {f : List Cplx → List Cplx}
    (hf : ∀ (x : List Cplx) (L : Nat), s.latch.n = 2 ^ L → x.length = 2 ^ L → (∀ S, stage = some S → 1 ≤ S ∧ S ≤ L) → (f x).length = 2 ^ L)
    (h : s.finish (transform s stage f) = .next t) : CommandLeaves s t := by
  unfold transform at h
  split at h
  · next c hc =>
    cases h
    exact .inr ⟨c, 0, (checkTransform_ne_none hc).1, .inl rfl, rfl⟩
  · next hc =>
    split at h
    · next e he =>
      obtain ⟨k, -, hk, -⟩ := (lanes_eq_error _ _ _ _).1 he
      obtain ⟨-, rfl⟩ := dRead_eq_error.1 hk
      cases h
    · next x hx =>
      cases h
      obtain ⟨hp, hS, -, -, hd⟩ := checkTransform_eq_none.1 hc
      obtain ⟨L, hL⟩ := pow2_iff.1 hp
      have hl := ((lanes_eq_ok _ _ _ _).1 hx).1
      refine .inl ⟨_, .inr ?_, rfl⟩
      rw [hf x L hL (hl.trans hL) (fun S e => by simpa [hL] using hS S e), ← hL]
      exact hd

/-- The elementwise form, for lanes that stop only with the fault or with OVERFLOW. -/
theorem elementwise_leaves {s t : State} {srcs : List Nat} {lane : Nat → Except Stop Cplx}
    (hf : ∀ k e, lane k = .error e → (∃ j, e = .uninit j) ∨ ∃ j, e = .raised .overflow j)
    (h : s.finish (elementwise s srcs lane) = .next t) : CommandLeaves s t := by
  unfold elementwise at h
  split at h
  · next c hc =>
    cases h
    exact .inr ⟨c, 0, (checkVector_ne_none hc).1, .inl rfl, rfl⟩
  · next hc =>
    split at h
    · next e he =>
      obtain ⟨k, -, hk, -⟩ := (lanes_eq_error _ _ _ _).1 he
      obtain ⟨j, rfl⟩ | ⟨j, rfl⟩ := hf _ _ hk
      · cases h
      · cases h
        exact .inr ⟨.overflow, j, by decide, .inr rfl, rfl⟩
    · next zs hz =>
      cases h
      have hl := ((lanes_eq_ok _ _ _ _).1 hz).1
      refine .inl ⟨zs, ?_, rfl⟩
      obtain hn | ⟨hr, -⟩ := checkVector_eq_none.1 hc
      · exact .inl (List.length_eq_zero_iff.1 (hl.trans hn))
      · exact .inr (by rw [hl]; exact hr _ (by simp))

theorem lane1_stops {s : State} {f : Cplx → Cplx} (k : Nat) (e : Stop) (h : lane1 s f k = .error e) :
    (∃ j, e = .uninit j) ∨ ∃ j, e = .raised .overflow j := by
  unfold lane1 at h
  split at h
  · next hr =>
    cases h
    exact .inl ⟨_, (dRead_eq_error.1 hr).2⟩
  · cases h

theorem lane2_stops {s : State} {f : Cplx → Cplx → Cplx} (k : Nat) (e : Stop) (h : lane2 s f k = .error e) :
    (∃ j, e = .uninit j) ∨ ∃ j, e = .raised .overflow j := by
  unfold lane2 at h
  split at h
  · next hr =>
    cases h
    exact .inl ⟨_, (dRead_eq_error.1 hr).2⟩
  · split at h
    · next hr =>
      cases h
      exact .inl ⟨_, (dRead_eq_error.1 hr).2⟩
    · cases h

theorem laneCvt_stops {s : State} (k : Nat) (e : Stop) (h : laneCvt s k = .error e) :
    (∃ j, e = .uninit j) ∨ ∃ j, e = .raised .overflow j := by
  unfold laneCvt at h
  split at h
  · next hr =>
    cases h
    exact .inl ⟨_, (dReadLo_eq_error.1 hr).2⟩
  · cases h

theorem laneRound_stops {s : State} (k : Nat) (e : Stop) (h : laneRound s k = .error e) :
    (∃ j, e = .uninit j) ∨ ∃ j, e = .raised .overflow j := by
  unfold laneRound at h
  split at h
  · next hr =>
    cases h
    exact .inl ⟨_, (dReadLo_eq_error.1 hr).2⟩
  · split at h
    · cases h
      exact .inr ⟨_, rfl⟩
    · cases h

/-- Whatever the command, if it goes on it leaves one of the two (R26, R142). -/
theorem exec_leaves {i : Instr} {s t : State} (h : exec i s = .next t) : CommandLeaves s t := by
  cases i
  case nop =>
    cases h
    exact .inl ⟨[], .inl rfl, rfl⟩
  case fft =>
    refine transform_leaves (fun x L hn hx _ => ?_) h
    split
    · exact hx
    · simp [hn]
  case ifft => exact transform_leaves (fun x L hn hx _ => by rw [hn, Nat.log2_two_pow]; exact invCore_length hx) h
  case bitrev => exact transform_leaves (fun x L hn hx _ => by simp [hn]) h
  case stage st inv =>
    refine transform_leaves (fun x L hn hx hs => ?_) h
    obtain ⟨h1, h2⟩ := hs st rfl
    rw [hn, Nat.log2_two_pow]
    exact stageFn_length h1 h2 hx
  case twid st inv =>
    simp only [exec, execTwid] at h
    split at h
    · next c hc =>
      cases h
      exact .inr ⟨c, 0, (checkTransform_ne_none hc).1, .inl rfl, rfl⟩
    · next hc =>
      cases h
      exact .inl ⟨_, .inr (by rw [twiddles_length]; exact (checkTransform_eq_none.1 hc).2.2.2.2), rfl⟩
  case vadd => exact elementwise_leaves lane2_stops h
  case vsub => exact elementwise_leaves lane2_stops h
  case vmul => exact elementwise_leaves lane2_stops h
  case vdiv => exact elementwise_leaves lane2_stops h
  case vsqr => exact elementwise_leaves lane1_stops h
  case vdivs => exact elementwise_leaves lane1_stops h
  case vcvt => exact elementwise_leaves laneCvt_stops h
  case vround => exact elementwise_leaves laneRound_stops h

end Sys2Proof.Machine
end

