-- ==== Sys2Proof/Laws/Float.lean ====
section
/-! SUPPORT. The fields of a binary64, what negation does to them, and the shape of every rounded result. -/

namespace Sys2Proof.Machine

/-! ### Fields -/

theorem fexp_lt (v : Word) : fexp v < 2048 := Nat.mod_lt _ (by decide)

theorem ffrac_lt (v : Word) : ffrac v < 2 ^ 52 := Nat.mod_lt _ (by decide)

/-- A word is its sign, exponent and fraction (R60). -/
theorem toNat_eq_fields (v : Word) : v.toNat = flagAt (fsign v) 63 + 2 ^ 52 * fexp v + ffrac v := by
  have := v.isLt
  unfold fsign fexp ffrac flagAt
  split <;> rename_i h <;> simp only [decide_eq_true_eq] at h <;> omega

/-- Words with the same fields are the same word. -/
theorem eq_of_fields {v w : Word} (hs : fsign v = fsign w) (he : fexp v = fexp w) (hf : ffrac v = ffrac w) : v = w := by
  apply BitVec.eq_of_toNat_eq
  rw [toNat_eq_fields v, toNat_eq_fields w, hs, he, hf]

/-- The fields of a word given by its bits below the sign and its sign (R60). -/
theorem fields_of_bits (neg : Bool) {b : Nat} (hb : b < 2 ^ 63) :
    fsign (BitVec.ofNat 64 (b + flagAt neg 63)) = neg ∧ fexp (BitVec.ofNat 64 (b + flagAt neg 63)) = b / 2 ^ 52 ∧
      ffrac (BitVec.ofNat 64 (b + flagAt neg 63)) = b % 2 ^ 52 := by
  unfold fsign fexp ffrac flagAt
  cases neg <;> simp only [BitVec.toNat_ofNat, Bool.false_eq_true, if_false, if_true, decide_eq_true_eq, decide_eq_false_iff_not] <;> omega

/-! ### Zero, infinity, NaN -/

@[simp] theorem fsign_finf (neg : Bool) : fsign (finf neg) = neg := by cases neg <;> decide
@[simp] theorem isInf_finf (neg : Bool) : isInf (finf neg) = true := by cases neg <;> decide
@[simp] theorem isNaN_finf (neg : Bool) : isNaN (finf neg) = false := by cases neg <;> decide
@[simp] theorem isFinite_finf (neg : Bool) : isFinite (finf neg) = false := by cases neg <;> decide
@[simp] theorem isZero_finf (neg : Bool) : isZero (finf neg) = false := by cases neg <;> decide
@[simp] theorem fsign_fzero (neg : Bool) : fsign (fzero neg) = neg := by cases neg <;> decide
@[simp] theorem isZero_fzero (neg : Bool) : isZero (fzero neg) = true := by cases neg <;> decide
@[simp] theorem isNaN_fzero (neg : Bool) : isNaN (fzero neg) = false := by cases neg <;> decide
@[simp] theorem isInf_fzero (neg : Bool) : isInf (fzero neg) = false := by cases neg <;> decide
@[simp] theorem isFinite_fzero (neg : Bool) : isFinite (fzero neg) = true := by cases neg <;> decide
@[simp] theorem isNaN_canonNaN : isNaN canonNaN = true := by decide

/-- An infinity is the one of its sign. -/
theorem eq_finf {v : Word} (h : isInf v = true) : v = finf (fsign v) := by
  simp only [isInf, Bool.and_eq_true, beq_iff_eq] at h
  refine eq_of_fields (by simp) ?_ ?_
  · rw [h.1]; cases fsign v <;> decide
  · rw [h.2]; cases fsign v <;> decide

/-- A zero is the one of its sign. -/
theorem eq_fzero {v : Word} (h : isZero v = true) : v = fzero (fsign v) := by
  simp only [isZero, Bool.and_eq_true, beq_iff_eq] at h
  refine eq_of_fields (by simp) ?_ ?_
  · rw [h.1]; cases fsign v <;> decide
  · rw [h.2]; cases fsign v <;> decide

/-- A value is finite, infinite or NaN, and one of them only (R60). -/
theorem isFinite_eq (v : Word) : isFinite v = (!isNaN v && !isInf v) := by
  unfold isFinite isNaN isInf
  cases h1 : fexp v == 2047 <;> cases h2 : ffrac v == 0 <;> simp_all

/-- A finite value is zero exactly when it is no unit at all (R60). -/
theorem magUnits_eq_zero {v : Word} : magUnits v = 0 ↔ isZero v = true := by
  simp only [isZero, Bool.and_eq_true, beq_iff_eq, magUnits]
  split
  · next h => simp [h]
  · next h => simp [h]

/-! ### Negation (R67) -/

theorem toNat_fneg (v : Word) : (fneg v).toNat % 2 ^ 63 = v.toNat % 2 ^ 63 ∧ fsign (fneg v) = !fsign v := by
  have hm : (v.toNat ^^^ 2 ^ 63) % 2 ^ 63 = v.toNat % 2 ^ 63 := by
    rw [Nat.xor_mod_two_pow, Nat.mod_self, Nat.xor_zero]
  have hd : (v.toNat ^^^ 2 ^ 63) / 2 ^ 63 = v.toNat / 2 ^ 63 ^^^ 1 := by
    rw [Nat.xor_div_two_pow, Nat.div_self (Nat.two_pow_pos 63)]
  have hn : (fneg v).toNat = v.toNat ^^^ 2 ^ 63 := by simp [fneg]
  have hl := v.isLt
  refine ⟨by rw [hn, hm], ?_⟩
  unfold fsign
  rw [hn]
  have hc : v.toNat / 2 ^ 63 = 0 ∨ v.toNat / 2 ^ 63 = 1 := by omega
  obtain h | h := hc
  · rw [h] at hd
    rw [show (0 ^^^ 1 : Nat) = 1 from rfl] at hd
    rw [decide_eq_true (by omega), decide_eq_false (by omega)]
    rfl
  · rw [h] at hd
    rw [show (1 ^^^ 1 : Nat) = 0 from rfl] at hd
    rw [decide_eq_false (by omega), decide_eq_true (by omega)]
    rfl

@[simp] theorem fsign_fneg (v : Word) : fsign (fneg v) = !fsign v := (toNat_fneg v).2

@[simp] theorem fexp_fneg (v : Word) : fexp (fneg v) = fexp v := by
  have := (toNat_fneg v).1
  unfold fexp
  omega

@[simp] theorem ffrac_fneg (v : Word) : ffrac (fneg v) = ffrac v := by
  have := (toNat_fneg v).1
  unfold ffrac
  omega

@[simp] theorem isNaN_fneg (v : Word) : isNaN (fneg v) = isNaN v := by simp [isNaN]
@[simp] theorem isInf_fneg (v : Word) : isInf (fneg v) = isInf v := by simp [isInf]
@[simp] theorem isZero_fneg (v : Word) : isZero (fneg v) = isZero v := by simp [isZero]
@[simp] theorem isFinite_fneg (v : Word) : isFinite (fneg v) = isFinite v := by simp [isFinite]
@[simp] theorem magUnits_fneg (v : Word) : magUnits (fneg v) = magUnits v := by simp [magUnits]

@[simp] theorem units_fneg (v : Word) : units (fneg v) = -units v := by
  unfold units
  cases h : fsign v <;> simp [h]

/-! ### Rounded results (R61) -/

/-- A rounded result is the infinity of its sign, or a finite value with its sign and the computed bits. -/
theorem roundTo64_cases (neg : Bool) (p q : Nat) :
    (0x7FF0000000000000 ≤ roundBits p q ∧ roundTo64 neg p q = finf neg) ∨
    (roundBits p q < 0x7FF0000000000000 ∧ isFinite (roundTo64 neg p q) = true ∧ fsign (roundTo64 neg p q) = neg ∧
      fexp (roundTo64 neg p q) = roundBits p q / 2 ^ 52 ∧ ffrac (roundTo64 neg p q) = roundBits p q % 2 ^ 52) := by
  by_cases h : 0x7FF0000000000000 ≤ roundBits p q
  · exact .inl ⟨h, by simp [roundTo64, h]⟩
  · have hb : roundBits p q < 2 ^ 63 := by omega
    have hr : roundTo64 neg p q = BitVec.ofNat 64 (roundBits p q + flagAt neg 63) := by simp only [roundTo64, if_neg h]
    obtain ⟨h1, h2, h3⟩ := fields_of_bits neg hb
    refine .inr ⟨by omega, ?_, by rw [hr, h1], by rw [hr, h2], by rw [hr, h3]⟩
    rw [isFinite, hr, h2, bne_iff_ne]
    omega

@[simp] theorem fsign_roundTo64 (neg : Bool) (p q : Nat) : fsign (roundTo64 neg p q) = neg := by
  obtain ⟨-, h⟩ | ⟨-, -, h, -⟩ := roundTo64_cases neg p q
  · rw [h, fsign_finf]
  · exact h

@[simp] theorem isNaN_roundTo64 (neg : Bool) (p q : Nat) : isNaN (roundTo64 neg p q) = false := by
  obtain ⟨-, h⟩ | ⟨-, h, -⟩ := roundTo64_cases neg p q
  · rw [h, isNaN_finf]
  · rw [isFinite_eq, Bool.and_eq_true] at h
    simpa using h.1

/-- The nearest integer is the quotient or the next one, never farther than half a divisor (R61). -/
theorem nearestEven_near (p : Nat) {d : Nat} (hd : 0 < d) : 2 * p ≤ 2 * d * nearestEven p d + d ∧ 2 * d * nearestEven p d ≤ 2 * p + d := by
  have h := Nat.div_add_mod p d
  unfold nearestEven
  have e1 : 2 * d * (p / d) = 2 * (d * (p / d)) := by ring
  have e2 : 2 * d * (p / d + 1) = 2 * (d * (p / d)) + 2 * d := by ring
  split
  · rw [e1]; omega
  · split
    · rw [e2]
      have := Nat.mod_lt p hd
      omega
    · have hc : p / d % 2 = 0 ∨ p / d % 2 = 1 := by omega
      obtain hc | hc := hc <;> rw [hc]
      · rw [Nat.add_zero, e1]; omega
      · rw [e2]; omega

end Sys2Proof.Machine
end

