-- ==== Sys2Proof/Laws/PerInstr.lean ====
section
/-! SUPPORT. For every command: the word that `encode` gives a well-formed command is legal (R53). One lemma a constructor. -/

namespace Sys2Proof.Laws.EncodeLegal

open Sys2Proof

/-- The encoded word of a well-formed command is legal. -/
def Statement (i : Instr) : Prop := i.wellFormed = true → legalWord (encode i) = true

theorem nop : Statement .nop := fun _ => by decide
theorem fft : Statement .fft := fun _ => by decide
theorem ifft : Statement .ifft := fun _ => by decide
theorem bitrev : Statement .bitrev := fun _ => by decide

theorem stage (s : Nat) (inv : Bool) : Statement (.stage s inv) := by
  intro h
  have hs : s < 64 := by simpa [Instr.wellFormed] using h
  have h1 : field (encode (.stage s inv)) 15 49 = 0 := by
    cases inv <;> simp [field, encode, Instr.opcode, Instr.stageField, Instr.invField]
    all_goals omega
  have h2 : field (encode (.stage s inv)) 0 8 = 4 := by
    cases inv <;> simp [field, encode, Instr.opcode, Instr.stageField, Instr.invField]
    all_goals omega
  simp [legalWord, h1, h2]

theorem twid (s : Nat) (inv : Bool) : Statement (.twid s inv) := by
  intro h
  have hs : s < 64 := by simpa [Instr.wellFormed] using h
  have h1 : field (encode (.twid s inv)) 15 49 = 0 := by
    cases inv <;> simp [field, encode, Instr.opcode, Instr.stageField, Instr.invField]
    all_goals omega
  have h2 : field (encode (.twid s inv)) 0 8 = 5 := by
    cases inv <;> simp [field, encode, Instr.opcode, Instr.stageField, Instr.invField]
    all_goals omega
  simp [legalWord, h1, h2]

theorem vadd : Statement .vadd := fun _ => by decide
theorem vsub : Statement .vsub := fun _ => by decide
theorem vmul : Statement .vmul := fun _ => by decide
theorem vsqr : Statement .vsqr := fun _ => by decide
theorem vdiv : Statement .vdiv := fun _ => by decide
theorem vdivs : Statement .vdivs := fun _ => by decide
theorem vcvt : Statement .vcvt := fun _ => by decide
theorem vround : Statement .vround := fun _ => by decide

end Sys2Proof.Laws.EncodeLegal
end

