-- ==== Sys2Proof/Tests/Slice0.lean ====
section
/-! SUPPORT. Tests. Expected values come from the spec: its encodings (R50 to R53), the vectors V1 to V8 of 95_test_vectors.md and the examples of the
rules named. After them, for every statement with hypotheses, a witness that meets them together. -/

-- One theorem at a time: a thread per theorem takes address space of its own.
set_option Elab.async false

namespace Sys2Proof.Tests

open Sys2Proof Sys2Proof.Machine

/-! ### Well-formedness: an ill-formed term for each check -/

theorem test_stage_number_64_ill_formed : (Instr.stage 64 false).wellFormed = false := by decide
theorem test_twid_number_64_ill_formed : (Instr.twid 64 true).wellFormed = false := by decide
theorem test_stage_number_63_well_formed : (Instr.stage 63 true).wellFormed = true := by decide

/-! ### Decoding: RSV ++ INV ++ S ++ OPC, written out from R50 and R52 -/

theorem test_decode_nop : decode (0b0#49 ++ 0b0#1 ++ 0b000000#6 ++ 0b00000000#8) = .ok .nop := by decide
theorem test_decode_fft : decode (0b0#49 ++ 0b0#1 ++ 0b000000#6 ++ 0b00000001#8) = .ok .fft := by decide
theorem test_decode_ifft : decode (0b0#49 ++ 0b0#1 ++ 0b000000#6 ++ 0b00000010#8) = .ok .ifft := by decide
theorem test_decode_bitrev : decode (0b0#49 ++ 0b0#1 ++ 0b000000#6 ++ 0b00000011#8) = .ok .bitrev := by decide
theorem test_decode_stage : decode (0b0#49 ++ 0b1#1 ++ 0b100001#6 ++ 0b00000100#8) = .ok (.stage 33 true) := by decide
theorem test_decode_twid : decode (0b0#49 ++ 0b0#1 ++ 0b000011#6 ++ 0b00000101#8) = .ok (.twid 3 false) := by decide
theorem test_decode_vadd : decode (0b0#49 ++ 0b0#1 ++ 0b000000#6 ++ 0b00010000#8) = .ok .vadd := by decide
theorem test_decode_vsub : decode (0b0#49 ++ 0b0#1 ++ 0b000000#6 ++ 0b00010001#8) = .ok .vsub := by decide
theorem test_decode_vmul : decode (0b0#49 ++ 0b0#1 ++ 0b000000#6 ++ 0b00010010#8) = .ok .vmul := by decide
theorem test_decode_vsqr : decode (0b0#49 ++ 0b0#1 ++ 0b000000#6 ++ 0b00010011#8) = .ok .vsqr := by decide
theorem test_decode_vdiv : decode (0b0#49 ++ 0b0#1 ++ 0b000000#6 ++ 0b00010100#8) = .ok .vdiv := by decide
theorem test_decode_vdivs : decode (0b0#49 ++ 0b0#1 ++ 0b000000#6 ++ 0b00010101#8) = .ok .vdivs := by decide
theorem test_decode_vcvt : decode (0b0#49 ++ 0b0#1 ++ 0b000000#6 ++ 0b00011000#8) = .ok .vcvt := by decide
theorem test_decode_vround : decode (0b0#49 ++ 0b0#1 ++ 0b000000#6 ++ 0b00011001#8) = .ok .vround := by decide

theorem test_decode_reserved_opcode : decode 0x0000000000000016 = .error (.reservedOpcode 0x16) := by decide
theorem test_decode_stray_inv : decode 0x0000000000004010 = .error .strayField := by decide
theorem test_decode_top_reserved_bit : decode 0x8000000000000001 = .error .reservedBits := by decide
theorem test_decode_short_bytes : decodeBytes [0x01, 0x00] = .error .wrongLength := by decide
theorem test_table_word_stage : decodeTableWord 64 0x4104 = some (.stage 1 true) := by decide

/-! ### States of the tests -/

/-- A busy block with default parameters, the latch from the arguments, and the given memory. -/
def busyState (len a b d sc : Word) (m : Memory) : State :=
  { State.reset with dmem := m, status := ⟨true, false, false, false, .none⟩, latch := ⟨0, len, a, b, d, sc⟩ }

/-- The same with a twiddle mode. -/
def busyMode (mode : TwMode) (len a d : Word) (m : Memory) : State :=
  { busyState len a 0 d 0 m with params := { Params.default with twmode := mode } }

/-- The state after a step that goes on. -/
def nextOf : Host.Outcome State Fault Refusal → Option State
  | .next s => some s
  | _ => none

/-- The fault of a step that stops. -/
def faultOf : Host.Outcome State Fault Refusal → Option Fault
  | .fault f => some f
  | _ => none

/-- An entry of data memory after a step. -/
def entryAfter (o : Host.Outcome State Fault Refusal) (e : Nat) : Option Cplx := (nextOf o).bind (fun s => s.dmem.readEntry e)

/-- ERRCODE and ERRIDX after a step. -/
def errorAfter (o : Host.Outcome State Fault Refusal) : Option (ErrorCode × Word) := (nextOf o).map (fun s => (s.status.errcode, s.erridx))

/-- (1, 2), (3, -1). -/
def mem2 : Memory := writeEntries [] 0 [⟨0x3FF0000000000000, 0x4000000000000000⟩, ⟨0x4008000000000000, 0xBFF0000000000000⟩]

/-- (4, 0), (-2, 0), (6, 0), (-2, 0). -/
def mem4 : Memory :=
  writeEntries [] 0 [⟨0x4010000000000000, 0⟩, ⟨0xC000000000000000, 0⟩, ⟨0x4018000000000000, 0⟩, ⟨0xC000000000000000, 0⟩]

/-- One entry at 0 and one at 1. -/
def memPair (x y : Cplx) : Memory := writeEntries [] 0 [x, y]

/-! ### One step of each command -/

/-- R130, V8 line 1. -/
theorem test_nop_status : (nextOf (execNop (busyState 0 0 0 0 0 []))).map (fun s => readReg s .status) = some 0x002 := by decide

/-- V5, FFT n=2. -/
theorem test_fft_two : entryAfter (execFft (busyState 2 0 0 4 0 mem2)) 5 = some ⟨0xC000000000000000, 0x4008000000000000⟩ := by decide +kernel

/-- V5, FFT n=1: a raw copy keeps a signalling NaN. -/
theorem test_fft_one_raw :
    entryAfter (execFft (busyState 1 0 0 1 0 (memPair ⟨0x7FF0000000000001, 0x8000000000000000⟩ cone))) 1 =
      some ⟨0x7FF0000000000001, 0x8000000000000000⟩ := by decide +kernel

/-- V5, IFFT n=2: (4,1), (-2,3) gives (1,2), (3,-1). -/
theorem test_ifft_two :
    entryAfter (execIfft (busyState 2 0 0 0 0
      (memPair ⟨0x4010000000000000, 0x3FF0000000000000⟩ ⟨0xC000000000000000, 0x4008000000000000⟩))) 1 =
      some ⟨0x4008000000000000, 0xBFF0000000000000⟩ := by decide +kernel

/-- V5, IFFT n=1: the NaN becomes canonical. -/
theorem test_ifft_one_nan :
    entryAfter (execIfft (busyState 1 0 0 0 0 (memPair ⟨0x7FF0000000000001, 0x8000000000000000⟩ cone))) 0 =
      some ⟨0x7FF8000000000000, 0x8000000000000000⟩ := by decide +kernel

/-- V4, rev_2 = 0, 2, 1, 3: entry 2 goes to 1. -/
theorem test_bitrev_four : entryAfter (execBitrev (busyState 4 0 0 8 0 mem4)) 9 = some ⟨0x4018000000000000, 0⟩ := by decide +kernel

/-- V5, STAGE s=2 n=4: entry 3 is (0xBFFFFFFFFFFFFFFF, 2). -/
theorem test_stage_two : entryAfter (execStage 2 false (busyState 4 0 0 0 0 mem4)) 3 = some ⟨0xBFFFFFFFFFFFFFFF, 0x4000000000000000⟩ := by decide +kernel

/-- V7: STAGE s=3 n=4 is INVALID_ARGUMENT. -/
theorem test_stage_above_log : errorAfter (execStage 3 false (busyState 4 0 0 0 0 mem4)) = some (.invalidArgument, 0) := by decide

/-- V3, GEN, n = 8, S = 3, INV = 1: p_3. -/
theorem test_twid_gen : entryAfter (execTwid 3 true (busyMode .gen 8 0 0 [])) 3 = some ⟨0xBFE6A09E667F3BCB, 0xBFE6A09E667F3BCE⟩ := by decide +kernel

/-- V3, DIRECT, n = 8, S = 3, INV = 0: p_3; and LEVEL, n = 8, S = 2: p_1. -/
theorem test_twid_direct_level :
    entryAfter (execTwid 3 false (busyMode .direct 8 0 0 [])) 3 = some ⟨0xBFE6A09E667F3BCD, 0x3FE6A09E667F3BCD⟩ ∧
    entryAfter (execTwid 2 false (busyMode .level 8 0 0 [])) 1 = some ⟨0x3C91A62633145C07, 0x3FF0000000000000⟩ := by decide +kernel

/-- V6: (0.1, 0) + (0.2, 0). -/
theorem test_vadd : entryAfter (execVadd (busyState 1 0 1 0 0 (memPair ⟨0x3FB999999999999A, 0⟩ ⟨0x3FC999999999999A, 0⟩))) 0 =
    some ⟨0x3FD3333333333334, 0⟩ := by decide +kernel

/-- V6: n = 4, a = b = 0, d = 2 is OVERLAP. -/
theorem test_vadd_overlap : errorAfter (execVadd (busyState 4 0 0 2 0 mem4)) = some (.overlap, 0) := by decide

/-- V6: (0, -0) - (0, 0) = (+0, -0). -/
theorem test_vsub : entryAfter (execVsub (busyState 1 0 1 0 0 (memPair ⟨0, 0x8000000000000000⟩ ⟨0, 0⟩))) 0 = some ⟨0, 0x8000000000000000⟩ := by
  decide +kernel

/-- V6: (1, 2)·(3, 4) = (-5, 10). -/
theorem test_vmul : entryAfter (execVmul (busyState 1 0 1 2 0
    (memPair ⟨0x3FF0000000000000, 0x4000000000000000⟩ ⟨0x4008000000000000, 0x4010000000000000⟩))) 2 =
      some ⟨0xC014000000000000, 0x4024000000000000⟩ := by decide +kernel

/-- R114: (3 units of 2^-1074, 0.5) squared is (-0.25, 4 units). -/
theorem test_vsqr : entryAfter (execVsqr (busyState 1 0 9 0 0 (memPair ⟨3, 0x3FE0000000000000⟩ cone))) 0 = some ⟨0xBFD0000000000000, 4⟩ := by
  decide +kernel

/-- V6: (1, 2)/(3, 4). -/
theorem test_vdiv : entryAfter (execVdiv (busyState 1 0 1 0 0
    (memPair ⟨0x3FF0000000000000, 0x4000000000000000⟩ ⟨0x4008000000000000, 0x4010000000000000⟩))) 0 =
      some ⟨0x3FDC28F5C28F5C29, 0x3FB47AE147AE147B⟩ := by decide +kernel

/-- R115: (1, 0)/(0, 0) is no error. -/
theorem test_vdiv_by_zero : entryAfter (execVdiv (busyState 1 0 1 0 0 (memPair cone ⟨0, 0⟩))) 0 =
    some ⟨0x7FF8000000000000, 0x7FF8000000000000⟩ := by decide +kernel

/-- V6: (1, 0)/3. -/
theorem test_vdivs : entryAfter (execVdivs (busyState 1 0 0 0 0x4008000000000000 (memPair cone cone))) 0 = some ⟨0x3FD5555555555555, 0⟩ := by
  decide +kernel

/-- R117: 2^53 + 3, with the high half never written. -/
theorem test_vcvt : entryAfter (execVcvt (busyState 1 0 0 0 0 (Memory.writeWord [] 0 0x0020000000000003))) 0 = some ⟨0x4340000000000002, 0⟩ := by
  decide +kernel

/-- R118: -2.5 rounds to -2; the high half is written 0. -/
theorem test_vround : entryAfter (execVround (busyState 1 0 0 0 0 (Memory.writeWord [] 0 0xC004000000000000))) 0 = some ⟨0xFFFFFFFFFFFFFFFE, 0⟩ := by
  decide +kernel

/-- V6: re 1, 1e300 at lanes 0 and 1 gives OVERFLOW with ERRIDX = 1. -/
theorem test_vround_overflow :
    errorAfter (execVround (busyState 2 0 0 8 0 (writeEntries [] 0 [cone, ⟨0x7E37E43C8800759C, 0⟩]))) = some (.overflow, 1) := by decide +kernel

/-! ### Binary64 (V1) -/

theorem test_i2f_large : i2f (2 ^ 63 - 1) = 0x43E0000000000000 := by decide +kernel
theorem test_fadd_overflow : fadd 0x7FE1CCF385EBC8A0 0x7FE1CCF385EBC8A0 = 0x7FF0000000000000 := by decide +kernel
theorem test_fmul_underflow_tie : fmul 1 0x3FE0000000000000 = 0 := by decide +kernel
theorem test_round_halfway : roundToInt ⟨0x4330000000000001, 0⟩ = some 4503599627370498 := by decide +kernel

/-! ### Bus and protocol (V8) -/

/-- V8 line 2: enabling a pending completion asserts IRQ. -/
theorem test_irq_enable :
    readReg (writeReg { State.reset with status := ⟨false, true, false, false, .none⟩ } .irqen 1) .status = 0x012 := by decide

/-- V8 line 3: a CMD write while busy with IRQEN = 4. -/
theorem test_cmd_while_busy :
    readReg (writeReg { busyState 0 0 0 0 0 [] with regs := { Regs.reset with irqen := 4, cmd := 1 } } .cmd 2) .status = 0x019 := by decide

/-- V8 line 5: acceptance clears all but HAZ. -/
theorem test_acceptance_keeps_haz :
    readReg (writeReg { State.reset with status := ⟨false, true, true, true, .overflow⟩, erridx := 2 } .cmd 0) .status = 0x009 := by decide

/-- V8 line 6: offset 0x058 is a bus error. -/
theorem test_bus_error_058 : memRead State.reset 0x058 8 = .error (.busError 0x058 8) := by decide

/-- R56, R57: `run raw` gives any word, then `wait`. -/
theorem test_run_raw :
    (hostFor 0 [.run (.raw 0x106)]).map (fun h => h.program) = some [.write 0x028 8 0x106, .read 0x010 8 1, .bit 1 0 1] := by decide

/-- P2: `op STAGE s=1, inv, n=4, d=12` writes 0x4104; an s above 63 has no word. -/
theorem test_op_stage :
    (hostFor 0 [.op (.instr (.stage 1 true)) (some 4) none none (some 12)]).map (fun h => h.program.take 3) =
      some [.write 0x030 8 4, .write 0x048 8 12, .write 0x028 8 0x4104] ∧
    hostFor 0 [.op (.instr (.stage 64 true)) (some 4) none none (some 12)] = none := by decide

/-! ### Witnesses for the statements with hypotheses -/

theorem witness_LegalWordsAreTheDecodable :
    (∀ s v, Instr.vadd ≠ .stage s v ∧ Instr.vadd ≠ .twid s v) ∧ decode 0x10 = .ok .vadd ∧ (63 : Nat) < 64 :=
  ⟨fun _ _ => ⟨by simp, by simp⟩, by decide, by decide⟩

theorem witness_IllegalWordCompletesWithoutEffect :
    State.reset.status.busy = false ∧ (State.reset.load 0x06).status.busy = true ∧ legalWord (State.reset.load 0x06).latch.cmd = false := by decide

theorem witness_BusyStepRunsDecodedCommand :
    (State.reset.accept 0x01).status.busy = true ∧ decode (State.reset.accept 0x01).latch.cmd = .ok .fft ∧ (State.reset.accept 0x01).schedule = [] ∧
      (State.reset.load 0x01).schedule = [.engine] ∧ (State.reset.accept 0x06).status.busy = true ∧
      legalWord (State.reset.accept 0x06).latch.cmd = false ∧ (State.reset.load 0x06).schedule = [.engine] := by decide

theorem witness_PlacedWordRunsNext : (Instr.stage 63 true).wellFormed = true := by decide

theorem witness_IdleBlockKeepsItsState :
    State.reset.status.busy = false ∧ State.reset.schedule = [] ∧ State.reset.host.program.length ≤ State.reset.host.pc := by decide

theorem witness_ResetTurnResetsTheBlock : ({ busyState 1 0 0 0 0 mem2 with schedule := [.reset] } : State).schedule = .reset :: [] := by decide

theorem witness_CommandWriteIsAcceptedOrRefused : State.reset.status.busy = false ∧ (busyState 0 0 0 0 0 []).status.busy = true := by decide

theorem witness_WindowAccessWhileBusySetsHaz :
    (busyState 0 0 0 0 0 []).params.legal ∧ 262143 < 2 ^ (busyState 0 0 0 0 0 []).params.log2Dmem ∧ (busyState 0 0 0 0 0 []).status.busy = true := by
  decide +kernel

theorem witness_WindowWriteThenRead :
    State.reset.params.legal ∧ 262143 < 2 ^ State.reset.params.log2Dmem ∧ State.reset.status.busy = false ∧
      State.reset.dmem.readWord (16 * 262143 + 8) = none := by decide +kernel

/-- A half that a command wrote, read by an idle host: TWID's first entry. -/
theorem witness_UnwrittenWindowReadFaults :
    (nextOf (execTwid 1 false (busyState 2 0 0 7 0 []))).map (fun s => (s.status.busy, s.dmem.readWord (16 * 7), decide s.params.legal)) =
      some (false, some fone, true) := by decide +kernel

/-- The boundary offsets of R31: the last register, the gap, both ends of the window, the end of the space. -/
theorem witness_BusErrorsExactly :
    memRead State.reset 0x050 8 = .ok (0, State.reset) ∧ memRead State.reset 0x050 4 = .error (.busError 0x050 4) ∧
    memRead State.reset 0x054 8 = .error (.busError 0x054 8) ∧ memRead State.reset 0x058 8 = .error (.busError 0x058 8) ∧
    memRead State.reset 0x00FFFFF8 8 = .error (.busError 0x00FFFFF8 8) ∧ memRead State.reset 0x01000000 8 = .error (.uninitRead 0) ∧
    memRead State.reset 0x013FFFF8 8 = .error (.uninitRead 262143) ∧ memRead State.reset 0x01400000 8 = .error (.busError 0x01400000 8) ∧
    memRead State.reset 0x01FFFFF8 8 = .error (.busError 0x01FFFFF8 8) := by decide +kernel

/-- A host polling STATUS, idle and busy. -/
theorem witness_WaitPollsUntilIdle :
    ((assemble 0 (waitStmts 0)).map (fun ops => (hostStep { State.reset with host := ⟨ops, 0, []⟩ } |> nextOf).isSome)) = some true ∧
    ((assemble 0 (waitStmts 0)).map (fun ops => (hostStep { busyState 0 0 0 0 0 [] with host := ⟨ops, 0, []⟩ } |> nextOf).isSome)) = some true := by
  decide

/-- A completion with NONE, one with an error, and a fault. -/
theorem witness_completions :
    (nextOf (exec .nop (busyState 0 0 0 0 0 []))).isSome = true ∧ errorAfter (engineStep (busyState 0 0 0 0 0 [])) = some (.none, 0) ∧
    errorAfter (exec .fft (busyState 3 0 0 0 0 [])) = some (.invalidArgument, 0) ∧
    errorAfter (engineStep { busyState 3 0 0 0 0 [] with latch := ⟨1, 3, 0, 0, 0, 0⟩ }) = some (.invalidArgument, 0) ∧
    faultOf (exec .vadd (busyState 1 5 0 0 0 [])) = some (.uninitRead 5) := by decide

/-- V7 for R90: lengths 0 and 3, stage 0 and 3 of n = 4, n = 2^17 above NMAX, and each range one entry too far. -/
theorem witness_TransformChecksInOrder :
    (∀ L, (busyState 3 0 0 0 0 []).latch.n ≠ 2 ^ L) ∧ (∀ L, (busyState 0 0 0 0 0 []).latch.n ≠ 2 ^ L) ∧
    ((busyState 4 0 0 0 0 []).latch.n = 2 ^ 2 ∧ 2 < 3) ∧
    ((busyState 0x20000 0 0 0 0 []).latch.n = 2 ^ 17 ∧ (busyState 0x20000 0 0 0 0 []).params.log2Nmax < 17) ∧
    ((busyState 8 0x3FFF9 0 0 0 []).latch.n = 2 ^ 3 ∧ 2 ^ (busyState 8 0x3FFF9 0 0 0 []).params.log2Dmem < (busyState 8 0x3FFF9 0 0 0 []).latch.a + 2 ^ 3) ∧
    2 ^ (busyState 8 0 0 0x3FFFD 0 []).params.log2Dmem < (busyState 8 0 0 0x3FFFD 0 []).latch.d + 2 ^ (3 - 1) := by
  have h3 : pow2 3 = false := by decide
  have h0 : pow2 0 = false := by decide
  refine ⟨fun L h => ?_, fun L h => ?_, by decide +kernel, by decide +kernel, by decide +kernel, by decide +kernel⟩
  · have h' : (3 : Nat) = 2 ^ L := h
    rw [pow2_iff.2 ⟨L, h'⟩] at h3; cases h3
  · have h' : (0 : Nat) = 2 ^ L := h
    rw [pow2_iff.2 ⟨L, h'⟩] at h0; cases h0

/-- V7 for R110: one entry too far, and a partial overlap with everything in range. -/
theorem witness_VectorChecksInOrder :
    ((busyState 4 0 0x3FFFD 2 0 []).latch.n ≠ 0 ∧
      ∃ q ∈ [(busyState 4 0 0x3FFFD 2 0 []).latch.a, (busyState 4 0 0x3FFFD 2 0 []).latch.b] ++ [(busyState 4 0 0x3FFFD 2 0 []).latch.d],
        2 ^ (busyState 4 0 0x3FFFD 2 0 []).params.log2Dmem < q + (busyState 4 0 0x3FFFD 2 0 []).latch.n) ∧
    ((∀ q ∈ [(busyState 4 0 0 3 0 []).latch.a] ++ [(busyState 4 0 0 3 0 []).latch.d],
        q + (busyState 4 0 0 3 0 []).latch.n ≤ 2 ^ (busyState 4 0 0 3 0 []).params.log2Dmem) ∧
      ∃ q ∈ [(busyState 4 0 0 3 0 []).latch.a], q ≠ (busyState 4 0 0 3 0 []).latch.d ∧
        q < (busyState 4 0 0 3 0 []).latch.d + (busyState 4 0 0 3 0 []).latch.n ∧
        (busyState 4 0 0 3 0 []).latch.d < q + (busyState 4 0 0 3 0 []).latch.n) := by decide +kernel

/-- Lanes 1.0 and 1e300: the second overflows. -/
def overflowState : State := busyState 2 0 0 8 0 (writeEntries [] 0 [cone, ⟨0x7E37E43C8800759C, 0⟩])

theorem witness_VroundOverflowAtFirstLane :
    checkVector overflowState.params overflowState.latch.n [overflowState.latch.a] overflowState.latch.d = none ∧ 1 < overflowState.latch.n ∧
    overflowState.dmem.readWord (loAddr (overflowState.latch.a + 0)) = some fone ∧ roundToInt ⟨fone, 0⟩ ≠ none ∧
    overflowState.dmem.readWord (loAddr (overflowState.latch.a + 1)) = some 0x7E37E43C8800759C ∧ roundToInt ⟨0x7E37E43C8800759C, 0⟩ = none := by
  decide +kernel

/-- Entry 0 written, entry 1 not: lane 1 faults for one source, for the second source, and for a transform. -/
def gapState : State := busyState 2 0 0 4 0 (writeEntries [] 0 [cone])

theorem witness_UnwrittenSourceFaults :
    TransformAdmits gapState 1 (2 ^ 1) ∧ VectorAdmits gapState [gapState.latch.a] ∧ VectorAdmits gapState [gapState.latch.a, gapState.latch.b] ∧
    1 < gapState.latch.n ∧ gapState.dmem.readEntry (gapState.latch.a + 1) = none ∧ gapState.dmem.readEntry (gapState.latch.a + 0) ≠ none ∧
    gapState.dmem.readWord (loAddr (gapState.latch.a + 1)) = none ∧
    gapState.dmem.readWord (loAddr (gapState.latch.a + 0)) = some fone ∧ roundToInt ⟨fone, 0⟩ ≠ none := by
  refine ⟨by unfold TransformAdmits; decide +kernel, vectorAdmits_iff.2 (by decide +kernel), vectorAdmits_iff.2 (by decide +kernel), ?_⟩
  decide +kernel

/-- The second source's entry is unwritten while the first's is written. -/
theorem witness_UnwrittenSecondSourceFaults :
    VectorAdmits (busyState 1 0 1 4 0 (writeEntries [] 0 [cone])) [0, 1] ∧
    (writeEntries [] 0 [cone]).readEntry 0 ≠ none ∧ (writeEntries [] 0 [cone]).readEntry 1 = none := by
  refine ⟨vectorAdmits_iff.2 (by decide +kernel), ?_⟩
  decide +kernel

/-- A transform of length 2 in place, at the last two entries' distance from the end, with its source written. -/
def transformState : State := busyState 2 0 0 0x3FFFE 0 mem2

theorem witness_transform_commands :
    TransformAdmits transformState 1 (2 ^ 1) ∧ [Cplx.mk 0x3FF0000000000000 0x4000000000000000, ⟨0x4008000000000000, 0xBFF0000000000000⟩].length = 2 ^ 1 ∧
    HoldsFrom transformState.dmem transformState.latch.a
      [⟨0x3FF0000000000000, 0x4000000000000000⟩, ⟨0x4008000000000000, 0xBFF0000000000000⟩] := by
  refine ⟨by unfold TransformAdmits; decide +kernel, rfl, ?_⟩
  exact (writeEntries_spec _ [] 0).1

theorem witness_TransformLengthOne :
    TransformAdmits (busyState 1 0 0 0 0 mem2) 0 (2 ^ 0) ∧ HoldsFrom (busyState 1 0 0 0 0 mem2).dmem (busyState 1 0 0 0 0 mem2).latch.a
      [⟨0x3FF0000000000000, 0x4000000000000000⟩] := by
  refine ⟨by unfold TransformAdmits; decide +kernel, fun k h => ?_⟩
  obtain rfl : k = 0 := by simpa using h
  exact (writeEntries_spec [⟨0x3FF0000000000000, 0x4000000000000000⟩, ⟨0x4008000000000000, 0xBFF0000000000000⟩] [] 0).1 0 (by decide)

/-- V7: TWID s=3, n=8 with SRCA = 2^64 - 1 and the last four entries as destination. -/
theorem witness_TwidWritesTheTwiddles :
    (busyState 8 (-1) 0 0x3FFFC 0 []).latch.n = 2 ^ 3 ∧ 3 ≤ (busyState 8 (-1) 0 0x3FFFC 0 []).params.log2Nmax ∧
    (busyState 8 (-1) 0 0x3FFFC 0 []).latch.d + 2 ^ (3 - 1) ≤ 2 ^ (busyState 8 (-1) 0 0x3FFFC 0 []).params.log2Dmem := by decide +kernel

/-- In place on SRCA, and n = 0 with every base outside data memory. -/
theorem witness_elementwise_commands :
    VectorAdmits (busyState 2 0 0 0 0 mem2) [0, 0] ∧ VectorAdmits (busyState 0 (-1) (-1) (-1) 0 []) [2 ^ 64 - 1, 2 ^ 64 - 1] ∧
    HoldsFrom (busyState 2 0 0 0 0 mem2).dmem (busyState 2 0 0 0 0 mem2).latch.a
      [⟨0x3FF0000000000000, 0x4000000000000000⟩, ⟨0x4008000000000000, 0xBFF0000000000000⟩] :=
  ⟨vectorAdmits_iff.2 (by decide +kernel), vectorAdmits_iff.2 (by decide +kernel), (writeEntries_spec _ [] 0).1⟩

theorem witness_conversion_commands :
    VectorAdmits (busyState 1 0 0 0 0 mem2) [0] ∧ mem2.readWord (loAddr 0) = some fone ∧ roundToInt ⟨fone, 0⟩ = some 1 :=
  ⟨vectorAdmits_iff.2 (by decide +kernel), by decide +kernel, by decide +kernel⟩

theorem witness_CoreIsTheRecursion : 1 ≤ 1 ∧ [cone, cone].length = 2 ^ 1 := by decide

theorem witness_iterated_transforms :
    errorAfter (exec .fft transformState) = some (.none, 0) ∧ errorAfter (exec .ifft transformState) = some (.none, 0) ∧
      transformState.latch.n = 2 ^ 1 := by decide +kernel

theorem witness_VsqrEqualsVmulWithItself :
    errorAfter (exec .vsqr (busyState 1 0 9 0 0 mem2)) = some (.none, 0) ∧ faultOf (exec .vsqr (busyState 1 5 9 0 0 mem2)) = some (.uninitRead 5) := by
  decide +kernel

theorem witness_BitReversalIsAnInvolution : 1 < 2 ^ 1 ∧ [cone, cone].length = 2 ^ 1 := by decide

theorem witness_RomRootsWithinHalfUlp : (0 : Nat) ≤ 20 ∧ (1 : Nat) ≤ 20 ∧ (2 : Nat) ≤ 20 ∧ (20 : Nat) ≤ 20 := by decide

/-- The last angle of the longest table, the quarter turn, and an inner angle of the longest and of the exact tables. -/
theorem witness_DirectRootsNearRealValues :
    ((20 : Nat) ≤ 20 ∧ 2 ^ 20 - 1 < 2 ^ 20) ∧ 4 * 2 ^ 18 = 2 ^ 20 ∧
    (0 < 2 ^ 19 - 1 ∧ 2 * (2 ^ 19 - 1) < 2 ^ 20 ∧ 4 * (2 ^ 19 - 1) ≠ 2 ^ 20) ∧
    ((6 : Nat) ≤ 6 ∧ 0 < 31 ∧ 2 * 31 < 2 ^ 6 ∧ 4 * 31 ≠ 2 ^ 6 ∧ isFinite fone = true ∧ fone ≠ (directTw 6 31 false).re ∧ fone ≠ (directTw 6 31 false).im) := by
  decide +kernel

theorem witness_RoundingIsNearestEven : 0 < 1 ∧ 0 < 3 := by decide

/-- Finite operands with a non-zero sum, difference, product and quotient: 1 and 2. -/
theorem witness_PrimitivesRoundTheExactResult :
    isFinite fone = true ∧ isFinite 0x4000000000000000 = true ∧ isZero fone = false ∧ isZero 0x4000000000000000 = false ∧
    units fone + units 0x4000000000000000 ≠ 0 ∧ units fone - units 0x4000000000000000 ≠ 0 := by decide +kernel

theorem witness_NanResultsAreCanonical : isNaN (fadd 0x7FF0000000000001 fone) = true ∧ isNaN 0x7FF0000000000001 = true := by decide

/-- 1.0, the zero sums 1 + (-1) and (-0) + (-0), and a NaN. -/
theorem witness_SpecialOperands :
    isFinite fone = true ∧ isZero fone = false ∧ isNaN fone = false ∧ isNaN 0x7FF0000000000001 = true ∧
    (isFinite (fneg fone) = true ∧ units fone + units (fneg fone) = 0) ∧
    (isZero (fzero true) = true ∧ isFinite (fzero true) = true ∧ units (fzero true) + units (fzero true) = 0) ∧
    isNaN (finf true) = false ∧ isZero (finf true) = false := by decide +kernel

theorem witness_SubtractionAddsTheNegation : isFinite 0x8000000000000000 = true := by decide

theorem witness_IntegersConvertRounded :
    -(2 ^ 63 : Int) ≤ -(2 ^ 53) ∧ -(2 ^ 53) < (2 ^ 63 : Int) ∧ -(2 ^ 53 : Int) ≤ 2 ^ 53 ∧ (2 ^ 63 - 1 : Int) < 2 ^ 63 := by decide

theorem witness_NopCompletes : State.reset.status.busy = false ∧ field 0x100 0 8 = 0 ∧ (0x100 : Word) ≠ 0 := by decide

theorem witness_IdAndCfgAreConstant :
    State.reset.params.legal ∧ State.reset.params = Params.default ∧ (nextOf (step State.reset)).isSome = true := by decide

/-- A busy block with LEN 5 and nothing written, which has the invariant and steps. -/
theorem witness_StepKeepsTheInvariant : Inv (busyState 5 0 0 0 0 []) ∧ (nextOf (step (busyState 5 0 0 0 0 []))).isSome = true := by
  refine ⟨⟨by decide, ⟨by decide, fun a h => ?_, fun a => rfl⟩, by unfold ControlInv; decide⟩, by decide⟩
  cases h

/-- A running command with a host that polls STATUS. -/
def pollingState : State :=
  { busyState 0 0 0 0 0 [] with host := ⟨[.read 0x010 8 1, .bit 1 0 0], 0, []⟩, schedule := [.host, .host, .host] }

theorem witness_HostCannotDisturbARunningCommand :
    pollingState.status.busy = true ∧ (nextOf (hostStep pollingState)).isSome = true := by decide

theorem witness_RunningCommandCompletes :
    pollingState.status.busy = true ∧ Turn.reset ∉ pollingState.schedule ∧ (nextOf (core.run 4 pollingState)).isSome = true := by decide +kernel

/-- HAZ cleared by the host's write of 8 to STATUS. -/
def clearingState : State :=
  { State.reset with status := ⟨false, true, false, true, .none⟩, host := ⟨[.write 0x010 8 8], 0, []⟩ }

theorem witness_HazardFallsOnlyByClearOrReset :
    clearingState.status.haz = true ∧ (nextOf (step clearingState)).map (fun s => s.status.haz) = some false := by decide

end Sys2Proof.Tests
end

section
/-! SUPPORT. The invariant of every step (O56): each state update the model has keeps it, and a step is one of these updates. -/

namespace Sys2Proof.Machine

/-! ### Data memory -/

/-- A byte is written after a write of one half exactly if it lies in the half or was written before. -/
theorem isSome_read_writeWord (m : Memory) (a x : Nat) (w : Word) :
    ((m.writeWord a w).read x).isSome = (decide (a ≤ x ∧ x < a + 8) || (m.read x).isSome) := by
  rw [read_writeWord]
  split
  · next h =>
    rw [List.getElem?_eq_getElem (by rw [bytesOfWord_length]; omega)]
    simp [h]
  · next h => simp [h]

/-- Writing one half, the `k`-th of data memory, keeps its invariant (R12, R46). -/
theorem writeWord_dmemInv {p : Params} {m : Memory} (h : DmemInv p m) {k : Nat} (hk : k < 2 * 2 ^ p.log2Dmem) (w : Word) :
    DmemInv p (m.writeWord (8 * k) w) := by
  obtain ⟨hwf, hlt, hhalf⟩ := h
  refine ⟨writeWord_wf hwf _ _, fun x hx => ?_, fun x => ?_⟩
  · rw [isSome_read_writeWord, Bool.or_eq_true, decide_eq_true_eq] at hx
    obtain hx | hx := hx
    · omega
    · exact hlt x hx
  · have hsame : (8 * k ≤ x ∧ x < 8 * k + 8) ↔ (8 * k ≤ 8 * (x / 8) ∧ 8 * (x / 8) < 8 * k + 8) := by omega
    rw [isSome_read_writeWord, isSome_read_writeWord, hhalf x, decide_eq_decide.2 hsame]

/-- Writing a half of an entry inside data memory keeps its invariant. -/
theorem writeHalf_dmemInv {p : Params} {m : Memory} (h : DmemInv p m) {e : Nat} (he : e < p.dmemEntries) (hi : Bool) (w : Word) :
    DmemInv p (m.writeWord (halfAddr e hi) w) := by
  rw [Params.dmemEntries] at he
  cases hi
  · rw [show halfAddr e false = 8 * (2 * e) by simp only [halfAddr, loAddr, Bool.false_eq_true, if_false]; omega]
    exact writeWord_dmemInv h (by omega) w
  · rw [show halfAddr e true = 8 * (2 * e + 1) by simp only [halfAddr, hiAddr, if_true]; omega]
    exact writeWord_dmemInv h (by omega) w

theorem writeEntry_dmemInv {p : Params} {m : Memory} (h : DmemInv p m) {e : Nat} (he : e < p.dmemEntries) (c : Cplx) :
    DmemInv p (m.writeEntry e c) :=
  writeHalf_dmemInv (writeHalf_dmemInv h he false c.re) he true c.im

/-- Writing entries inside data memory keeps its invariant. -/
theorem writeEntries_dmemInv {p : Params} (ys : List Cplx) : ∀ {m : Memory} (d : Nat), DmemInv p m →
    (ys = [] ∨ d + ys.length ≤ p.dmemEntries) → DmemInv p (writeEntries m d ys) := by
  induction ys with
  | nil => intro m d h _; exact h
  | cons y ys ih =>
    intro m d h hd
    have hd : d + (ys.length + 1) ≤ p.dmemEntries := by simpa using hd
    exact ih (d + 1) (writeEntry_dmemInv h (by omega) y) (.inr (by omega))

theorem nil_dmemInv (p : Params) : DmemInv p [] :=
  ⟨List.Pairwise.nil, fun _ h => (by cases h), fun _ => rfl⟩

/-! ### Control -/

/-- An acceptance clears the last outcome and puts one word in CMD and in the latch (R25, R26). -/
theorem accept_controlInv (s : State) (v : Word) : ControlInv (s.accept v) := by
  simp [ControlInv]

/-- A completion leaves the block idle, whatever it was, with an index for OVERFLOW only (R26, R140). -/
theorem complete_controlInv (s : State) {c : ErrorCode} {k : Nat} (h : k = 0 ∨ c = .overflow) : ControlInv (s.complete c k) := by
  refine ⟨by simp, by simp, fun hidx => ?_⟩
  obtain rfl | rfl := h
  · exact absurd rfl hidx
  · rfl

theorem resetBlock_controlInv (s : State) : ControlInv s.resetBlock := by
  simp [ControlInv, Status.reset]

theorem clearedBy_controlInv {s : State} (h : ControlInv s) (v : Word) : ControlInv { s with status := s.status.clearedBy v } := by
  obtain ⟨hbusy, herr, hidx⟩ := h
  refine ⟨fun hb => ?_, fun he => ?_, hidx⟩
  · obtain ⟨hd, he, hc, hl⟩ := hbusy hb
    exact ⟨by simp [hd], by simp [he], hc, hl⟩
  · exact herr (Bool.and_eq_true_iff.1 he).1

/-- A write of registers other than CMD does not touch what the control invariant speaks of. -/
theorem withRegs_controlInv {s : State} (h : ControlInv s) {g : Regs} (hg : g.cmd = s.regs.cmd) : ControlInv { s with regs := g } := by
  obtain ⟨hbusy, hrest⟩ := h
  refine ⟨fun hb => ?_, hrest⟩
  obtain ⟨hd, he, hc, hl⟩ := hbusy hb
  exact ⟨hd, he, hc, hl.trans hg.symm⟩

/-! ### Turns and steps -/

/-- A protocol violation touches HAZ alone, which the invariant leaves free (R146). -/
theorem hazard_inv {s : State} (h : Inv s) : Inv s.hazard := h

/-- The invariant does not speak of the host agent. -/
theorem withHost_inv {s : State} (h : Inv s) (g : HostAgent) : Inv { s with host := g } := h

/-- The invariant does not speak of the turns to come. -/
theorem withSchedule_inv {s : State} (h : Inv s) (ts : List Turn) : Inv { s with schedule := ts } := h

theorem writeReg_inv {s : State} (h : Inv s) (r : Reg) (v : Word) : Inv (writeReg s r v) := by
  obtain ⟨hp, hm, hc⟩ := id h
  obtain e | ⟨-, e⟩ | ⟨-, -, e⟩ | ⟨-, -, e⟩ | ⟨g, hg, e⟩ := writeReg_cases s r v <;> rw [e]
  · exact h
  · exact ⟨hp, hm, clearedBy_controlInv hc v⟩
  · exact hazard_inv h
  · exact ⟨hp, hm, accept_controlInv s v⟩
  · exact ⟨hp, hm, withRegs_controlInv hc hg⟩

theorem hostStep_inv {s t : State} (h : Inv s) (hst : hostStep s = .next t) : Inv t := by
  obtain ⟨u, g, rfl, hu⟩ := hostStep_cases hst
  refine withHost_inv ?_ g
  obtain rfl | ⟨-, rfl⟩ | ⟨r, v, -, rfl⟩ | ⟨e, hi, v, he, -, rfl⟩ := hu
  · exact h
  · exact hazard_inv h
  · exact writeReg_inv h r v
  · obtain ⟨hp, hm, hc⟩ := h
    exact ⟨hp, writeHalf_dmemInv hm he hi v, hc⟩

theorem exec_inv {i : Instr} {s t : State} (h : Inv s) (hst : exec i s = .next t) : Inv t := by
  obtain ⟨hp, hm, -⟩ := h
  obtain ⟨ys, hd, rfl⟩ | ⟨c, k, -, hk, rfl⟩ := exec_leaves hst
  · exact ⟨hp, writeEntries_dmemInv ys _ hm hd, complete_controlInv _ (.inl rfl)⟩
  · exact ⟨hp, hm, complete_controlInv s hk⟩

theorem engineStep_inv {s t : State} (h : Inv s) (hst : engineStep s = .next t) : Inv t := by
  obtain ⟨-, rfl⟩ | ⟨-, i, -, hi⟩ | ⟨-, -, rfl⟩ := engineStep_cases hst
  · exact h
  · exact exec_inv h hi
  · obtain ⟨hp, hm, -⟩ := h
    exact ⟨hp, hm, complete_controlInv s (.inl rfl)⟩

theorem resetBlock_inv {s : State} (h : Inv s) : Inv s.resetBlock :=
  ⟨h.1, nil_dmemInv _, resetBlock_controlInv s⟩

theorem takeTurn_inv {s t : State} (h : Inv s) (turn : Turn) (hst : takeTurn s turn = .next t) : Inv t := by
  cases turn with
  | host => exact hostStep_inv h hst
  | engine => exact engineStep_inv h hst
  | reset =>
    cases hst
    exact resetBlock_inv h

/-- Settles O56: a step is one turn of the host, the engine or the reset, and each keeps the invariant. -/
theorem stepKeepsTheInvariant : Obligations.StepKeepsTheInvariant := by
  intro s t h hst
  obtain ⟨turn, rest, hturn, -⟩ := step_cases hst
  exact takeTurn_inv (withSchedule_inv h rest) turn hturn

end Sys2Proof.Machine
end

section
/-! SUPPORT. The rounding function (O48): the nearest integer with ties to even, the magnitudes that binary64 can hold, and the two together. -/

namespace Sys2Proof.Machine

/-! ### The nearest integer -/

theorem nearestEven_eq (p d : Nat) : nearestEven p d = p / d ∨ nearestEven p d = p / d + 1 := by
  unfold nearestEven
  have := Nat.mod_two_eq_zero_or_one (p / d)
  split
  · exact .inl rfl
  · split
    · exact .inr rfl
    · omega

theorem le_nearestEven {p d k : Nat} (hd : 0 < d) (h : k * d ≤ p) : k ≤ nearestEven p d := by
  have := (Nat.le_div_iff_mul_le hd).2 h
  obtain e | e := nearestEven_eq p d <;> omega

theorem nearestEven_le {p d k : Nat} (hd : 0 < d) (h : p < k * d) : nearestEven p d ≤ k := by
  have := (Nat.div_lt_iff_lt_mul hd).2 h
  obtain e | e := nearestEven_eq p d <;> omega

/-- An odd nearest integer is nearer than half a divisor: a tie goes to the even one (R61). -/
theorem nearestEven_near_of_odd (p : Nat) {d : Nat} (hd : 0 < d) (h : nearestEven p d % 2 = 1) :
    2 * p < 2 * d * nearestEven p d + d ∧ 2 * d * nearestEven p d < 2 * p + d := by
  have hp := Nat.div_add_mod p d
  have hm := Nat.mod_lt p hd
  unfold nearestEven at h ⊢
  have e1 : 2 * d * (p / d) = 2 * (d * (p / d)) := by ring
  have e2 : 2 * d * (p / d + 1) = 2 * (d * (p / d)) + 2 * d := by ring
  split
  · rw [e1]; omega
  · split
    · rw [e2]; omega
    · next h1 h2 => rw [if_neg h1, if_neg h2] at h; omega

/-- No integer is nearer to `p / d`, and another one just as near makes it even (R61). -/
theorem nearestEven_nearest (p : Nat) {d : Nat} (hd : 0 < d) (k : ℤ) :
    |(nearestEven p d : ℤ) * d - p| ≤ |k * d - p| ∧
      (|k * d - p| = |(nearestEven p d : ℤ) * d - p| → k = nearestEven p d ∨ nearestEven p d % 2 = 0) := by
  have hnear := nearestEven_near p hd
  have hodd := nearestEven_near_of_odd p hd
  generalize nearestEven p d = n at *
  obtain rfl | hk := eq_or_ne k n
  · exact ⟨le_refl _, fun _ => .inl rfl⟩
  have hn : 2 * d * n = 2 * (n * d) := by ring
  rw [hn] at hnear hodd
  -- another integer is at least one divisor away
  have hfar : k * d + d ≤ (n * d : ℕ) ∨ ((n * d : ℕ) : ℤ) + d ≤ k * d := by
    push_cast
    obtain h | h := lt_or_gt_of_ne hk
    · exact .inl (by nlinarith)
    · exact .inr (by nlinarith)
  rw [← Nat.cast_mul]
  generalize k * d = y at *
  generalize n * d = x at *
  obtain ⟨e1, h1⟩ | ⟨e1, h1⟩ := abs_cases ((x : ℤ) - p) <;> obtain ⟨e2, h2⟩ | ⟨e2, h2⟩ := abs_cases (y - p) <;>
    rw [e1, e2] <;> omega

/-- Halfway between an odd number and the next, the next one is taken (R61). -/
theorem lt_nearestEven_iff {p d k : Nat} (hd : 0 < d) (hk : k % 2 = 1) : k < nearestEven p d ↔ (2 * k + 1) * d ≤ 2 * p := by
  have hnear := nearestEven_near p hd
  have hodd := nearestEven_near_of_odd p hd
  generalize nearestEven p d = n at *
  have e : (2 * k + 1) * d = 2 * d * k + d := by ring
  rw [e]
  constructor
  · intro h
    have : 2 * d * (k + 1) ≤ 2 * d * n := Nat.mul_le_mul_left _ h
    rw [Nat.mul_succ] at this
    omega
  · intro h
    by_contra hn
    obtain rfl | hlt := Nat.eq_or_lt_of_le (Nat.le_of_not_lt hn)
    · have := hodd hk
      omega
    · have : 2 * d * (n + 1) ≤ 2 * d * k := Nat.mul_le_mul_left _ hlt
      rw [Nat.mul_succ] at this
      omega

/-! ### Magnitudes -/

/-- The magnitude that the bits below the sign spell, in units of 2^-1074 (R60). -/
def bitsUnits (b : Nat) : Nat := if b / 2 ^ 52 = 0 then b % 2 ^ 52 else (2 ^ 52 + b % 2 ^ 52) * 2 ^ (b / 2 ^ 52 - 1)

theorem magUnits_eq_bitsUnits (v : Word) : magUnits v = bitsUnits (v.toNat % 2 ^ 63) := by
  have he : fexp v = v.toNat % 2 ^ 63 / 2 ^ 52 := by unfold fexp; omega
  have hf : ffrac v = v.toNat % 2 ^ 63 % 2 ^ 52 := by unfold ffrac; omega
  rw [magUnits, bitsUnits, he, hf]

/-- The next bit pattern is the next magnitude, also across exponents. -/
theorem bitsUnits_strictMono : StrictMono bitsUnits := by
  refine strictMono_nat_of_lt_succ fun b => ?_
  unfold bitsUnits
  obtain ⟨he, hf⟩ | ⟨he, hf, hf'⟩ : ((b + 1) / 2 ^ 52 = b / 2 ^ 52 ∧ (b + 1) % 2 ^ 52 = b % 2 ^ 52 + 1) ∨
      ((b + 1) / 2 ^ 52 = b / 2 ^ 52 + 1 ∧ (b + 1) % 2 ^ 52 = 0 ∧ b % 2 ^ 52 = 2 ^ 52 - 1) := by omega
  · rw [he, hf]
    split
    · exact Nat.lt_succ_self _
    · exact Nat.mul_lt_mul_of_pos_right (Nat.lt_succ_self _) (Nat.two_pow_pos _)
  · rw [he, hf, hf', if_neg (Nat.succ_ne_zero _)]
    split
    · next h => rw [h]; decide
    · next h =>
      obtain ⟨e, he⟩ := Nat.exists_eq_succ_of_ne_zero h
      rw [he]
      simp only [Nat.succ_eq_add_one, Nat.add_sub_cancel, Nat.add_zero, Nat.pow_succ 2 e]
      have := Nat.two_pow_pos e
      omega

/-- A magnitude is a multiple of `2^k`, or below the magnitudes whose last place is `2^k`. -/
theorem magUnits_grid (v : Word) (k : Nat) : 2 ^ k ∣ magUnits v ∨ (k ≠ 0 ∧ magUnits v < 2 ^ (52 + k)) := by
  obtain rfl | hk := Nat.eq_zero_or_pos k
  · exact .inl (by simp)
  have hf := ffrac_lt v
  unfold magUnits
  split
  · exact .inr ⟨by omega, hf.trans_le (Nat.pow_le_pow_right (by decide) (by omega))⟩
  · obtain h | h := Nat.lt_or_ge (fexp v - 1) k
    · refine .inr ⟨by omega, ?_⟩
      calc (2 ^ 52 + ffrac v) * 2 ^ (fexp v - 1) < 2 ^ 53 * 2 ^ (fexp v - 1) :=
            Nat.mul_lt_mul_of_pos_right (by omega) (Nat.two_pow_pos _)
        _ = 2 ^ (53 + (fexp v - 1)) := (Nat.pow_add ..).symm
        _ ≤ 2 ^ (52 + k) := Nat.pow_le_pow_right (by decide) (by omega)
    · exact .inl (Dvd.dvd.mul_left (Nat.pow_dvd_pow 2 h) _)

theorem natAbs_units (v : Word) : (units v).natAbs = magUnits v := by
  unfold units
  split <;> simp

/-- Finite values other than zero have one bit pattern each. -/
theorem eq_of_units_eq {v w : Word} (h : units v = units w) (h0 : units w ≠ 0) : v = w := by
  have hmag : magUnits v = magUnits w := by rw [← natAbs_units, ← natAbs_units, h]
  have hpos : magUnits w ≠ 0 := by rw [← natAbs_units]; omega
  have hlow : v.toNat % 2 ^ 63 = w.toNat % 2 ^ 63 := by
    rw [magUnits_eq_bitsUnits, magUnits_eq_bitsUnits] at hmag
    exact bitsUnits_strictMono.injective hmag
  have hs : fsign v = fsign w := by
    unfold units at h
    rw [hmag] at h
    cases hv : fsign v <;> cases hw : fsign w <;> simp only [hv, hw, Bool.false_eq_true, if_false, if_true] at h ⊢ <;> omega
  exact eq_of_fields hs (by unfold fexp; omega) (by unfold ffrac; omega)

/-! ### The computed bits -/

/-- The divisor of a rounding is one unit of the significand's last place. -/
theorem lt_roundShift (p : Nat) {q : Nat} (hq : 0 < q) : p < 2 ^ 53 * (q * 2 ^ roundShift p q) := by
  have hlog : p / q < 2 ^ (53 + roundShift p q) :=
    Nat.lt_log2_self.trans_le (Nat.pow_le_pow_right (by decide) (by unfold roundShift; omega))
  rw [Nat.div_lt_iff_lt_mul hq, Nat.pow_add] at hlog
  linarith

/-- Above the subnormal numbers the significand has its leading bit. -/
theorem roundShift_le {p q : Nat} (h : roundShift p q ≠ 0) : 2 ^ 52 * (q * 2 ^ roundShift p q) ≤ p := by
  have hlog : (p / q).log2 = 52 + roundShift p q := by unfold roundShift at h ⊢; omega
  have hle : 2 ^ (52 + roundShift p q) ≤ p / q := by
    rw [← hlog]
    refine Nat.log2_self_le fun h0 => ?_
    rw [h0, Nat.log2_zero] at hlog
    omega
  calc 2 ^ 52 * (q * 2 ^ roundShift p q) = 2 ^ (52 + roundShift p q) * q := by rw [Nat.pow_add]; ring
    _ ≤ p / q * q := Nat.mul_le_mul_right q hle
    _ ≤ p := Nat.div_mul_le_self p q

/-- The rounded significand. -/
def roundSig (p q : Nat) : Nat := nearestEven p (q * 2 ^ roundShift p q)

theorem roundBits_eq (p q : Nat) : roundBits p q = 2 ^ 52 * roundShift p q + roundSig p q := rfl

theorem roundUlp_pos (p : Nat) {q : Nat} (hq : 0 < q) : 0 < q * 2 ^ roundShift p q := Nat.mul_pos hq (Nat.two_pow_pos _)

theorem roundSig_le (p : Nat) {q : Nat} (hq : 0 < q) : roundSig p q ≤ 2 ^ 53 :=
  nearestEven_le (roundUlp_pos p hq) (lt_roundShift p hq)

theorem le_roundSig {p q : Nat} (hq : 0 < q) (h : roundShift p q ≠ 0) : 2 ^ 52 ≤ roundSig p q :=
  le_nearestEven (roundUlp_pos p hq) (roundShift_le h)

/-- Bits assembled as one number spell significand times last place, also where the significand carries into the exponent (R60, R61). -/
theorem bitsUnits_assembled {k n : Nat} (hn : n ≤ 2 ^ 53) (hk : k ≠ 0 → 2 ^ 52 ≤ n) : bitsUnits (2 ^ 52 * k + n) = n * 2 ^ k := by
  unfold bitsUnits
  obtain hlt | hge := Nat.lt_or_ge n (2 ^ 52)
  · obtain rfl : k = 0 := by by_contra h; have := hk h; omega
    rw [if_pos (by omega), Nat.pow_zero]
    omega
  obtain rfl | hlt := Nat.eq_or_lt_of_le hn
  · rw [show (2 ^ 52 * k + 2 ^ 53) / 2 ^ 52 = k + 2 by omega, show (2 ^ 52 * k + 2 ^ 53) % 2 ^ 52 = 0 by omega, if_neg (by omega),
      show k + 2 - 1 = k + 1 by omega, Nat.pow_succ 2 k]
    ring
  · rw [show (2 ^ 52 * k + n) / 2 ^ 52 = k + 1 by omega, show 2 ^ 52 + (2 ^ 52 * k + n) % 2 ^ 52 = n by omega, if_neg (by omega),
      Nat.add_sub_cancel]

theorem bitsUnits_roundBits (p : Nat) {q : Nat} (hq : 0 < q) : bitsUnits (roundBits p q) = roundSig p q * 2 ^ roundShift p q := by
  rw [roundBits_eq]
  exact bitsUnits_assembled (roundSig_le p hq) (le_roundSig hq)

/-- The computed magnitude is nearest to `p / q` among all numbers of units that binary64 holds, a tie leaving an even significand (R61). -/
theorem roundSig_nearest (p : Nat) {q : Nat} (hq : 0 < q) {u : ℤ}
    (hu : 2 ^ roundShift p q ∣ u ∨ (roundShift p q ≠ 0 ∧ u < 2 ^ (52 + roundShift p q))) :
    |(roundSig p q : ℤ) * 2 ^ roundShift p q * q - p| ≤ |u * q - p| ∧
      (|u * q - p| = |(roundSig p q : ℤ) * 2 ^ roundShift p q * q - p| →
        u = roundSig p q * 2 ^ roundShift p q ∨ roundSig p q % 2 = 0) := by
  have hnear := nearestEven_nearest p (roundUlp_pos p hq)
  have hassoc (k : ℤ) : k * 2 ^ roundShift p q * q = k * ((q * 2 ^ roundShift p q : ℕ) : ℤ) := by push_cast; ring
  rw [hassoc, roundSig]
  obtain ⟨k, rfl⟩ | ⟨h0, hlt⟩ := hu
  · obtain ⟨h1, h2⟩ := hnear k
    rw [mul_comm _ k, hassoc]
    exact ⟨h1, fun h => (h2 h).imp_left fun e => by rw [e]⟩
  · -- `u` lies below the grid of the last place and `p / q` on it or above: the lowest point of the grid is nearer
    obtain ⟨h1, -⟩ := hnear (2 ^ 52)
    have hle : (2 : ℤ) ^ 52 * ((q * 2 ^ roundShift p q : ℕ) : ℤ) ≤ p := by exact_mod_cast roundShift_le h0
    have hfar : u * q < 2 ^ 52 * ((q * 2 ^ roundShift p q : ℕ) : ℤ) := by
      rw [← hassoc, ← pow_add]
      exact mul_lt_mul_of_pos_right hlt (by exact_mod_cast hq)
    rw [abs_of_nonpos (sub_nonpos.2 hle)] at h1
    rw [abs_of_nonpos (sub_nonpos.2 (hfar.le.trans hle))]
    exact ⟨by omega, fun h => by omega⟩

/-- The exponent field reaches `m + 3` exactly from halfway between the last magnitude below it and the first with it on (R61). -/
theorem le_roundBits_iff (p : Nat) {q : Nat} (hq : 0 < q) (m : Nat) :
    (m + 3) * 2 ^ 52 ≤ roundBits p q ↔ (2 ^ 54 - 1) * (q * 2 ^ m) ≤ p := by
  have hlt := lt_roundShift p hq
  have hn := roundSig_le p hq
  rw [roundBits_eq]
  obtain hs | hs | hs : roundShift p q ≤ m ∨ roundShift p q = m + 1 ∨ m + 2 ≤ roundShift p q := by omega
  · have hulp : q * 2 ^ roundShift p q ≤ q * 2 ^ m := Nat.mul_le_mul_left q (Nat.pow_le_pow_right (by decide) hs)
    have hpos := Nat.mul_pos hq (Nat.two_pow_pos m)
    omega
  · -- here it does exactly if the significand rounds up to 2^53, from the odd 2^53 - 1
    have htie := lt_nearestEven_iff (p := p) (k := 2 ^ 53 - 1) (roundUlp_pos p hq) (by decide)
    have hulp : q * 2 ^ roundShift p q = 2 * (q * 2 ^ m) := by rw [hs, Nat.pow_succ]; ring
    rw [← roundSig, hulp] at htie
    omega
  · have hulp : q * 2 ^ (m + 2) ≤ q * 2 ^ roundShift p q := Nat.mul_le_mul_left q (Nat.pow_le_pow_right (by decide) hs)
    have hpow : q * 2 ^ (m + 2) = 4 * (q * 2 ^ m) := by rw [Nat.pow_add]; ring
    have hle : 2 ^ 52 * (q * 2 ^ roundShift p q) ≤ p := roundShift_le (by omega)
    have hn' : 2 ^ 52 ≤ roundSig p q := le_roundSig hq (by omega)
    omega

/-! ### The rounded value -/

/-- The units of a value, seen from the sign of the exact result. -/
def signedUnits (neg : Bool) (v : Word) : ℤ := if neg then -units v else units v

theorem natAbs_signedUnits (neg : Bool) (v : Word) : (signedUnits neg v).natAbs = magUnits v := by
  cases neg <;> simp [signedUnits, natAbs_units]

/-- Seen from a sign too, a value is a multiple of `2^k` or below the magnitudes whose last place is `2^k`. -/
theorem signedUnits_grid (neg : Bool) (v : Word) (k : Nat) :
    2 ^ k ∣ signedUnits neg v ∨ (k ≠ 0 ∧ signedUnits neg v < 2 ^ (52 + k)) := by
  refine (magUnits_grid v k).imp (fun h => ?_) (fun ⟨h0, h⟩ => ⟨h0, ?_⟩)
  · rw [← natAbs_signedUnits neg] at h
    exact_mod_cast Int.natCast_dvd.2 h
  · rw [← natAbs_signedUnits neg] at h
    have : ((signedUnits neg v).natAbs : ℤ) < 2 ^ (52 + k) := by exact_mod_cast h
    omega

/-- The exact result that `roundTo64` rounds: `±p/q` units of 2^-1074. -/
def exactResult (neg : Bool) (p q : Nat) : ℚ := (if neg then -1 else 1) * ((p : ℚ) / q) / 2 ^ 1074

theorem exactResult_neg_iff (neg : Bool) {p q : Nat} (hp : 0 < p) (hq : 0 < q) : exactResult neg p q < 0 ↔ neg = true := by
  have : (0 : ℚ) < (p : ℚ) / q / 2 ^ 1074 := by positivity
  cases neg
  · simp only [exactResult, Bool.false_eq_true, if_false, one_mul, iff_false]
    exact not_lt.2 this.le
  · simp only [exactResult, if_true, neg_mul, one_mul, neg_div, iff_true]
    exact neg_lt_zero.2 this

theorem abs_exactResult (neg : Bool) (p q : Nat) : |exactResult neg p q| = (p : ℚ) / q / 2 ^ 1074 := by
  have h : (0 : ℚ) ≤ (p : ℚ) / q / 2 ^ 1074 := by positivity
  cases neg
  · simp only [exactResult, Bool.false_eq_true, if_false, one_mul, abs_of_nonneg h]
  · simp only [exactResult, if_true, neg_mul, one_mul, neg_div, abs_neg, abs_of_nonneg h]

/-- The distance of a value to the exact result, as a distance of integers. -/
theorem abs_fvalue_sub_exactResult (neg : Bool) (p : Nat) {q : Nat} (hq : 0 < q) (v : Word) :
    |fvalue v - exactResult neg p q| = ((|signedUnits neg v * q - p| : ℤ) : ℚ) / (q * 2 ^ 1074) := by
  have hpos : (0 : ℚ) < q * 2 ^ 1074 := by positivity
  have hunit : (fvalue v - exactResult neg p q) * (q * 2 ^ 1074) = units v * q - (if neg then -1 else 1) * p := by
    unfold fvalue exactResult
    field_simp
  have hscaled : |fvalue v - exactResult neg p q| * (q * 2 ^ 1074) = |(fvalue v - exactResult neg p q) * (q * 2 ^ 1074)| := by
    rw [abs_mul, abs_of_pos hpos]
  rw [eq_div_iff hpos.ne', hscaled, hunit, Int.cast_abs]
  cases neg
  · simp [signedUnits]
  · rw [← abs_neg, signedUnits, if_pos rfl, if_pos rfl]
    push_cast
    ring_nf

/-- In units too, the result overflows exactly from the bound on. -/
theorem overflowBound_le_iff (neg : Bool) (p : Nat) {q : Nat} (hq : 0 < q) :
    overflowBound ≤ |exactResult neg p q| ↔ 0x7FF0000000000000 ≤ roundBits p q := by
  have hq' : (0 : ℚ) < q := by exact_mod_cast hq
  have hbound : overflowBound * 2 ^ 1074 = ((2 ^ 54 - 1 : ℕ) : ℚ) * 2 ^ 2044 := by
    rw [overflowBound, sub_mul, Nat.cast_sub (by decide), Nat.cast_pow, Nat.cast_ofNat, Nat.cast_one, sub_mul, one_mul, ← pow_add, ← pow_add,
      ← pow_add]
  have hinf : 0x7FF0000000000000 = (2044 + 3) * 2 ^ 52 := by decide
  rw [hinf, le_roundBits_iff p hq, abs_exactResult, le_div_iff₀ (by positivity), le_div_iff₀ hq', hbound, ← @Nat.cast_le ℚ]
  rw [Nat.cast_mul, Nat.cast_mul, Nat.cast_pow, Nat.cast_ofNat, mul_comm (q : ℚ), ← mul_assoc]

/-- A finite rounded result has the computed magnitude, on the side of its sign. -/
theorem signedUnits_roundTo64 (neg : Bool) (p : Nat) {q : Nat} (hq : 0 < q) (h : roundBits p q < 0x7FF0000000000000) :
    signedUnits neg (roundTo64 neg p q) = roundSig p q * 2 ^ roundShift p q := by
  obtain ⟨h', -⟩ | ⟨-, -, hs, he, hf⟩ := roundTo64_cases neg p q
  · omega
  have hmag : magUnits (roundTo64 neg p q) = roundSig p q * 2 ^ roundShift p q := by
    rw [← bitsUnits_roundBits p hq, magUnits, bitsUnits, he, hf]
  have hunits : signedUnits neg (roundTo64 neg p q) = magUnits (roundTo64 neg p q) := by
    cases neg <;> simp [signedUnits, units]
  rw [hunits, hmag]
  push_cast
  rfl

/-- The last bit of a finite rounded result is that of its significand. -/
theorem roundTo64_toNat_mod_two (neg : Bool) {p q : Nat} (h : roundBits p q < 0x7FF0000000000000) :
    (roundTo64 neg p q).toNat % 2 = roundSig p q % 2 := by
  obtain ⟨h', -⟩ | ⟨-, -, -, -, hf⟩ := roundTo64_cases neg p q
  · omega
  rw [roundBits_eq] at hf
  unfold ffrac at hf
  omega

/-- Settles O48: the exact result overflows where the computed bits do, and below that the computed significand is nearest on the grid of
its last place, a tie leaving it even. -/
theorem roundingIsNearestEven : Obligations.RoundingIsNearestEven := by
  intro neg p q hp hq
  change IsRounded (exactResult neg p q) _
  have hsign : decide (exactResult neg p q < 0) = neg := by simp [exactResult_neg_iff neg hp hq]
  have hscale : (0 : ℚ) < q * 2 ^ 1074 := by positivity
  rw [IsRounded, hsign]
  refine ⟨fun h => ?_, fun h => ?_⟩
  · exact if_pos ((overflowBound_le_iff neg p hq).1 h)
  have hb : roundBits p q < 0x7FF0000000000000 := by
    rw [← not_le, ← overflowBound_le_iff neg p hq, not_le]
    exact h
  have hfin : isFinite (roundTo64 neg p q) = true := by
    obtain ⟨h', -⟩ | ⟨-, h', -⟩ := roundTo64_cases neg p q
    · omega
    · exact h'
  have hw := signedUnits_roundTo64 neg p hq hb
  refine ⟨hfin, fsign_roundTo64 neg p q, fun y _ => ?_, fun y _ hne htie => ?_⟩
  · rw [abs_fvalue_sub_exactResult neg p hq, abs_fvalue_sub_exactResult neg p hq, hw]
    exact div_le_div_of_nonneg_right (by exact_mod_cast (roundSig_nearest p hq (signedUnits_grid neg y _)).1) hscale.le
  · rw [abs_fvalue_sub_exactResult neg p hq, abs_fvalue_sub_exactResult neg p hq, hw, div_left_inj' hscale.ne', Int.cast_inj] at htie
    rw [roundTo64_toNat_mod_two neg hb]
    obtain heq | heven := (roundSig_nearest p hq (signedUnits_grid neg y _)).2 htie
    · -- the same number of units is the same word, unless both are zeros
      by_contra hodd
      rw [← hw] at heq
      refine hne (eq_of_units_eq ?_ fun h0 => ?_)
      · cases neg <;> simpa [signedUnits] using heq
      · have hzero : signedUnits neg (roundTo64 neg p q) = 0 := by simp [signedUnits, h0]
        rw [hw] at hzero
        have : roundSig p q = 0 := by simpa using hzero
        omega
    · exact heven

end Sys2Proof.Machine
end

section
/-! SUPPORT. The command word: the fields of an encoded command, and what is needed of the decoder to run one (R50 to R53). -/

namespace Sys2Proof

theorem opcode_lt (i : Instr) : i.opcode < 2 ^ 8 := by cases i <;> simp [Instr.opcode]

theorem stageField_lt {i : Instr} (h : i.wellFormed = true) : i.stageField < 2 ^ 6 := by
  cases i with
  | stage s inv => exact of_decide_eq_true h
  | twid s inv => exact of_decide_eq_true h
  | _ => exact Nat.zero_lt_succ _

/-- The fields of an encoded well-formed command: OPC, S, INV, RSV (R50, R53). -/
theorem field_encode {i : Instr} (h : i.wellFormed = true) :
    field (encode i) 0 8 = i.opcode ∧ field (encode i) 8 6 = i.stageField ∧ field (encode i) 14 1 = i.invField.toNat ∧
      field (encode i) 15 49 = 0 := by
  have hopc := opcode_lt i
  have hs := stageField_lt h
  unfold field encode
  rw [BitVec.toNat_ofNat]
  cases i.invField <;> simp only [Bool.false_eq_true, if_false, if_true, Bool.toNat_false, Bool.toNat_true] <;> omega

/-- Decoding an encoded command gives the command back (R52, R53). -/
theorem decode_encode {i : Instr} (h : i.wellFormed = true) : decode (encode i) = .ok i := by
  obtain ⟨hopc, hs, hinv, hrsv⟩ := field_encode h
  cases i with
  | stage s inv => cases inv <;> simp [decode, hopc, hs, hinv, hrsv, Instr.opcode, Instr.stageField, Instr.invField]
  | twid s inv => cases inv <;> simp [decode, hopc, hs, hinv, hrsv, Instr.opcode, Instr.stageField, Instr.invField]
  | _ => rfl

theorem mem_plainOpcodes_of_plainOp {opc : Nat} {i : Instr} (h : plainOp opc = some i) : opc ∈ plainOpcodes := by
  by_contra hn
  simp only [plainOpcodes, List.mem_cons, List.not_mem_nil, or_false, not_or] at hn
  simp [plainOp, hn] at h

/-- A word that decodes is legal (R53). -/
theorem legalWord_of_decode {w : Word} {i : Instr} (h : decode w = .ok i) : legalWord w = true := by
  unfold decode at h
  split at h
  · cases h
  · next hrsv =>
    simp only [legalWord, not_not.1 hrsv, beq_self_eq_true, Bool.true_and, Bool.or_eq_true, Bool.and_eq_true, beq_iff_eq,
      List.contains_iff_mem]
    split at h
    · exact .inl (.inl ‹_›)
    · split at h
      · exact .inl (.inr ‹_›)
      · split at h
        · cases h
        · next hplain =>
          split at h
          · exact .inr ⟨mem_plainOpcodes_of_plainOp hplain, ‹_›⟩
          · cases h

/-- A word that is not legal does not decode (R53, R54). -/
theorem decode_of_not_legalWord {w : Word} (h : legalWord w = false) : ∃ e, decode w = .error e := by
  cases hd : decode w with
  | error e => exact ⟨e, rfl⟩
  | ok i => exact absurd (legalWord_of_decode hd) (by simp [h])

end Sys2Proof
end

section
/-! SUPPORT. The engine's turn while BUSY (O5, O6), and what every completion leaves unchanged (O21). -/

namespace Sys2Proof.Machine

/-- A completion with an error code is the state that the claims name (R26, R143). -/
theorem complete_eq_failedWith (s : State) {c : ErrorCode} (h : c ≠ .none) (k : Nat) : s.complete c k = failedWith s c k := by
  simp [State.complete, Status.completed, failedWith, h]

theorem engineStep_of_decode_ok {s : State} {i : Instr} (hb : s.status.busy = true) (hd : decode s.latch.cmd = .ok i) :
    engineStep s = exec i s := by
  simp [engineStep, hb, hd]

theorem engineStep_of_not_legalWord {s : State} (hb : s.status.busy = true) (hl : legalWord s.latch.cmd = false) :
    engineStep s = .next (failedWith s .illegalCommand 0) := by
  obtain ⟨e, he⟩ := decode_of_not_legalWord hl
  simp [engineStep, hb, he, complete_eq_failedWith]

/-- A busy engine goes first where no turn is prescribed (log entry 5). -/
theorem step_eq_engineStep_of_busy {s : State} (hb : s.status.busy = true) (hs : s.schedule = []) : step s = engineStep s := by
  simp [step, hs, freeTurn, hb, takeTurn]

theorem step_eq_engineStep_of_turn {s : State} {rest : List Turn} (hs : s.schedule = .engine :: rest) :
    step s = engineStep { s with schedule := rest } := by
  simp [step, hs, takeTurn]

/-- Placing a word of full width is loading it (log entry 6). -/
theorem withFetchWord_toNat (s : State) (w : Word) : s.withFetchWord 64 w.toNat = s.load w := by
  rw [State.withFetchWord, Nat.mod_eq_of_lt w.isLt, BitVec.ofNat_toNat, BitVec.setWidth_eq]

/-- Settles O5: the step is the engine's turn, which decodes the latched word; a prescribed turn is used up first. -/
theorem busyStepRunsDecodedCommand : Obligations.BusyStepRunsDecodedCommand := by
  intro s hb
  refine ⟨step_eq_engineStep_of_busy hb, fun rest => step_eq_engineStep_of_turn, fun i hd => ?_, fun hl => ?_⟩
  · have hturn := engineStep_of_decode_ok hb hd
    exact ⟨hturn, fun hs => (step_eq_engineStep_of_busy hb hs).trans hturn,
      fun rest hs => (step_eq_engineStep_of_turn hs).trans (engineStep_of_decode_ok hb hd)⟩
  · have hturn := engineStep_of_not_legalWord hb hl
    exact ⟨hturn, fun hs => (step_eq_engineStep_of_busy hb hs).trans hturn,
      fun rest hs => (step_eq_engineStep_of_turn hs).trans (engineStep_of_not_legalWord hb hl)⟩

/-- Settles O6: loading accepts the word and gives the engine the turn, which decodes the word back to the command. -/
theorem placedWordRunsNext : Obligations.PlacedWordRunsNext := by
  intro s i hi
  rw [withFetchWord_toNat, step_eq_engineStep_of_turn (load_schedule s (encode i))]
  exact engineStep_of_decode_ok rfl (decode_encode hi)

/-- Settles O21: whatever a command leaves is a completion, of the state itself or of one that differs in data memory only. -/
theorem everyCommandKeepsItsFrame : Obligations.EveryCommandKeepsItsFrame := by
  intro i s t h
  have hframe (m : Memory) (c : ErrorCode) (k : Nat) : SameOutside s ({ s with dmem := m }.complete c k) := ⟨rfl, rfl, rfl, rfl, rfl⟩
  obtain ⟨ys, -, rfl⟩ | ⟨c, k, -, -, rfl⟩ := exec_leaves h
  · exact ⟨hframe _ _ _, by simp⟩
  · exact ⟨hframe s.dmem c k, by simp⟩

end Sys2Proof.Machine
end

section
/-! SUPPORT. The register page: accesses at a register's own address, what a register write leaves (O13 to O15), and the host's turn while a
command runs (O58). -/

namespace Sys2Proof.Machine

/-! ### Accesses -/

/-- A read at a register's own address returns its value and has no effect (R37, R40). -/
theorem memRead_reg (s : State) (r : Reg) : memRead s (s.params.base + r.offset) 8 = .ok (readReg s r, s) := by
  simp [memRead, route_reg]

/-- A write at a register's own address is the write of that register (R37). -/
theorem memWrite_reg (s : State) (r : Reg) (v : Word) : memWrite s (s.params.base + r.offset) 8 v = .ok (writeReg s r v) := by
  simp [memWrite, route_reg]

/-! ### What a register write leaves -/

theorem writeReg_cmd_of_idle {s : State} (h : s.status.busy = false) (v : Word) : writeReg s .cmd v = s.accept v := by
  simp [writeReg, h]

theorem writeReg_cmd_of_busy {s : State} (h : s.status.busy = true) (v : Word) : writeReg s .cmd v = s.hazard := by
  simp [writeReg, h]

@[simp] theorem writeReg_params (s : State) (r : Reg) (v : Word) : (writeReg s r v).params = s.params := by
  obtain e | ⟨-, e⟩ | ⟨-, -, e⟩ | ⟨-, -, e⟩ | ⟨g, -, e⟩ := writeReg_cases s r v <;> simp [e]

@[simp] theorem writeReg_dmem (s : State) (r : Reg) (v : Word) : (writeReg s r v).dmem = s.dmem := by
  obtain e | ⟨-, e⟩ | ⟨-, -, e⟩ | ⟨-, -, e⟩ | ⟨g, -, e⟩ := writeReg_cases s r v <;> simp [e]

/-- Only an accepted command changes the latch (R25). -/
theorem writeReg_latch {s : State} {r : Reg} (h : r ≠ .cmd ∨ s.status.busy = true) (v : Word) : (writeReg s r v).latch = s.latch := by
  obtain e | ⟨-, e⟩ | ⟨-, -, e⟩ | ⟨hr, hb, -⟩ | ⟨g, -, e⟩ := writeReg_cases s r v
  case inr.inr.inr.inl => simp [hr, hb] at h
  all_goals simp [e]

/-- While a command runs, no register write touches what it needs (R25, R180). -/
theorem writeReg_of_busy {s : State} (h : s.status.busy = true) (r : Reg) (v : Word) :
    (writeReg s r v).status.busy = true ∧ (writeReg s r v).status.errcode = s.status.errcode ∧ (writeReg s r v).regs.cmd = s.regs.cmd := by
  obtain e | ⟨-, e⟩ | ⟨-, -, e⟩ | ⟨-, hb, -⟩ | ⟨g, hg, e⟩ := writeReg_cases s r v
  · rw [e]; exact ⟨h, rfl, rfl⟩
  · rw [e]; exact ⟨h, rfl, rfl⟩
  · rw [e]; exact ⟨h, rfl, rfl⟩
  · exact absurd h (by simp [hb])
  · rw [e]; exact ⟨h, rfl, hg⟩

/-- The registers that hold what the host writes, every bit of it (R22 to R24). -/
def operandRegs : List Reg := [.len, .srca, .srcb, .dst, .scalar]

theorem readReg_writeReg_operand (s : State) {r : Reg} (h : r ∈ operandRegs) (v : Word) : readReg (writeReg s r v) r = v := by
  simp only [operandRegs, List.mem_cons, List.not_mem_nil, or_false] at h
  obtain rfl | rfl | rfl | rfl | rfl := h <;> rfl

/-- A stored register is no other register's; IRQEN shows in STATUS.IRQ too (R15, R150). -/
theorem readReg_writeReg_other (s : State) {r r' : Reg} (hr : r ∈ Reg.irqen :: operandRegs) (h : r' ≠ r)
    (hs : r = .irqen → r' ≠ .status) (v : Word) : readReg (writeReg s r v) r' = readReg s r' := by
  simp only [operandRegs, List.mem_cons, List.not_mem_nil, or_false] at hr
  obtain rfl | rfl | rfl | rfl | rfl | rfl := hr <;> cases r' <;> simp_all [readReg, writeReg]

/-- IRQEN stores three bits (R20). -/
theorem readReg_writeReg_irqen (s : State) (v : Word) : readReg (writeReg s .irqen v) .irqen = BitVec.ofNat 64 (v.toNat % 8) := by
  apply BitVec.eq_of_toNat_eq
  simp [readReg, writeReg]

/-- Settles O13: the write reaches STATUS, which clears what R18 says. -/
theorem statusWriteClearsFlags : Obligations.StatusWriteClearsFlags := fun s v => memWrite_reg s .status v

/-- Settles O14: an access at an offset of R15 reaches its register, and a write leaves every other register as it was. -/
theorem registerWritesReadBack : Obligations.RegisterWritesReadBack := by
  intro s v
  refine ⟨?_, ?_, fun r hr => ?_, ?_, ?_⟩
  · have hoff : ∀ p ∈ [(0x000, Reg.id), (0x008, .cfg), (0x010, .status), (0x018, .erridx), (0x020, .irqen), (0x028, .cmd), (0x030, .len),
        (0x038, .srca), (0x040, .srcb), (0x048, .dst), (0x050, .scalar)], p.1 = p.2.offset := by decide
    intro p hp
    rw [hoff p hp]
    exact ⟨memRead_reg s p.2, memWrite_reg s p.2 v⟩
  · refine ⟨rfl, ?_, rfl, rfl, rfl, rfl, rfl, rfl⟩
    exact BitVec.eq_of_toNat_eq (by simp [readReg])
  · have hcmd : r ≠ .cmd := by rintro rfl; simp at hr
    have hirqen : r ≠ .irqen := by rintro rfl; simp at hr
    exact ⟨readReg_writeReg_operand s hr v, fun r' h => readReg_writeReg_other s (.tail _ hr) h (fun e => absurd e hirqen) v,
      writeReg_latch (.inl hcmd) v, writeReg_dmem s r v⟩
  · exact ⟨readReg_writeReg_irqen s v, fun r' h hs => readReg_writeReg_other s (.head _) h (fun _ => hs) v, rfl, rfl, rfl⟩
  · intro r hr
    simp only [List.mem_cons, List.not_mem_nil, or_false] at hr
    obtain rfl | rfl | rfl := hr <;> rfl

/-- Settles O15: the write reaches CMD, which accepts the word or raises HAZ. -/
theorem commandWriteIsAcceptedOrRefused : Obligations.CommandWriteIsAcceptedOrRefused := by
  intro s v
  have haddr : memWrite s (s.params.base + 0x028) 8 v = .ok (writeReg s .cmd v) := memWrite_reg s .cmd v
  refine ⟨fun hb => ⟨s.accept v, ?_, rfl, rfl⟩, fun hb => ?_⟩
  · rw [haddr, writeReg_cmd_of_idle hb]
  · rw [haddr, writeReg_cmd_of_busy hb]
    rfl

/-- Settles O58: while BUSY a host turn raises HAZ, writes a register or does nothing; it reaches data memory only while idle. -/
theorem hostCannotDisturbARunningCommand : Obligations.HostCannotDisturbARunningCommand := by
  intro s t hb hst
  obtain ⟨u, g, rfl, hu⟩ := hostStep_cases hst
  obtain rfl | ⟨-, rfl⟩ | ⟨r, v, -, rfl⟩ | ⟨-, -, -, -, hidle, -⟩ := hu
  · exact ⟨rfl, rfl, hb, rfl, rfl, rfl⟩
  · exact ⟨rfl, rfl, hb, rfl, rfl, rfl⟩
  · obtain ⟨hbusy, hcode, hcmd⟩ := writeReg_of_busy hb r v
    exact ⟨writeReg_latch (.inr hb) v, writeReg_dmem s r v, hbusy, hcode, hcmd, writeReg_params s r v⟩
  · exact absurd hb (by simp [hidle])

end Sys2Proof.Machine
end

section
/-! SUPPORT. The words of the read-only registers: CFG, the reset values and STATUS (O9 to O11), and that no step changes the parameters. -/

namespace Sys2Proof.Machine

/-! ### CFG and the parameters -/

theorem field_cfgWord (p : Params) :
    field (cfgWord p) 0 8 = p.log2Nmax % 2 ^ 8 ∧ field (cfgWord p) 8 8 = p.log2Dmem % 2 ^ 8 ∧
      field (cfgWord p) 16 2 = twModeNumber p.twmode ∧ field (cfgWord p) 18 46 = 0 := by
  have hmode : twModeNumber p.twmode ≤ 2 := by cases p.twmode <;> decide
  unfold field cfgWord
  rw [BitVec.toNat_ofNat]
  omega

theorem hostStep_params {s t : State} (h : hostStep s = .next t) : t.params = s.params := by
  obtain ⟨u, g, rfl, hu⟩ := hostStep_cases h
  obtain rfl | ⟨-, rfl⟩ | ⟨r, v, -, rfl⟩ | ⟨_, _, _, -, -, rfl⟩ := hu
  · rfl
  · rfl
  · exact writeReg_params s r v
  · rfl

theorem engineStep_params {s t : State} (h : engineStep s = .next t) : t.params = s.params := by
  obtain ⟨-, rfl⟩ | ⟨-, i, -, hi⟩ | ⟨-, -, rfl⟩ := engineStep_cases h
  · rfl
  · obtain ⟨⟨hp, -⟩, -⟩ := everyCommandKeepsItsFrame i s t hi
    exact hp
  · rfl

theorem takeTurn_params {s t : State} (turn : Turn) (h : takeTurn s turn = .next t) : t.params = s.params := by
  cases turn with
  | host => exact hostStep_params h
  | engine => exact engineStep_params h
  | reset => cases h; rfl

/-- No step changes the parameters (R5, log entry 1). -/
theorem step_params {s t : State} (h : step s = .next t) : t.params = s.params := by
  obtain ⟨turn, rest, hturn, -⟩ := step_cases h
  exact takeTurn_params (s := { s with schedule := rest }) turn hturn

/-- CFG shows the parameters and nothing else of the state (R17). -/
theorem readReg_cfg_congr {s t : State} (h : t.params = s.params) : readReg t .cfg = readReg s .cfg := congrArg cfgWord h

/-- Settles O10: ID is written out, CFG is a word of the parameters alone, and these no write and no step changes. -/
theorem idAndCfgAreConstant : Obligations.IdAndCfgAreConstant := by
  intro s
  obtain ⟨hn, hd, hmode, hrest⟩ := field_cfgWord s.params
  refine ⟨rfl, ?_, ?_, hrest, ?_, fun r v => ⟨readReg_cfg_congr (writeReg_params s r v), rfl⟩,
    fun t h => ⟨readReg_cfg_congr (step_params h), rfl⟩⟩
  · rintro ⟨-, h1, h2, h3, -⟩
    exact ⟨hn.trans (Nat.mod_eq_of_lt (by omega)), hd.trans (Nat.mod_eq_of_lt (by omega))⟩
  · rw [readReg, hmode]
    cases s.params.twmode <;> rfl
  · intro h
    rw [readReg, h]
    rfl

/-! ### Reset -/

theorem readWord_nil (a : Nat) : Memory.readWord [] a = none := rfl

/-- Settles O9: the reset state's registers are written out, and its data memory lists no byte. -/
theorem resetRegisterValues : Obligations.ResetRegisterValues := by
  refine ⟨rfl, rfl, fun r hid hcfg => ?_, fun e => ⟨readWord_nil _, readWord_nil _⟩⟩
  cases r with
  | id => exact absurd rfl hid
  | cfg => exact absurd rfl hcfg
  | _ => rfl

/-! ### STATUS -/

theorem getLsbD_eq_field (v : Word) (k : Nat) : v.getLsbD k = decide (field v k 1 = 1) := by
  rw [BitVec.getLsbD, Nat.testBit_eq_decide_div_mod_eq]
  rfl

theorem flagAt_eq (b : Bool) (k : Nat) : flagAt b k = 2 ^ k * b.toNat := by cases b <;> simp [flagAt]

theorem errorCode_number_le (c : ErrorCode) : c.number ≤ 6 := by cases c <;> decide

/-- The fields of the STATUS word, reserved ones included (R18, R28). -/
theorem field_statusWord (st : Status) (irqen : BitVec 3) :
    field (statusWord st irqen) 0 1 = st.busy.toNat ∧ field (statusWord st irqen) 1 1 = st.done.toNat ∧
      field (statusWord st irqen) 2 1 = st.err.toNat ∧ field (statusWord st irqen) 3 1 = st.haz.toNat ∧
      field (statusWord st irqen) 4 1 = (irq st irqen).toNat ∧ field (statusWord st irqen) 5 3 = 0 ∧
      field (statusWord st irqen) 8 4 = st.errcode.number ∧ field (statusWord st irqen) 12 52 = 0 := by
  have hbusy := st.busy.toNat_le
  have hdone := st.done.toNat_le
  have herr := st.err.toNat_le
  have hhaz := st.haz.toNat_le
  have hirq := (irq st irqen).toNat_le
  have hcode := errorCode_number_le st.errcode
  unfold field statusWord
  simp only [flagAt_eq, BitVec.toNat_ofNat]
  omega

theorem getLsbD_of_field_eq {v : Word} {k : Nat} {b : Bool} (h : field v k 1 = b.toNat) : v.getLsbD k = b := by
  rw [getLsbD_eq_field, h]
  cases b <;> rfl

/-- Settles O11: each bit and field of the STATUS word is a field of its value. -/
theorem statusWordLayout : Obligations.StatusWordLayout := by
  intro s
  obtain ⟨hbusy, hdone, herr, hhaz, hirq, hlow, hcode, hhigh⟩ := field_statusWord s.status s.regs.irqen
  refine ⟨getLsbD_of_field_eq hbusy, getLsbD_of_field_eq hdone, getLsbD_of_field_eq herr, getLsbD_of_field_eq hhaz,
    getLsbD_of_field_eq hirq, hlow, ?_, hhigh⟩
  rw [readReg, hcode]
  cases s.status.errcode <;> rfl

end Sys2Proof.Machine
end

section
/-! SUPPORT. The data-memory window and bus errors (O17 to O19), and the faults of commands that read what nothing has written (O24, O28). -/

namespace Sys2Proof.Machine

/-! ### Window accesses of an idle block -/

theorem halfAddr_eq (e : Nat) (hi : Bool) : halfAddr e hi = 16 * e + (if hi then 8 else 0) := by cases hi <;> rfl

/-- The bus address of a half, as the claims write it, is the one that `route_half` speaks of (R32). -/
theorem windowAddr_eq (base e : Nat) (hi : Bool) :
    base + 0x01000000 + 16 * e + (if hi then 8 else 0) = base + (windowOffset + halfAddr e hi) := by
  rw [halfAddr_eq, windowOffset]
  omega

section
variable {s : State} {e : Nat} (hp : s.params.legal) (he : e < s.params.dmemEntries) (hb : s.status.busy = false) (hi : Bool)
include hp he hb

/-- While idle a window write stores its half (R37). -/
theorem memWrite_half_of_idle (v : Word) :
    memWrite s (s.params.base + (windowOffset + halfAddr e hi)) 8 v = .ok { s with dmem := s.dmem.writeWord (halfAddr e hi) v } := by
  simp [memWrite, route_half hp hi he, hb]

/-- While idle a window read returns a written half and has no effect (R37, R40). -/
theorem memRead_half_of_written {w : Word} (hw : s.dmem.readWord (halfAddr e hi) = some w) :
    memRead s (s.params.base + (windowOffset + halfAddr e hi)) 8 = .ok (w, s) := by
  simp [memRead, route_half hp hi he, hb, hw]

/-- While idle a window read of a half never written is the model fault (R46). -/
theorem memRead_half_of_unwritten (hw : s.dmem.readWord (halfAddr e hi) = none) :
    memRead s (s.params.base + (windowOffset + halfAddr e hi)) 8 = .error (.uninitRead e) := by
  simp [memRead, route_half hp hi he, hb, hw]

end

/-- Settles O17: the write stores one half of data memory, whose bytes alone change and which reads back. -/
theorem windowWriteThenRead : Obligations.WindowWriteThenRead := by
  intro s e hi v hp he hb
  rw [windowAddr_eq]
  refine ⟨_, memWrite_half_of_idle hp he hb hi v, ?_, fun a ha => ?_, ⟨rfl, rfl, rfl, rfl, rfl⟩, rfl, rfl⟩
  · exact memRead_half_of_written (s := { s with dmem := s.dmem.writeWord (halfAddr e hi) v }) hp he hb hi (readWord_writeWord_same ..)
  · rw [← halfAddr_eq] at ha
    exact read_writeWord_other _ _ ha

/-- Settles O19: the access reaches its half, which is there to return or was never written. -/
theorem unwrittenWindowReadFaults : Obligations.UnwrittenWindowReadFaults := by
  intro s e hi hp he hb
  rw [windowAddr_eq, ← halfAddr_eq]
  exact ⟨memRead_half_of_unwritten hp he hb hi, fun _ => memRead_half_of_written hp he hb hi⟩

/-! ### Bus errors -/

/-- The offsets that reach nothing: above the registers and outside the window (R31). -/
theorem targetOf_eq_none {p : Params} {off : Nat} :
    targetOf p off = none ↔ (0x58 ≤ off ∧ off < windowOffset) ∨ windowOffset + 16 * p.dmemEntries ≤ off := by
  have hwin : 0x58 ≤ windowOffset := by decide
  unfold targetOf
  split
  · next hreg =>
    have hlen : off / 8 < allRegs.length := by
      have : allRegs.length = 11 := rfl
      omega
    rw [List.getElem?_eq_getElem hlen]
    exact iff_of_false (by simp) (by omega)
  · split
    · exact iff_of_false (by simp) (by omega)
    · exact iff_of_true rfl (by omega)

/-- Inside the block's space an access is routed to nothing exactly on the conditions of R33. -/
theorem route_eq_busError {p : Params} {off : Nat} (h : off < blockSize) (size : Nat) :
    route p (p.base + off) size = .error (.busError (p.base + off) size) ↔
      size ≠ 8 ∨ off % 8 ≠ 0 ∨ (0x58 ≤ off ∧ off < windowOffset) ∨ windowOffset + 16 * p.dmemEntries ≤ off := by
  rw [← targetOf_eq_none]
  by_cases hbad : size ≠ 8 ∨ off % 8 ≠ 0
  · unfold route
    rw [if_neg (by omega), Nat.add_sub_cancel_left, if_pos hbad]
    exact iff_of_true rfl (by tauto)
  · obtain ⟨rfl, halign⟩ : size = 8 ∧ off % 8 = 0 := by omega
    rw [route_inside h halign]
    cases targetOf p off <;> simp [halign]

/-- A read is a bus error exactly if its address is routed to nothing: the fault of an unwritten half is another one. -/
theorem memRead_eq_busError {s : State} {addr size a z : Nat} :
    memRead s addr size = .error (.busError a z) ↔ route s.params addr size = .error (.busError a z) := by
  unfold memRead
  split
  · next hr => simp [hr]
  · next hr => simp [hr]
  · next hr =>
    rw [hr]
    split
    · simp
    · split <;> simp

/-- A write is a bus error exactly if its address is routed to nothing. -/
theorem memWrite_eq_busError {s : State} {addr size a z : Nat} {v : Word} :
    memWrite s addr size v = .error (.busError a z) ↔ route s.params addr size = .error (.busError a z) := by
  unfold memWrite
  split
  · next hr => simp [hr]
  · next hr => simp [hr]
  · next hr =>
    rw [hr]
    split <;> simp

/-- Settles O18: reads and writes fail with a bus error where the address decoding does. -/
theorem busErrorsExactly : Obligations.BusErrorsExactly := by
  intro s off size v _ hoff
  exact ⟨memRead_eq_busError.trans (route_eq_busError hoff size), memWrite_eq_busError.trans (route_eq_busError hoff size)⟩

/-! ### The faults of commands -/

/-- Settles O24: every command ends in `finish`, which completes or names a half never written. -/
theorem commandsAreNeverRefused : Obligations.CommandsAreNeverRefused := by
  intro i s
  obtain ⟨r, hr⟩ := exec_eq_finish i s
  rw [hr]
  obtain ⟨_, -, h⟩ | ⟨_, _, -, h⟩ | ⟨e, -, h⟩ := finish_cases s r
  · exact .inl ⟨_, h⟩
  · exact .inl ⟨_, h⟩
  · exact .inr ⟨e, h⟩

/-- A transform that fits passes its checks; so does one of its stages (R90). -/
theorem checkTransform_of_admits {s : State} {L : Nat} (h : TransformAdmits s L (2 ^ L)) {stage : Option Nat}
    (hst : ∀ st, stage = some st → 1 ≤ st ∧ st ≤ L) :
    checkTransform s.params s.latch.n stage (some s.latch.a) s.latch.d s.latch.n = none := by
  obtain ⟨hn, hL, ha, hd⟩ := h
  rw [checkTransform_eq_none, hn, Nat.log2_two_pow]
  refine ⟨pow2_iff.2 ⟨L, rfl⟩, hst, Nat.pow_le_pow_right (by decide) hL, fun a hsrc => ?_, hd⟩
  cases hsrc
  exact ha

/-- The transform form stops at the first source entry never written (R46). -/
theorem transform_unwritten {s : State} {stage : Option Nat} (f : List Cplx → List Cplx) {k : Nat}
    (hc : checkTransform s.params s.latch.n stage (some s.latch.a) s.latch.d s.latch.n = none) (hk : k < s.latch.n)
    (hnone : s.dmem.readEntry (s.latch.a + k) = none) (hbefore : ∀ j, j < k → s.dmem.readEntry (s.latch.a + j) ≠ none) :
    transform s stage f = .error (.uninit (s.latch.a + k)) := by
  have hstop : lanes (fun i => dRead s.dmem (s.latch.a + i)) s.latch.n 0 = .error (.uninit (s.latch.a + k)) := by
    simp only [lanes_eq_error, Nat.zero_add, dRead_eq_ok, dRead_eq_error]
    exact ⟨k, hk, ⟨hnone, rfl⟩, fun j hj => Option.ne_none_iff_exists'.1 (hbefore j hj)⟩
  simp only [transform, hc, hstop]

/-- The elementwise form stops at the first lane that does. -/
theorem elementwise_error {s : State} {srcs : List Nat} {lane : Nat → Except Stop Cplx} {k : Nat} {st : Stop}
    (hc : VectorAdmits s srcs) (hk : k < s.latch.n) (hstop : lane k = .error st) (hbefore : ∀ j, j < k → ∃ z, lane j = .ok z) :
    elementwise s srcs lane = .error st := by
  have h : lanes lane s.latch.n 0 = .error st := by
    rw [lanes_eq_error]
    exact ⟨k, hk, by rwa [Nat.zero_add], by simpa only [Nat.zero_add] using hbefore⟩
  simp only [elementwise, vectorAdmits_iff.1 hc, h]

/-! What each kind of lane answers on written and on unwritten sources. -/

theorem lane1_written {s : State} {i : Nat} {x : Cplx} (hx : s.dmem.readEntry (s.latch.a + i) = some x) (f : Cplx → Cplx) :
    lane1 s f i = .ok (f x) := by
  simp only [lane1, dRead_eq_ok.2 hx]

theorem lane1_unwritten {s : State} {i : Nat} (h : s.dmem.readEntry (s.latch.a + i) = none) (f : Cplx → Cplx) :
    lane1 s f i = .error (.uninit (s.latch.a + i)) := by
  simp only [lane1, dRead_eq_error.2 ⟨h, rfl⟩]

theorem lane2_written {s : State} {i : Nat} {x y : Cplx} (hx : s.dmem.readEntry (s.latch.a + i) = some x)
    (hy : s.dmem.readEntry (s.latch.b + i) = some y) (f : Cplx → Cplx → Cplx) : lane2 s f i = .ok (f x y) := by
  simp only [lane2, dRead_eq_ok.2 hx, dRead_eq_ok.2 hy]

theorem lane2_unwritten_a {s : State} {i : Nat} (h : s.dmem.readEntry (s.latch.a + i) = none) (f : Cplx → Cplx → Cplx) :
    lane2 s f i = .error (.uninit (s.latch.a + i)) := by
  simp only [lane2, dRead_eq_error.2 ⟨h, rfl⟩]

theorem lane2_unwritten_b {s : State} {i : Nat} (ha : s.dmem.readEntry (s.latch.a + i) ≠ none)
    (h : s.dmem.readEntry (s.latch.b + i) = none) (f : Cplx → Cplx → Cplx) :
    lane2 s f i = .error (.uninit (s.latch.b + i)) := by
  obtain ⟨x, hx⟩ := Option.ne_none_iff_exists'.1 ha
  simp only [lane2, dRead_eq_ok.2 hx, dRead_eq_error.2 ⟨h, rfl⟩]

theorem laneCvt_written {s : State} {i : Nat} {w : Word} (hw : s.dmem.readWord (loAddr (s.latch.a + i)) = some w) :
    laneCvt s i = .ok ⟨i2f w.toInt, 0⟩ := by
  simp only [laneCvt, dReadLo_eq_ok.2 hw]

theorem laneCvt_unwritten {s : State} {i : Nat} (h : s.dmem.readWord (loAddr (s.latch.a + i)) = none) :
    laneCvt s i = .error (.uninit (s.latch.a + i)) := by
  simp only [laneCvt, dReadLo_eq_error.2 ⟨h, rfl⟩]

theorem laneRound_written {s : State} {i : Nat} {w : Word} {q : Int} (hw : s.dmem.readWord (loAddr (s.latch.a + i)) = some w)
    (hq : roundToInt ⟨w, 0⟩ = some q) : laneRound s i = .ok ⟨BitVec.ofInt 64 q, 0⟩ := by
  simp only [laneRound, dReadLo_eq_ok.2 hw, hq]

theorem laneRound_unwritten {s : State} {i : Nat} (h : s.dmem.readWord (loAddr (s.latch.a + i)) = none) :
    laneRound s i = .error (.uninit (s.latch.a + i)) := by
  simp only [laneRound, dReadLo_eq_error.2 ⟨h, rfl⟩]

/-- A command of one source stops at the first entry of it that was never written. -/
theorem elementwise_lane1_unwritten {s : State} {k : Nat} (hc : VectorAdmits s [s.latch.a]) (hk : k < s.latch.n)
    (hnone : s.dmem.readEntry (s.latch.a + k) = none) (hbefore : ∀ j, j < k → s.dmem.readEntry (s.latch.a + j) ≠ none)
    (f : Cplx → Cplx) : elementwise s [s.latch.a] (lane1 s f) = .error (.uninit (s.latch.a + k)) := by
  refine elementwise_error hc hk (lane1_unwritten hnone f) fun j hj => ?_
  obtain ⟨x, hx⟩ := Option.ne_none_iff_exists'.1 (hbefore j hj)
  exact ⟨_, lane1_written hx f⟩

/-- A command of two sources stops at its first lane with an entry never written. -/
theorem elementwise_lane2_unwritten {s : State} {k e : Nat} (hc : VectorAdmits s [s.latch.a, s.latch.b]) (hk : k < s.latch.n)
    (hbefore : ∀ j, j < k → s.dmem.readEntry (s.latch.a + j) ≠ none ∧ s.dmem.readEntry (s.latch.b + j) ≠ none)
    {f : Cplx → Cplx → Cplx} (hstop : lane2 s f k = .error (.uninit e)) :
    elementwise s [s.latch.a, s.latch.b] (lane2 s f) = .error (.uninit e) := by
  refine elementwise_error hc hk hstop fun j hj => ?_
  obtain ⟨ha, hb⟩ := hbefore j hj
  obtain ⟨x, hx⟩ := Option.ne_none_iff_exists'.1 ha
  obtain ⟨y, hy⟩ := Option.ne_none_iff_exists'.1 hb
  exact ⟨_, lane2_written hx hy f⟩

theorem finish_uninit {s : State} {r : Except Stop Memory} {e : Nat} (h : r = .error (.uninit e)) :
    s.finish r = .fault (.uninitRead e) := by
  rw [h]
  rfl

/-- Settles O28: the first lane that reads an unwritten source stops its command, by the form the command has. -/
theorem unwrittenSourceFaults : Obligations.UnwrittenSourceFaults := by
  intro s k
  refine ⟨fun L hadm hk hnone hbefore => ?_, fun hadm hk hbefore i hi => ?_, fun hadm hk hnone hbefore i hi => ?_,
    fun hadm hk hnone => ⟨fun hbefore => ?_, fun hbefore => ?_⟩⟩
  · obtain ⟨hn, -⟩ := id hadm
    have hstop (stage : Option Nat) (hst : ∀ st, stage = some st → 1 ≤ st ∧ st ≤ L) (f : List Cplx → List Cplx) :
        s.finish (transform s stage f) = .fault (.uninitRead (s.latch.a + k)) :=
      finish_uninit (transform_unwritten f (checkTransform_of_admits hadm hst) (hn ▸ hk) hnone hbefore)
    refine ⟨fun i hi => ?_, fun st inv h1 h2 => hstop (some st) (fun _ h => by cases h; exact ⟨h1, h2⟩) _⟩
    simp only [List.mem_cons, List.not_mem_nil, or_false] at hi
    obtain rfl | rfl | rfl := hi <;> exact hstop none (fun _ h => by cases h) _
  · have hstop {f : Cplx → Cplx → Cplx} {e : Nat} (h : lane2 s f k = .error (.uninit e)) :
        s.finish (elementwise s [s.latch.a, s.latch.b] (lane2 s f)) = .fault (.uninitRead e) :=
      finish_uninit (elementwise_lane2_unwritten hadm hk hbefore h)
    simp only [List.mem_cons, List.not_mem_nil, or_false] at hi
    obtain rfl | rfl | rfl | rfl := hi <;>
      exact ⟨fun ha => hstop (lane2_unwritten_a ha _), fun ha hb => hstop (lane2_unwritten_b ha hb _)⟩
  · have hstop (f : Cplx → Cplx) : s.finish (elementwise s [s.latch.a] (lane1 s f)) = .fault (.uninitRead (s.latch.a + k)) :=
      finish_uninit (elementwise_lane1_unwritten hadm hk hnone hbefore f)
    simp only [List.mem_cons, List.not_mem_nil, or_false] at hi
    obtain rfl | rfl := hi <;> exact hstop _
  · refine finish_uninit (elementwise_error hadm hk (laneCvt_unwritten hnone) fun j hj => ?_)
    obtain ⟨w, hw⟩ := Option.ne_none_iff_exists'.1 (hbefore j hj)
    exact ⟨_, laneCvt_written hw⟩
  · refine finish_uninit (elementwise_error hadm hk (laneRound_unwritten hnone) fun j hj => ?_)
    obtain ⟨w, hw, hround⟩ := hbefore j hj
    obtain ⟨q, hq⟩ := Option.ne_none_iff_exists'.1 hround
    exact ⟨_, laneRound_written hw hq⟩

end Sys2Proof.Machine
end

section
/-! SUPPORT. The decoder as a bijection between legal words and well-formed commands (O1 to O3), and what happens to the other words (O4). -/

namespace Sys2Proof

/-! ### A word and its fields -/

/-- A word is its fields OPC, S, INV and RSV (R50). -/
theorem toNat_eq_fields (w : Word) :
    w.toNat = field w 0 8 + 2 ^ 8 * field w 8 6 + 2 ^ 14 * field w 14 1 + 2 ^ 15 * field w 15 49 := by
  have hw := w.isLt
  unfold field
  omega

/-- S and INV are both 0 exactly if the seven bits they fill are (R50, R53). -/
theorem field_stageInv_eq_zero (w : Word) : field w 8 7 = 0 ↔ field w 8 6 = 0 ∧ field w 14 1 = 0 := by
  unfold field
  omega

theorem wellFormed_iff_stageField_lt (i : Instr) : i.wellFormed = true ↔ i.stageField < 2 ^ 6 := by
  refine ⟨stageField_lt, fun h => ?_⟩
  cases i with
  | stage s inv => exact decide_eq_true h
  | twid s inv => exact decide_eq_true h
  | _ => rfl

theorem toNat_encode {i : Instr} (h : i.wellFormed = true) :
    (encode i).toNat = i.opcode + 2 ^ 8 * i.stageField + 2 ^ 14 * i.invField.toNat := by
  obtain ⟨hopc, hs, hinv, hrsv⟩ := field_encode h
  rw [toNat_eq_fields, hopc, hs, hinv, hrsv, Nat.mul_zero, Nat.add_zero]

/-! ### The operations without fields -/

theorem plainOp_of_mem : ∀ opc ∈ plainOpcodes, ∃ i, plainOp opc = some i := by
  simp only [← Option.isSome_iff_exists]
  decide

/-- An OPC without fields selects the command that has this OPC, and that command has no S and no INV (R52, R53). -/
theorem fields_of_plainOp {opc : Nat} {i : Instr} (h : plainOp opc = some i) :
    i.opcode = opc ∧ i.stageField = 0 ∧ i.invField = false := by
  have hall : ∀ opc ∈ plainOpcodes, ∀ i ∈ plainOp opc, i.opcode = opc ∧ i.stageField = 0 ∧ i.invField = false := by decide
  exact hall opc (mem_plainOpcodes_of_plainOp h) i h

/-! ### What the decoder answers -/

/-- All that a decodable word can be: STAGE, TWID, or an operation without fields whose S and INV are 0 (R52, R53). -/
theorem decode_cases {w : Word} {i : Instr} (h : decode w = .ok i) :
    field w 15 49 = 0 ∧
      ((field w 0 8 = 0x04 ∧ i = .stage (field w 8 6) (decide (field w 14 1 = 1))) ∨
        (field w 0 8 = 0x05 ∧ i = .twid (field w 8 6) (decide (field w 14 1 = 1))) ∨
        (plainOp (field w 0 8) = some i ∧ field w 8 7 = 0)) := by
  unfold decode at h
  split at h
  · cases h
  · next hrsv =>
    refine ⟨not_not.1 hrsv, ?_⟩
    split at h
    · cases h; exact .inl ⟨‹_›, rfl⟩
    · split at h
      · cases h; exact .inr (.inl ⟨‹_›, rfl⟩)
      · split at h
        · cases h
        · split at h
          · cases h; exact .inr (.inr ⟨‹_›, ‹_›⟩)
          · cases h

/-- The fields of a decodable word are its command's (R50 to R53). -/
theorem fields_of_decode {w : Word} {i : Instr} (h : decode w = .ok i) :
    field w 0 8 = i.opcode ∧ field w 8 6 = i.stageField ∧ field w 14 1 = i.invField.toNat ∧ field w 15 49 = 0 := by
  have hbit : field w 14 1 = (decide (field w 14 1 = 1)).toNat := by
    have := field_lt w 14 1
    by_cases h1 : field w 14 1 = 1
    · simp [h1]
    · simp [h1]; omega
  obtain ⟨hrsv, ⟨hopc, rfl⟩ | ⟨hopc, rfl⟩ | ⟨hplain, h0⟩⟩ := decode_cases h
  · exact ⟨hopc, rfl, hbit, hrsv⟩
  · exact ⟨hopc, rfl, hbit, hrsv⟩
  · obtain ⟨hopc, hs, hinv⟩ := fields_of_plainOp hplain
    obtain ⟨hs0, hinv0⟩ := (field_stageInv_eq_zero w).1 h0
    exact ⟨hopc.symm, hs0.trans hs.symm, by rw [hinv0, hinv]; rfl, hrsv⟩

/-- A word decodes to the well-formed command whose fields it spells, and to no other (R50 to R53). -/
theorem decode_eq_ok_iff {w : Word} {i : Instr} :
    decode w = .ok i ↔ i.wellFormed = true ∧ w.toNat = i.opcode + 2 ^ 8 * i.stageField + 2 ^ 14 * i.invField.toNat := by
  constructor
  · intro h
    obtain ⟨hopc, hs, hinv, hrsv⟩ := fields_of_decode h
    refine ⟨(wellFormed_iff_stageField_lt i).2 (hs ▸ field_lt w 8 6), ?_⟩
    rw [toNat_eq_fields, hopc, hs, hinv, hrsv, Nat.mul_zero, Nat.add_zero]
  · rintro ⟨hi, hw⟩
    rw [← BitVec.eq_of_toNat_eq ((toNat_encode hi).trans hw.symm)]
    exact decode_encode hi

theorem decodeBytes_bytesOfWord (w : Word) : decodeBytes (bytesOfWord w) = decode w := by
  rw [decodeBytes, if_pos (bytesOfWord_length w), wordOfBytes_bytesOfWord]

/-- Settles O1: a word decodes to the command whose fields it spells, which are those of the command's encoding. -/
theorem decodeEncodeRoundTrip : Obligations.DecodeEncodeRoundTrip := by
  refine ⟨fun i hi => ⟨decode_encode hi, ?_⟩, fun w i h => ?_⟩
  · rw [decodeBytes_bytesOfWord, decode_encode hi]
  · obtain ⟨hi, hw⟩ := decode_eq_ok_iff.1 h
    exact ⟨hi, BitVec.eq_of_toNat_eq ((toNat_encode hi).trans hw.symm)⟩

/-! ### Legal words -/

/-- `Legal(cmd)` as R53 writes it. -/
theorem legalWord_iff (w : Word) :
    legalWord w = true ↔
      field w 15 49 = 0 ∧ (field w 0 8 ∈ [0x04, 0x05] ∨ (field w 0 8 ∈ plainOpcodes ∧ field w 8 7 = 0)) := by
  simp [legalWord]

/-- A legal word decodes (R53). -/
theorem decode_of_legalWord {w : Word} (h : legalWord w = true) : ∃ i, decode w = .ok i := by
  obtain ⟨hrsv, hopc | ⟨hopc, h0⟩⟩ := (legalWord_iff w).1 h
  · simp only [List.mem_cons, List.not_mem_nil, or_false] at hopc
    obtain h4 | h5 := hopc
    · exact ⟨_, by rw [decode, if_neg (not_not.2 hrsv), if_pos h4]⟩
    · exact ⟨_, by rw [decode, if_neg (not_not.2 hrsv), if_neg (by omega), if_pos h5]⟩
  · obtain ⟨i, hi⟩ := plainOp_of_mem _ hopc
    have hne : field w 0 8 ≠ 0x04 ∧ field w 0 8 ≠ 0x05 := by
      constructor <;> intro hn <;> rw [hn] at hi <;> cases hi
    exact ⟨i, by simp [decode, hrsv, hne, hi, h0]⟩

theorem legalWord_iff_decodes (w : Word) : legalWord w = true ↔ ∃ i, decode w = .ok i :=
  ⟨decode_of_legalWord, fun ⟨_, h⟩ => legalWord_of_decode h⟩

theorem fieldless_of_ne {i : Instr} (h : ∀ s v, i ≠ .stage s v ∧ i ≠ .twid s v) :
    i.wellFormed = true ∧ i.stageField = 0 ∧ i.invField = false := by
  cases i with
  | stage s v => exact absurd rfl (h s v).1
  | twid s v => exact absurd rfl (h s v).2
  | _ => exact ⟨rfl, rfl, rfl⟩

/-- Settles O2: legality is decodability, and the one word of a command spells its OPC, S and INV. -/
theorem legalWordsAreTheDecodable : Obligations.LegalWordsAreTheDecodable := by
  refine ⟨legalWord_iff_decodes, fun w i hi => ?_, fun w s v hs => ⟨?_, ?_⟩⟩
  · obtain ⟨hwf, hs, hinv⟩ := fieldless_of_ne hi
    simp [decode_eq_ok_iff, hwf, hs, hinv]
  all_goals cases v <;> simp [decode_eq_ok_iff, Instr.wellFormed, hs, Instr.opcode, Instr.stageField, Instr.invField, Nat.mul_comm]

/-- Settles O3: the words are literals, which the decoder evaluates. -/
theorem specWordsDecode : Obligations.SpecWordsDecode := by
  unfold Obligations.SpecWordsDecode
  decide

/-- The words that are not legal, by the reasons of R54. -/
theorem legalWord_eq_false_iff (w : Word) :
    legalWord w = false ↔
      field w 0 8 ∉ [0x00, 0x01, 0x02, 0x03, 0x04, 0x05, 0x10, 0x11, 0x12, 0x13, 0x14, 0x15, 0x18, 0x19] ∨ field w 15 49 ≠ 0 ∨
        (field w 0 8 ∉ [0x04, 0x05] ∧ (field w 8 6 ≠ 0 ∨ field w 14 1 ≠ 0)) := by
  rw [← Bool.not_eq_true, legalWord_iff, field_stageInv_eq_zero]
  have hopcodes : field w 0 8 ∈ [0x00, 0x01, 0x02, 0x03, 0x04, 0x05, 0x10, 0x11, 0x12, 0x13, 0x14, 0x15, 0x18, 0x19] ↔
      field w 0 8 ∈ [0x04, 0x05] ∨ field w 0 8 ∈ plainOpcodes := by
    simp only [plainOpcodes, List.mem_cons, List.not_mem_nil, or_false]
    omega
  rw [hopcodes]
  tauto

end Sys2Proof

namespace Sys2Proof.Machine

/-- Settles O4: the reasons are R53's formula negated; acceptance latches any word, and the engine completes one that does not decode. -/
theorem illegalWordCompletesWithoutEffect : Obligations.IllegalWordCompletesWithoutEffect := by
  refine ⟨legalWord_eq_false_iff, fun s v hb => ?_, fun s => engineStep_of_not_legalWord⟩
  rw [writeReg_cmd_of_idle hb]
  exact ⟨rfl, rfl, rfl⟩

end Sys2Proof.Machine
end

section
/-! SUPPORT. The host's polling loop `wait` (O20): a variable read after it was assigned, and the two statements that `wait` assembles to. -/

namespace Sys2Proof.Machine

/-- A variable holds what was last assigned to it. -/
theorem lookupVar_assignVar_same (vs : List (Nat × Word)) (x : Nat) (v : Word) : lookupVar (assignVar vs x v) x = some v := by
  induction vs with
  | nil => simp [assignVar, lookupVar]
  | cons p vs ih =>
    unfold assignVar
    split
    · simp [lookupVar]
    · split
      · simp [lookupVar]
      · next hne => rw [lookupVar, if_neg hne, ih]

/-- `wait` is a poll of STATUS and a branch on bit 0 back to the poll (R57). -/
theorem assemble_waitStmts (base k : Nat) :
    assemble base (waitStmts k) = some [.read (base + 0x010) 8 (2 * k + 1), .bit (2 * k + 1) 0 0] := by
  simp [assemble, assembleFrom, assembleStmt, waitStmts, labelPosition, regAddr, Reg.offset, HostName.key]

/-- A host turn at a register read assigns the register's value and goes on; the block keeps its state (R37, R40). -/
theorem hostStep_of_read_reg {s : State} {r : Reg} {x : Nat}
    (h : s.host.program[s.host.pc]? = some (.read (s.params.base + r.offset) 8 x)) :
    hostStep s = .next (s.hostAssign x (readReg s r)).hostNext := by
  simp [hostStep, h, hostOp, memRead_reg]

/-- A host turn at a branch on bit `j` of an assigned variable (R56). -/
theorem hostStep_of_bit {s : State} {x j target : Nat} {v : Word} (h : s.host.program[s.host.pc]? = some (.bit x j target))
    (hv : lookupVar s.host.vars x = some v) :
    hostStep s = .next (s.hostAt (if v.getLsbD j then target else s.host.pc + 1)) := by
  simp only [hostStep, h, hostOp, hv]
  split <;> rfl

/-- Bit 0 of STATUS is BUSY (R18). -/
theorem getLsbD_readReg_status_zero (s : State) : (readReg s .status).getLsbD 0 = s.status.busy :=
  getLsbD_of_field_eq (field_statusWord s.status s.regs.irqen).1

/-- Settles O20: the poll reads BUSY into bit 0 of the variable that the branch tests; neither touches the block. -/
theorem waitPollsUntilIdle : Obligations.WaitPollsUntilIdle := by
  refine ⟨assemble_waitStmts, fun s k hprog hpc => ?_⟩
  rw [assemble_waitStmts, Option.some.injEq] at hprog
  have hpoll : hostStep s = .next (s.hostAssign (2 * k + 1) (readReg s .status)).hostNext :=
    hostStep_of_read_reg (by rw [← hprog, hpc]; rfl)
  refine ⟨_, _, hpoll, hostStep_of_bit (x := 2 * k + 1) (j := 0) (target := 0) ?_ (lookupVar_assignVar_same s.host.vars _ _), ?_,
    rfl, rfl, rfl, rfl, rfl⟩
  · simp [← hprog, hpc]
  · rw [hostAt_host, getLsbD_readReg_status_zero, hostNext_host, hostAssign_host, hpc]

end Sys2Proof.Machine
end

section
/-! SUPPORT. The binary64 primitives by the kind of their operands (O50 to O53): one equation a case, cited instead of unfolding. -/

namespace Sys2Proof.Machine

/-! ### Kinds of a value (R60) -/

theorem isNaN_of_isFinite {a : Word} (h : isFinite a = true) : isNaN a = false := by
  rw [isFinite_eq, Bool.and_eq_true] at h
  simpa using h.1

theorem isInf_of_isFinite {a : Word} (h : isFinite a = true) : isInf a = false := by
  rw [isFinite_eq, Bool.and_eq_true] at h
  simpa using h.2

theorem isNaN_of_isInf {a : Word} (h : isInf a = true) : isNaN a = false := by
  rw [eq_finf h, isNaN_finf]

theorem eq_of_isZero_of_fsign {a b : Word} (ha : isZero a = true) (hb : isZero b = true) (hs : fsign a = fsign b) : a = b := by
  rw [eq_fzero ha, eq_fzero hb, hs]

/-! ### NaN operands (R62, R64, R65) -/

theorem fadd_of_isNaN {a b : Word} (h : isNaN a = true ∨ isNaN b = true) : fadd a b = canonNaN :=
  if_pos (Bool.or_eq_true_iff.2 h)

theorem fmul_of_isNaN {a b : Word} (h : isNaN a = true ∨ isNaN b = true) : fmul a b = canonNaN :=
  if_pos (Bool.or_eq_true_iff.2 h)

theorem fdiv_of_isNaN {a b : Word} (h : isNaN a = true ∨ isNaN b = true) : fdiv a b = canonNaN :=
  if_pos (Bool.or_eq_true_iff.2 h)

/-! ### Sums (R62, R63) -/

/-- The sum of finite operands is rounded once, unless it is exactly zero (R62). -/
theorem fadd_of_isFinite {a b : Word} (ha : isFinite a = true) (hb : isFinite b = true) :
    fadd a b = if units a + units b ≠ 0 then roundTo64 (decide (units a + units b < 0)) (units a + units b).natAbs 1
      else if isZero a = true ∧ isZero b = true ∧ fsign a = fsign b then a else fzero false := by
  simp [fadd, isNaN_of_isFinite ha, isNaN_of_isFinite hb, isInf_of_isFinite ha, isInf_of_isFinite hb, and_assoc]

/-- An exactly zero sum is +0, unless both operands are the same zero (R62). -/
theorem fadd_of_units_eq_zero {a b : Word} (ha : isFinite a = true) (hb : isFinite b = true) (h : units a + units b = 0) :
    fadd a b = if isZero a = true ∧ isZero b = true ∧ fsign a = fsign b then a else fzero false := by
  rw [fadd_of_isFinite ha hb, if_neg (not_not.2 h)]

theorem fadd_finf_finf (s r : Bool) : fadd (finf s) (finf r) = if s = r then finf s else canonNaN := by
  cases s <;> cases r <;> decide

theorem fadd_finf_left (s : Bool) {a : Word} (ha : isFinite a = true) : fadd (finf s) a = finf s := by
  simp [fadd, isNaN_of_isFinite ha, isInf_of_isFinite ha]

theorem fadd_comm (a b : Word) : fadd a b = fadd b a := by
  cases hna : isNaN a
  case true => rw [fadd_of_isNaN (.inl hna), fadd_of_isNaN (.inr hna)]
  cases hnb : isNaN b
  case true => rw [fadd_of_isNaN (.inr hnb), fadd_of_isNaN (.inl hnb)]
  cases hia : isInf a
  · cases hib : isInf b
    · have ha : isFinite a = true := by simp [isFinite_eq, hna, hia]
      have hb : isFinite b = true := by simp [isFinite_eq, hnb, hib]
      rw [fadd_of_isFinite ha hb, fadd_of_isFinite hb ha, Int.add_comm (units b)]
      split
      · rfl
      · -- equal zeros are one word
        have hsym : (isZero b = true ∧ isZero a = true ∧ fsign b = fsign a) ↔ isZero a = true ∧ isZero b = true ∧ fsign a = fsign b := by
          rw [and_left_comm, eq_comm (a := fsign b)]
        rw [if_congr hsym rfl rfl]
        split
        · next h =>
          obtain ⟨hza, hzb, hs⟩ := h
          exact eq_of_isZero_of_fsign hza hzb hs
        · rfl
    · simp [fadd, hna, hnb, hia, hib]
  · cases hib : isInf b
    · simp [fadd, hna, hnb, hia, hib]
    · rw [eq_finf hia, eq_finf hib, fadd_finf_finf, fadd_finf_finf]
      by_cases hs : fsign a = fsign b
      · rw [if_pos hs, if_pos hs.symm, hs]
      · rw [if_neg hs, if_neg (Ne.symm hs)]

/-! ### Products (R64) -/

theorem fmul_comm (a b : Word) : fmul a b = fmul b a := by
  have hs : (fsign b != fsign a) = (fsign a != fsign b) := bne_comm
  simp only [fmul, hs, Nat.mul_comm (magUnits b), Bool.or_comm (isNaN b), Bool.or_comm (isInf b), Bool.or_comm (isZero b),
    Bool.and_comm (isInf b), Bool.and_comm (isZero b), Bool.or_comm (isZero a && isInf b)]

theorem cmul_comm (a b : Cplx) : cmul a b = cmul b a := by
  rw [cmul, cmul, fmul_comm a.re b.re, fmul_comm a.im b.im, fmul_comm a.re b.im, fmul_comm a.im b.re, fadd_comm]

theorem fmul_finf_fzero (s r : Bool) : fmul (finf s) (fzero r) = canonNaN := by simp [fmul]

theorem fmul_finf_left (s : Bool) {a : Word} (hn : isNaN a = false) (hz : isZero a = false) : fmul (finf s) a = finf (s != fsign a) := by
  simp [fmul, hn, hz]

theorem fmul_fzero_left (s : Bool) {a : Word} (ha : isFinite a = true) : fmul (fzero s) a = fzero (s != fsign a) := by
  simp [fmul, isNaN_of_isFinite ha, isInf_of_isFinite ha]

/-- The product of finite operands other than zero is rounded once (R64). -/
theorem fmul_of_isFinite {a b : Word} (ha : isFinite a = true) (hb : isFinite b = true) (hza : isZero a = false) (hzb : isZero b = false) :
    fmul a b = roundTo64 (fsign a != fsign b) (magUnits a * magUnits b) unitsOfOne := by
  simp [fmul, isNaN_of_isFinite ha, isNaN_of_isFinite hb, isInf_of_isFinite ha, isInf_of_isFinite hb, hza, hzb]

/-! ### Quotients (R65) -/

theorem fdiv_finf_finf (s r : Bool) : fdiv (finf s) (finf r) = canonNaN := by simp [fdiv]

theorem fdiv_fzero_fzero (s r : Bool) : fdiv (fzero s) (fzero r) = canonNaN := by simp [fdiv]

theorem fdiv_finf_left (s : Bool) {a : Word} (ha : isFinite a = true) : fdiv (finf s) a = finf (s != fsign a) := by
  simp [fdiv, isNaN_of_isFinite ha, isInf_of_isFinite ha]

theorem fdiv_finf_right (s : Bool) {a : Word} (ha : isFinite a = true) : fdiv a (finf s) = fzero (fsign a != s) := by
  simp [fdiv, isNaN_of_isFinite ha, isInf_of_isFinite ha]

/-- Division by zero gives an infinity and is no error (R65). -/
theorem fdiv_fzero_right (s : Bool) {a : Word} (ha : isFinite a = true) (hz : isZero a = false) :
    fdiv a (fzero s) = finf (fsign a != s) := by
  simp [fdiv, isNaN_of_isFinite ha, isInf_of_isFinite ha, hz]

theorem fdiv_fzero_left (s : Bool) {a : Word} (ha : isFinite a = true) (hz : isZero a = false) :
    fdiv (fzero s) a = fzero (s != fsign a) := by
  simp [fdiv, isNaN_of_isFinite ha, isInf_of_isFinite ha, hz]

/-- The quotient of finite operands other than zero is rounded once (R65). -/
theorem fdiv_of_isFinite {a b : Word} (ha : isFinite a = true) (hb : isFinite b = true) (hza : isZero a = false) (hzb : isZero b = false) :
    fdiv a b = roundTo64 (fsign a != fsign b) (magUnits a * unitsOfOne) (magUnits b) := by
  simp [fdiv, isNaN_of_isFinite ha, isNaN_of_isFinite hb, isInf_of_isFinite ha, isInf_of_isFinite hb, hza, hzb]

/-! ### The statements on operands -/

/-- Settles O50: only an infinity or a zero is returned as it came, and equal signs make it one word; the rest is symmetric. -/
theorem productsAndSumsCommute : Obligations.ProductsAndSumsCommute :=
  fun a b => ⟨fadd_comm a b, fmul_comm a b, fun c d => cmul_comm ⟨a, c⟩ ⟨b, d⟩⟩

theorem fadd_eq_canonNaN {a b : Word} (h : isNaN (fadd a b) = true) : fadd a b = canonNaN := by
  unfold fadd at h ⊢
  split_ifs at h ⊢ with hnan hinf ha hb hsum hzero
  · rfl
  · rfl
  · simp [isNaN_of_isInf ha] at h
  · simp [isNaN_of_isInf hb] at h
  · simp at h
  · exact absurd (by rw [h, Bool.true_or]) hnan
  · simp at h

theorem fmul_eq_canonNaN {a b : Word} (h : isNaN (fmul a b) = true) : fmul a b = canonNaN := by
  unfold fmul at h ⊢
  split_ifs at h ⊢
  · rfl
  · rfl
  all_goals simp at h

theorem fdiv_eq_canonNaN {a b : Word} (h : isNaN (fdiv a b) = true) : fdiv a b = canonNaN := by
  unfold fdiv at h ⊢
  split_ifs at h ⊢
  · rfl
  · rfl
  · rfl
  all_goals simp at h

/-- Settles O51: besides `CANON_NAN` a primitive answers an operand that is no NaN, an infinity, a zero or a rounded result. -/
theorem nanResultsAreCanonical : Obligations.NanResultsAreCanonical := by
  refine ⟨fun f hf a b => ?_, fun v => isNaN_roundTo64 _ _ _⟩
  simp only [List.mem_cons, List.not_mem_nil, or_false] at hf
  obtain rfl | rfl | rfl | rfl := hf
  · exact ⟨fadd_eq_canonNaN, fadd_of_isNaN⟩
  · exact ⟨fadd_eq_canonNaN, fun h => fadd_of_isNaN (by rwa [isNaN_fneg])⟩
  · exact ⟨fmul_eq_canonNaN, fmul_of_isNaN⟩
  · exact ⟨fdiv_eq_canonNaN, fdiv_of_isNaN⟩

theorem fvalue_add_eq_zero_iff (a b : Word) : fvalue a + fvalue b = 0 ↔ units a + units b = 0 := by
  rw [fvalue, fvalue, ← add_div, div_eq_zero_iff, or_iff_left (pow_ne_zero 1074 two_ne_zero), ← Int.cast_add, Int.cast_eq_zero]

/-- Settles O52, one case of the operands after the other. -/
theorem specialOperands : Obligations.SpecialOperands := by
  refine ⟨⟨rfl, rfl, rfl, rfl⟩, fun a b h => ⟨fadd_of_isNaN h, fmul_of_isNaN h, fdiv_of_isNaN h⟩, fun s => ⟨?_, ?_, fun a ha => ?_⟩,
    fun a b ha hb h => fadd_of_units_eq_zero ha hb ((fvalue_add_eq_zero_iff a b).1 h), fun s r => ⟨?_, fmul_finf_fzero r s⟩,
    fun s a hn hz => ⟨fmul_finf_left s hn hz, ?_⟩, fun s a ha => ⟨fmul_fzero_left s ha, ?_⟩,
    fun s r => ⟨fdiv_finf_finf s r, fdiv_fzero_fzero s r⟩, fun s a ha => ⟨fdiv_finf_left s ha, fdiv_finf_right s ha⟩,
    fun s a ha hz => ⟨fdiv_fzero_right s ha hz, fdiv_fzero_left s ha hz⟩⟩
  · rw [fadd_finf_finf, if_neg (by simp)]
    rfl
  · rw [fadd_finf_finf, if_pos rfl]
  · rw [fadd_comm a]
    exact ⟨fadd_finf_left s ha, fadd_finf_left s ha⟩
  · rw [fmul_comm]
    exact fmul_finf_fzero r s
  · rw [fmul_comm, fmul_finf_left s hn hz, bne_comm]
  · rw [fmul_comm, fmul_fzero_left s ha, bne_comm]

theorem fneg_finf (neg : Bool) : fneg (finf neg) = finf (!neg) := by cases neg <;> decide

/-- The difference of a finite value and itself is +0 (R63). -/
theorem fsub_self {a : Word} (ha : isFinite a = true) : fsub a a = 0 := by
  rw [fsub, fadd_of_units_eq_zero ha (by rwa [isFinite_fneg]) (by rw [units_fneg, add_neg_cancel]), if_neg (by simp)]
  rfl

/-- Settles O53: the sum with the negation is exactly zero, or one of infinities. -/
theorem subtractionAddsTheNegation : Obligations.SubtractionAddsTheNegation := by
  refine ⟨fun a b => rfl, fun x => fsub_self, by decide, by decide, by decide, fun neg => ?_⟩
  rw [fsub, fneg_finf, fadd_finf_finf, if_neg (by simp)]
  rfl

end Sys2Proof.Machine
end

section
/-! SUPPORT. The primitives as roundings of the exact result (O49, O54), and the floor of a binary64 (O55). -/

namespace Sys2Proof.Machine

/-! ### Exact results -/

theorem unitsOfOne_pos : 0 < unitsOfOne := by
  rw [unitsOfOne]
  positivity

theorem cast_unitsOfOne : (unitsOfOne : ℚ) = 2 ^ 1074 := by rw [unitsOfOne, Nat.cast_pow, Nat.cast_ofNat]

/-- The rounding function rounds its exact result (O48). -/
theorem isRounded_roundTo64 (neg : Bool) {p q : Nat} (hp : 0 < p) (hq : 0 < q) : IsRounded (exactResult neg p q) (roundTo64 neg p q) :=
  roundingIsNearestEven neg p q hp hq

/-- The exact result for a sign and a magnitude that come from one integer. -/
theorem exactResult_of_int (v : ℤ) (k q : Nat) : exactResult (decide (v < 0)) (v.natAbs * k) q = v * k / q / 2 ^ 1074 := by
  have hv : (if decide (v < 0) then -1 else 1) * (v.natAbs : ℚ) = v := by
    rw [Nat.cast_natAbs, Int.cast_abs]
    by_cases h : v < 0
    · rw [if_pos (decide_eq_true h), abs_of_neg (by exact_mod_cast h), neg_mul, one_mul, neg_neg]
    · rw [if_neg (by simpa using h), abs_of_nonneg (by exact_mod_cast not_lt.1 h), one_mul]
  rw [exactResult, Nat.cast_mul, ← mul_div_assoc, ← mul_assoc, hv]

/-- An integer over a denominator, scaled to units, is rounded to its value. -/
theorem isRounded_scaled {v : ℤ} (hv : v ≠ 0) {q : Nat} (hq : 0 < q) :
    IsRounded ((v : ℚ) / q) (roundTo64 (decide (v < 0)) (v.natAbs * unitsOfOne) q) := by
  have h := isRounded_roundTo64 (decide (v < 0)) (Nat.mul_pos (Int.natAbs_pos.2 hv) unitsOfOne_pos) hq
  rwa [exactResult_of_int, cast_unitsOfOne, mul_div_right_comm, mul_div_cancel_right₀ _ (pow_ne_zero 1074 two_ne_zero)] at h

theorem isRounded_i2f {v : ℤ} (hv : v ≠ 0) : IsRounded (v : ℚ) (i2f v) := by
  have h := isRounded_scaled hv Nat.one_pos
  rwa [Nat.cast_one, div_one] at h

/-- A finite value is its sign times its magnitude (R60). -/
theorem fvalue_eq (a : Word) : fvalue a = (if fsign a then -1 else 1) * magUnits a / 2 ^ 1074 := by
  rw [fvalue, units]
  split <;> simp

theorem isRounded_fadd {a b : Word} (ha : isFinite a = true) (hb : isFinite b = true) (h : fvalue a + fvalue b ≠ 0) :
    IsRounded (fvalue a + fvalue b) (fadd a b) := by
  have hu : units a + units b ≠ 0 := mt (fvalue_add_eq_zero_iff a b).2 h
  have hr := isRounded_roundTo64 (decide (units a + units b < 0)) (Int.natAbs_pos.2 hu) Nat.one_pos
  have he := exactResult_of_int (units a + units b) 1 1
  rw [Nat.mul_one, Nat.cast_one, mul_one, div_one, Int.cast_add, add_div] at he
  rw [fadd_of_isFinite ha hb, if_pos hu]
  rwa [he] at hr

theorem fvalue_fneg (a : Word) : fvalue (fneg a) = -fvalue a := by
  rw [fvalue, units_fneg, Int.cast_neg, neg_div, fvalue]

/-- The sign of a product or quotient of signed magnitudes. -/
theorem sign_bne (s t : Bool) : (if (s != t) then -1 else 1 : ℚ) = (if s then -1 else 1) * (if t then -1 else 1) := by
  cases s <;> cases t <;> simp

theorem exactResult_mul (a b : Word) :
    exactResult (fsign a != fsign b) (magUnits a * magUnits b) unitsOfOne = fvalue a * fvalue b := by
  rw [exactResult, sign_bne, fvalue_eq, fvalue_eq, Nat.cast_mul, cast_unitsOfOne]
  generalize (2 : ℚ) ^ 1074 = u
  ring

theorem exactResult_div (a : Word) {b : Word} (hb : isZero b = false) :
    exactResult (fsign a != fsign b) (magUnits a * unitsOfOne) (magUnits b) = fvalue a / fvalue b := by
  have hmag : (magUnits b : ℚ) ≠ 0 := by
    rw [Nat.cast_ne_zero, Ne, magUnits_eq_zero, hb]
    exact Bool.false_ne_true
  have hsign : (if fsign b then -1 else 1 : ℚ) ^ 2 = 1 := by split <;> norm_num
  have hpow : (2 : ℚ) ^ 1074 ≠ 0 := pow_ne_zero 1074 two_ne_zero
  rw [exactResult, sign_bne, fvalue_eq, fvalue_eq, Nat.cast_mul, cast_unitsOfOne]
  generalize (2 : ℚ) ^ 1074 = u at hpow
  generalize (if fsign b then -1 else 1 : ℚ) = σ at hsign
  have hσ : σ ≠ 0 := by rintro rfl; norm_num at hsign
  field_simp
  rw [hsign, one_mul]

theorem magUnits_pos {a : Word} (h : isZero a = false) : 0 < magUnits a := by
  refine Nat.pos_of_ne_zero fun h0 => ?_
  rw [magUnits_eq_zero, h] at h0
  cases h0

/-- Settles O49: the fraction that each primitive hands to the rounding function is its exact result. -/
theorem primitivesRoundTheExactResult : Obligations.PrimitivesRoundTheExactResult := by
  refine ⟨fun a b ha hb => ⟨isRounded_fadd ha hb, fun h => ?_, fun hza hzb => ⟨?_, ?_⟩⟩, fun v => isRounded_i2f⟩
  · rw [sub_eq_add_neg, ← fvalue_fneg] at h ⊢
    exact isRounded_fadd ha (by rwa [isFinite_fneg]) h
  · rw [fmul_of_isFinite ha hb hza hzb, ← exactResult_mul]
    exact isRounded_roundTo64 _ (Nat.mul_pos (magUnits_pos hza) (magUnits_pos hzb)) unitsOfOne_pos
  · rw [fdiv_of_isFinite ha hb hza hzb, ← exactResult_div a hzb]
    exact isRounded_roundTo64 _ (Nat.mul_pos (magUnits_pos hza) unitsOfOne_pos) (magUnits_pos hzb)

/-! ### Integers (R69) -/

theorem two_pow_le_overflowBound {k : Nat} (hk : k ≤ 970) : 2 ^ k ≤ overflowBound := by
  calc (2 : ℚ) ^ k ≤ 2 ^ 970 := pow_le_pow_right₀ one_le_two hk
    _ ≤ (2 ^ 54 - 1) * 2 ^ 970 := le_mul_of_one_le_left (by positivity) (by norm_num)
    _ = overflowBound := by rw [sub_mul, one_mul, ← pow_add, overflowBound]

/-- A rounded result below the overflow bound is finite (R61). -/
theorem IsRounded.isFinite {r : ℚ} {w : Word} (h : IsRounded r w) {k : Nat} (hk : k ≤ 970) (hr : |r| < 2 ^ k) : isFinite w = true :=
  (h.2 (hr.trans_le (two_pow_le_overflowBound hk))).1

theorem i2f_zero : i2f 0 = 0 := by decide +kernel

theorem nearestEven_of_dvd {p d : Nat} (hd : 0 < d) (h : d ∣ p) : nearestEven p d = p / d := by
  rw [nearestEven, Nat.mod_eq_zero_of_dvd h, if_pos hd]

/-- At most 2^53 units of any size are a significand and a last place (R60). -/
theorem two_pow_roundShift_dvd {n : Nat} (hn : n ≤ 2 ^ 53) (k : Nat) : 2 ^ roundShift (n * 2 ^ k) 1 ∣ n * 2 ^ k := by
  obtain hs | hs := Nat.lt_or_ge k (roundShift (n * 2 ^ k) 1)
  · -- the last place is above `2^k` for `2^53` only
    have hle : 2 ^ 52 * (1 * 2 ^ roundShift (n * 2 ^ k) 1) ≤ n * 2 ^ k := roundShift_le (by omega)
    generalize roundShift (n * 2 ^ k) 1 = j at *
    obtain ⟨i, rfl⟩ := Nat.exists_eq_add_of_lt hs
    have hpow : 2 ^ (k + i + 1) = 2 * 2 ^ i * 2 ^ k := by ring
    rw [hpow] at hle ⊢
    have hle' : 2 ^ 53 * 2 ^ i ≤ n := Nat.le_of_mul_le_mul_right (by linarith) (Nat.two_pow_pos k)
    have hi := Nat.two_pow_pos i
    have hi1 : 2 ^ i = 1 := by omega
    have hn1 : n = 2 * 2 ^ 52 := by omega
    rw [hi1, hn1]
    exact Nat.mul_dvd_mul_right (by decide) _
  · exact Dvd.dvd.mul_left (Nat.pow_dvd_pow 2 hs) n

/-- A whole number of units with a binary64's significand is rounded to itself. -/
theorem fvalue_roundTo64_of_dvd (neg : Bool) {p : Nat} (h : 2 ^ roundShift p 1 ∣ p) (hb : roundBits p 1 < 0x7FF0000000000000) :
    fvalue (roundTo64 neg p 1) = exactResult neg p 1 := by
  have hsig : roundSig p 1 * 2 ^ roundShift p 1 = p := by
    rw [roundSig, Nat.one_mul, nearestEven_of_dvd (Nat.two_pow_pos _) h, Nat.div_mul_cancel h]
  have habs := abs_fvalue_sub_exactResult neg p Nat.one_pos (roundTo64 neg p 1)
  have hunits : (roundSig p 1 : ℤ) * 2 ^ roundShift p 1 = p := by exact_mod_cast hsig
  rw [signedUnits_roundTo64 neg p Nat.one_pos hb, hunits, Nat.cast_one, mul_one, sub_self, abs_zero, Int.cast_zero, zero_div, abs_eq_zero,
    sub_eq_zero] at habs
  exact habs

/-- An integer up to 2^53 in magnitude converts exactly (R69). -/
theorem fvalue_i2f {v : ℤ} (h1 : -2 ^ 53 ≤ v) (h2 : v ≤ 2 ^ 53) : fvalue (i2f v) = v := by
  have hn : v.natAbs ≤ 2 ^ 53 := by omega
  have hexact : exactResult (decide (v < 0)) (v.natAbs * unitsOfOne) 1 = v := by
    rw [exactResult_of_int, cast_unitsOfOne, Nat.cast_one, div_one, mul_div_cancel_right₀ _ (pow_ne_zero 1074 two_ne_zero)]
  have hbits : roundBits (v.natAbs * unitsOfOne) 1 < 0x7FF0000000000000 := by
    rw [← not_le, ← overflowBound_le_iff (decide (v < 0)) _ Nat.one_pos, hexact, not_le]
    refine lt_of_lt_of_le (b := 2 ^ 54) ?_ (two_pow_le_overflowBound (by decide))
    rw [← Int.cast_abs]
    exact_mod_cast abs_lt.2 (show -2 ^ 54 < v ∧ v < 2 ^ 54 by omega)
  have hdvd := two_pow_roundShift_dvd hn 1074
  rw [← unitsOfOne] at hdvd
  rw [i2f, fvalue_roundTo64_of_dvd _ hdvd hbits, hexact]

/-- Settles O54: an int64 lies far below the overflow bound; the four examples are literals. -/
theorem integersConvertRounded : Obligations.IntegersConvertRounded := by
  refine ⟨fun v h1 h2 => ⟨?_, isRounded_i2f, fvalue_i2f⟩, i2f_zero, by decide +kernel, by decide +kernel, by decide +kernel,
    by decide +kernel⟩
  obtain rfl | hv := eq_or_ne v 0
  · rw [i2f_zero]
    decide
  · refine (isRounded_i2f hv).isFinite (k := 64) (by decide) ?_
    rw [← Int.cast_abs]
    exact_mod_cast abs_lt.2 (show -2 ^ 64 < v ∧ v < 2 ^ 64 by omega)

/-! ### The floor (R68, R77) -/

theorem ffloor_eq_iff (t : Word) (q : ℤ) : ffloor t = q ↔ (q : ℚ) ≤ fvalue t ∧ fvalue t < q + 1 := by
  have hpos : (0 : ℤ) < unitsOfOne := by exact_mod_cast unitsOfOne_pos
  have hfloor : ffloor t = ⌊fvalue t⌋ := by
    rw [ffloor, fvalue, ← cast_unitsOfOne]
    exact (Rat.floor_intCast_div_natCast _ _).symm
  rw [hfloor, Int.floor_eq_iff]

/-- Settles O55: the outcome is the floor of the sum, by the two tests of R77. -/
theorem roundToIntIsFloorOfTheSum : Obligations.RoundToIntIsFloorOfTheSum := by
  intro re im q
  change roundToInt ⟨re, im⟩ = some q ↔ isFinite (fadd re fhalf) = true ∧ _ ≤ fvalue (fadd re fhalf) ∧ fvalue (fadd re fhalf) < _ ∧ _
  simp only [roundToInt]
  generalize fadd re fhalf = t
  have hfin : (isNaN t || isInf t) = !isFinite t := by simp [isFinite_eq]
  rw [hfin, ← and_assoc (a := (q : ℚ) ≤ _), ← ffloor_eq_iff]
  cases isFinite t
  · simp
  · by_cases hq : ffloor t = q
    · simp [hq, isInt64]
    · simp [hq]

end Sys2Proof.Machine
end

section
/-! SUPPORT. Twiddles, bit reversal and the core (O39, O43 to O45): running powers, one table for all lengths, the bits of a reversed index, and
the recursion as the iteration on two halves. -/

namespace Sys2Proof.Machine

/-! ### Twiddles (R81, R82) -/

theorem tw_zero (mode : TwMode) (L S : Nat) (inv : Bool) : tw mode L S 0 inv = cone := by
  cases mode with
  | gen => rfl
  | level => rfl
  | direct => rw [tw, directTw, if_pos rfl]

/-- Settles O44: the twiddle k is the k-th iterate of the product with the stage root. -/
theorem twiddlesAreRunningPowers : Obligations.TwiddlesAreRunningPowers := fun mode L S inv =>
  ⟨tw_zero mode L S inv, fun k => Function.iterate_succ_apply' _ k cone, fun k => Function.iterate_succ_apply' _ k cone⟩

theorem fixUnit_succ_double (S k : Nat) : fixUnit (S + 1) (2 * k) = fixUnit S k := by
  rw [fixUnit, if_neg (by omega), Nat.mul_div_cancel_left k two_pos]

theorem fixUnit_succ_double_add_one (S k : Nat) : fixUnit (S + 1) (2 * k + 1) = fixMul (fixRoot (S + 1)) (fixUnit S k) := by
  rw [fixUnit, if_pos (by omega), show (2 * k + 1) / 2 = k by omega]

/-- The same angle in a table twice as fine (R82). -/
theorem directTw_succ_double (S k : Nat) (inv : Bool) : directTw (S + 1) (2 * k) inv = directTw S k inv := by
  have hzero : 2 * k = 0 ↔ k = 0 := by omega
  have hquarter : 4 * (2 * k) = 2 ^ (S + 1) ↔ 4 * k = 2 ^ S := by omega
  simp only [directTw, hzero, hquarter, fixUnit_succ_double]

theorem directTw_scaled (S k : Nat) (inv : Bool) (j : Nat) : directTw (S + j) (k * 2 ^ j) inv = directTw S k inv := by
  induction j with
  | zero => rw [Nat.pow_zero, Nat.mul_one, Nat.add_zero]
  | succ j ih => rw [← ih, Nat.pow_succ', Nat.mul_left_comm, ← Nat.add_assoc, directTw_succ_double]

/-- Settles O45: one doubling of the table and of the place after the other. -/
theorem directTwiddlesShareOneTable : Obligations.DirectTwiddlesShareOneTable := fun S j k inv => directTw_scaled S k inv j

/-! ### Bit reversal (R84) -/

/-- Bit `j` of the reversed index is bit `L - 1 - j` of the index. -/
theorem testBit_rev : ∀ (L i j : Nat), (rev L i).testBit j = (decide (j < L) && i.testBit (L - 1 - j)) := by
  intro L
  induction L with
  | zero => intro i j; simp [rev]
  | succ L ih =>
    intro i j
    rw [rev, Nat.mul_comm, Nat.testBit_two_pow_mul_add _ (rev_lt L _), ih]
    obtain h | rfl | h := Nat.lt_trichotomy j L
    · rw [if_pos h, Nat.testBit_div_two, show L - 1 - j + 1 = L + 1 - 1 - j by omega]
      simp [h, Nat.lt_succ_of_lt h]
    · rw [if_neg (Nat.lt_irrefl j), show j + 1 - 1 - j = 0 by omega, Nat.sub_self]
      simp
    · rw [if_neg (by omega)]
      obtain ⟨m, hm⟩ : ∃ m, j - L = m + 1 := ⟨j - L - 1, by omega⟩
      rw [hm, Nat.testBit_succ]
      simp [show ¬ j < L + 1 by omega]

theorem rev_rev {L i : Nat} (h : i < 2 ^ L) : rev L (rev L i) = i := by
  refine Nat.eq_of_testBit_eq fun j => ?_
  rw [testBit_rev, testBit_rev]
  obtain hj | hj := Nat.lt_or_ge j L
  · rw [show L - 1 - (L - 1 - j) = j by omega]
    simp [hj, show L - 1 - j < L by omega]
  · rw [Nat.testBit_lt_two_pow (h.trans_le (Nat.pow_le_pow_right two_pos hj))]
    simp [show ¬ j < L by omega]

theorem rev_eq_sum : ∀ (L i : Nat), rev L i = ∑ j ∈ Finset.range L, (i / 2 ^ j % 2) * 2 ^ (L - 1 - j) := by
  intro L
  induction L with
  | zero => intro i; rfl
  | succ L ih =>
    intro i
    rw [rev, ih, Finset.sum_range_succ', Nat.add_comm]
    congr 1
    · refine Finset.sum_congr rfl fun j _ => ?_
      rw [Nat.div_div_eq_div_mul, Nat.pow_succ', show L + 1 - 1 - (j + 1) = L - 1 - j by omega]
    · simp

/-- The top bit of the index is the last bit of the reversed one. -/
theorem rev_succ_eq : ∀ {L i : Nat}, i < 2 ^ (L + 1) → rev (L + 1) i = 2 * rev L (i % 2 ^ L) + i / 2 ^ L := by
  intro L
  induction L with
  | zero => intro i hi; simpa [rev] using Nat.le_of_lt_succ hi
  | succ L ih =>
    intro i hi
    have hmod : i % 2 ^ (L + 1) % 2 = i % 2 := Nat.mod_mod_of_dvd i (Dvd.intro_left _ rfl)
    have hdiv : i % 2 ^ (L + 1) / 2 = i / 2 % 2 ^ L := by rw [Nat.pow_succ', Nat.mod_mul_right_div_self]
    rw [rev, ih (by omega), rev, hmod, hdiv, Nat.div_div_eq_div_mul, ← Nat.pow_succ']
    ring

theorem bitrevP_getElem? {L : Nat} {x : List Cplx} (hx : x.length = 2 ^ L) {i : Nat} (hi : i < 2 ^ L) :
    (bitrevP L x)[i]? = x[rev L i]? := by
  have hi' : i < (bitrevP L x).length := by rwa [bitrevP_length]
  rw [List.getElem?_eq_getElem hi', bitrevP_getElem hx, List.getElem?_eq_getElem]

/-- Settles O43: reversing the places of the bits twice restores them. -/
theorem bitReversalIsAnInvolution : Obligations.BitReversalIsAnInvolution := by
  intro L i hi
  refine ⟨rev_eq_sum L i, rev_lt L i, rev_rev hi, fun x hx => ⟨bitrevP_length L x, ?_, bitrevP_getElem? hx hi⟩⟩
  rw [bitrevP_getElem? hx (rev_lt L i), rev_rev hi]

/-! ### Even and odd elements -/

theorem evens_odds_getElem? : ∀ (x : List Cplx) (i : Nat), (evens x)[i]? = x[2 * i]? ∧ (odds x)[i]? = x[2 * i + 1]?
  | [], i => by simp [evens, odds]
  | [a], i => by cases i <;> simp [evens, odds]
  | a :: b :: x, 0 => by simp [evens, odds]
  | a :: b :: x, i + 1 => by
    obtain ⟨he, ho⟩ := evens_odds_getElem? x i
    simpa [evens, odds, Nat.mul_succ] using ⟨he, ho⟩

theorem evens_odds_length : ∀ (x : List Cplx), (evens x).length = (x.length + 1) / 2 ∧ (odds x).length = x.length / 2
  | [] => ⟨rfl, rfl⟩
  | [a] => by simp [evens, odds]
  | a :: b :: x => by
    obtain ⟨he, ho⟩ := evens_odds_length x
    simp only [evens, odds, List.length_cons, he, ho]
    omega

section
variable {L : Nat} {x : List Cplx} (hx : x.length = 2 ^ (L + 1))
include hx

theorem evens_length : (evens x).length = 2 ^ L := by
  rw [(evens_odds_length x).1, hx]
  omega

theorem odds_length : (odds x).length = 2 ^ L := by
  rw [(evens_odds_length x).2, hx]
  omega

/-- The permuted sequence is the permuted even elements, then the permuted odd ones (R84, R88). -/
theorem bitrevP_succ : bitrevP (L + 1) x = bitrevP L (evens x) ++ bitrevP L (odds x) := by
  refine List.ext_getElem? fun i => ?_
  obtain hi | hi := Nat.lt_or_ge i (2 ^ (L + 1))
  · have hpow := Nat.pow_succ 2 L
    rw [bitrevP_getElem? hx hi, rev_succ_eq hi, List.getElem?_append, bitrevP_length]
    split
    · next h =>
      rw [bitrevP_getElem? (evens_length hx) h, (evens_odds_getElem? x _).1, Nat.mod_eq_of_lt h, Nat.div_eq_of_lt h, Nat.add_zero]
    · next h =>
      have hlt : i - 2 ^ L < 2 ^ L := by omega
      have hmod : i % 2 ^ L = i - 2 ^ L := by rw [Nat.mod_eq_sub_mod (by omega), Nat.mod_eq_of_lt hlt]
      have hdiv : i / 2 ^ L = 1 := Nat.div_eq_of_lt_le (by omega) (by omega)
      rw [bitrevP_getElem? (odds_length hx) hlt, (evens_odds_getElem? x _).2, hmod, hdiv]
  · rw [List.getElem?_eq_none (by simpa using hi), List.getElem?_eq_none (by simpa [Nat.pow_succ, Nat.mul_two] using hi)]

end

/-! ### The iteration on two halves (R86, R87) -/

theorem bflyBlock_length_of {ts es os : List Cplx} {h : Nat} (ht : ts.length = h) (he : es.length = h) (ho : os.length = h) :
    (bflyBlock ts es os).length = 2 * h := by
  rw [bflyBlock_length, ht, he, ho, Nat.min_self, Nat.min_self]

/-- The blocks of a stage over two sequences one after the other. -/
theorem stageBlocks_append {ts : List Cplx} {h : Nat} (n : Nat) (y : List Cplx) : ∀ (m : Nat) (x : List Cplx), x.length = 2 * h * m →
    stageBlocks ts h (m + n) (x ++ y) = stageBlocks ts h m x ++ stageBlocks ts h n y := by
  intro m
  induction m with
  | zero =>
    intro x hx
    rw [List.eq_nil_of_length_eq_zero hx, Nat.zero_add]
    rfl
  | succ m ih =>
    intro x hx
    have hlen : 2 * h ≤ x.length := by rw [hx]; exact Nat.le_mul_of_pos_right _ (Nat.succ_pos m)
    rw [Nat.succ_add, stageBlocks, stageBlocks, List.take_append_of_le_length (by omega), List.drop_append_of_le_length (by omega),
      List.take_append_of_le_length (by rw [List.length_drop]; omega), List.drop_append_of_le_length hlen,
      ih _ (by rw [List.length_drop, hx, Nat.mul_succ, Nat.add_sub_cancel]), List.append_assoc]

theorem two_pow_blocks_succ {L S : Nat} (h : S + 1 ≤ L) : 2 * 2 ^ S * 2 ^ (L - (S + 1)) = 2 ^ L := two_pow_blocks (Nat.succ_pos S) h

/-- Stages 1 to `S` with the twiddles that `ts` lists for each stage: `stagesUpTo` without its mode. -/
def stagesBy (ts : Nat → List Cplx) (L : Nat) : Nat → List Cplx → List Cplx
  | 0, x => x
  | S + 1, x => stageBlocks (ts (S + 1)) (2 ^ S) (2 ^ (L - (S + 1))) (stagesBy ts L S x)

theorem stagesUpTo_eq_stagesBy (mode : TwMode) (L : Nat) (inv : Bool) (x : List Cplx) : ∀ S : Nat,
    stagesUpTo mode L inv S x = stagesBy (fun S => twiddles mode L S inv) L S x := by
  intro S
  induction S with
  | zero => rfl
  | succ S ih => rw [stagesUpTo, stagesBy, ← ih]; rfl

/-- The recursion with the twiddles that `ts` lists for each level: `recFft` and `recLevel` without their roots. -/
def recBy (ts : Nat → List Cplx) : Nat → List Cplx → List Cplx
  | 0, x => x
  | L + 1, x => bflyBlock (ts (L + 1)) (recBy ts L (evens x)) (recBy ts L (odds x))

section
variable {ts : Nat → List Cplx} (hts : ∀ S, (ts S).length = 2 ^ (S - 1))
include hts

theorem stagesBy_length {L : Nat} : ∀ (S : Nat) {x : List Cplx}, S ≤ L → x.length = 2 ^ L → (stagesBy ts L S x).length = 2 ^ L := by
  intro S
  induction S with
  | zero => intro x _ hx; exact hx
  | succ S ih =>
    intro x hS hx
    have hlen := ih (by omega) hx
    rw [stagesBy, stageBlocks_length (h := 2 ^ S) (hts (S + 1)) _ _ (hlen.trans (two_pow_blocks_succ hS).symm), hlen]

/-- Stages below the last treat the two halves alone. -/
theorem stagesBy_append {L : Nat} {x y : List Cplx} (hx : x.length = 2 ^ L) : ∀ S ≤ L,
    stagesBy ts (L + 1) S (x ++ y) = stagesBy ts L S x ++ stagesBy ts L S y := by
  intro S
  induction S with
  | zero => intro _; rfl
  | succ S ih =>
    intro hS
    have hblocks : 2 ^ (L + 1 - (S + 1)) = 2 ^ (L - (S + 1)) + 2 ^ (L - (S + 1)) := by
      rw [← Nat.two_mul, ← Nat.pow_succ', show L + 1 - (S + 1) = (L - (S + 1)).succ by omega]
    have hlen := (stagesBy_length hts S (by omega) hx).trans (two_pow_blocks_succ hS).symm
    rw [stagesBy, ih (by omega), hblocks, stageBlocks_append _ _ _ _ hlen]
    rfl

theorem recBy_length : ∀ (L : Nat) {x : List Cplx}, x.length = 2 ^ L → (recBy ts L x).length = 2 ^ L := by
  intro L
  induction L with
  | zero => intro x hx; exact hx
  | succ L ih =>
    intro x hx
    rw [recBy, bflyBlock_length_of (hts (L + 1)) (ih (evens_length hx)) (ih (odds_length hx)), Nat.pow_succ', Nat.add_sub_cancel]

/-- The iteration is the recursion, whatever the twiddles (R88). -/
theorem stagesBy_bitrevP : ∀ (L : Nat) {x : List Cplx}, x.length = 2 ^ L → stagesBy ts L L (bitrevP L x) = recBy ts L x := by
  intro L
  induction L with
  | zero =>
    intro x hx
    obtain ⟨a, rfl⟩ := List.length_eq_one_iff.1 hx
    rfl
  | succ L ih =>
    intro x hx
    have he := ih (evens_length hx)
    have ho := ih (odds_length hx)
    have hlen := recBy_length hts L (evens_length hx)
    have hlen' := recBy_length hts L (odds_length hx)
    rw [stagesBy, bitrevP_succ hx, stagesBy_append hts (bitrevP_length L _) L (Nat.le_refl L), he, ho, Nat.sub_self, Nat.pow_zero,
      stageBlocks, stageBlocks, List.append_nil, recBy, List.take_left' hlen, List.drop_left' hlen, List.take_of_length_le hlen'.le]

end

/-- The recursion depends on the twiddles of its own levels only. -/
theorem recBy_congr {ts us : Nat → List Cplx} : ∀ (L : Nat) (x : List Cplx), (∀ S, 1 ≤ S → S ≤ L → ts S = us S) →
    recBy ts L x = recBy us L x := by
  intro L
  induction L with
  | zero => intro x _; rfl
  | succ L ih =>
    intro x h
    have h' : ∀ S, 1 ≤ S → S ≤ L → ts S = us S := fun S h1 h2 => h S h1 (by omega)
    rw [recBy, recBy, h (L + 1) (by omega) (Nat.le_refl _), ih _ h', ih _ h']

/-! ### The document's recursion (R87, R88) -/

/-- The combine loop takes the running powers as twiddles (R81, R87). -/
theorem recPairs_eq_bflyRow (w : Cplx) : ∀ (n : Nat) (p : Cplx) (es os : List Cplx), es.length = n →
    recPairs w p es os = bflyRow (runningPowers w n p) es os := by
  intro n
  induction n with
  | zero => intro p es os h; rw [List.eq_nil_of_length_eq_zero h]; rfl
  | succ n ih =>
    intro p es os h
    obtain ⟨e, es, rfl⟩ := List.exists_cons_of_length_eq_add_one h
    cases os with
    | nil => rfl
    | cons o os =>
      rw [recPairs, runningPowers, bflyRow, ih _ _ _ (by simpa using h)]
      rfl

/-- The twiddles of each stage when the stage roots are `r`. -/
def powersBy (r : Nat → Cplx) (S : Nat) : List Cplx := runningPowers (r S) (2 ^ (S - 1)) cone

theorem powersBy_length (r : Nat → Cplx) (S : Nat) : (powersBy r S).length = 2 ^ (S - 1) := runningPowers_length ..

/-- One level of the recursion with root `w` combines its halves by one block of butterflies. -/
theorem recPairs_eq_bflyBlock {r : Nat → Cplx} {L : Nat} {w : Cplx} (hw : r (L + 1) = w) {es os : List Cplx} (he : es.length = 2 ^ L) :
    (recPairs w cone es os).map Prod.fst ++ (recPairs w cone es os).map Prod.snd = bflyBlock (powersBy r (L + 1)) es os := by
  rw [recPairs_eq_bflyRow w (2 ^ L) cone es os he, ← hw]
  rfl

theorem recFft_eq_recBy : ∀ (L : Nat) (w : Cplx) {x : List Cplx}, x.length = 2 ^ L →
    recFft L w x = recBy (powersBy fun S => csqr^[L - S] w) L x := by
  intro L
  induction L with
  | zero => intro w x _; rfl
  | succ L ih =>
    intro w x hx
    -- the squared root of the halves, squared on, gives the roots of the stages below
    have hroots : ∀ S, 1 ≤ S → S ≤ L → powersBy (fun S => csqr^[L - S] (csqr w)) S = powersBy (fun S => csqr^[L + 1 - S] w) S := by
      intro S _ hS
      rw [powersBy, powersBy, ← Function.iterate_succ_apply, show (L - S).succ = L + 1 - S by omega]
    have hhalf {y : List Cplx} (hy : y.length = 2 ^ L) : recFft L (csqr w) y = recBy (powersBy fun S => csqr^[L + 1 - S] w) L y :=
      (ih (csqr w) hy).trans (recBy_congr L y hroots)
    rw [recFft, hhalf (evens_length hx), hhalf (odds_length hx), recBy]
    exact recPairs_eq_bflyBlock (by simp) (recBy_length (powersBy_length _) L (evens_length hx))

theorem recLevel_eq_recBy (inv : Bool) : ∀ (L : Nat) {x : List Cplx}, x.length = 2 ^ L →
    recLevel inv L x = recBy (powersBy fun S => root S inv) L x := by
  intro L
  induction L with
  | zero => intro x _; rfl
  | succ L ih =>
    intro x hx
    rw [recLevel, ih (evens_length hx), ih (odds_length hx), recBy]
    exact recPairs_eq_bflyBlock (r := fun S => root S inv) rfl (recBy_length (powersBy_length _) L (evens_length hx))

/-- The core is the recursion with the running powers of its stage roots (R87). -/
theorem fftCore_eq_recBy (mode : TwMode) (L : Nat) (inv : Bool) {x : List Cplx} (hx : x.length = 2 ^ L) :
    fftCore mode L inv x = recBy (fun S => twiddles mode L S inv) L x := by
  rw [fftCore, stagesUpTo_eq_stagesBy, stagesBy_bitrevP (fun S => twiddles_length mode L S inv) L hx]

/-- Settles O39: both sides are one recursion over the running powers of the stage roots. -/
theorem coreIsTheRecursion : Obligations.CoreIsTheRecursion := by
  intro L inv x _ hx
  rw [recFft_eq_recBy L _ hx, recLevel_eq_recBy inv L hx, fftCore_eq_recBy .gen L inv hx, fftCore_eq_recBy .level L inv hx]
  exact ⟨rfl, rfl⟩

end Sys2Proof.Machine
end

section
/-! SUPPORT. The root ROM against the real cosine and sine (O47): partial sums of the exponential series in the rationals, and their distance to
each entry. -/

namespace Sys2Proof.Machine

/-! ### Cosine and sine by their series -/

/-- The first `n` terms of the cosine's series. -/
def cosSum (x : ℚ) : Nat → ℚ
  | 0 => 0
  | n + 1 => cosSum x n + (-1) ^ n * x ^ (2 * n) / (2 * n).factorial

/-- The first `n` terms of the sine's series. -/
def sinSum (x : ℚ) : Nat → ℚ
  | 0 => 0
  | n + 1 => sinSum x n + (-1) ^ n * x ^ (2 * n + 1) / (2 * n + 1).factorial

/-- The two sums are the parts of the exponential's partial sum. -/
theorem expSum_eq (x : ℚ) (n : Nat) :
    ∑ m ∈ Finset.range (2 * n), ((x : ℝ) * Complex.I) ^ m / (m.factorial : ℂ) =
      ((cosSum x n : ℚ) : ℝ) + ((sinSum x n : ℚ) : ℝ) * Complex.I := by
  induction n with
  | zero => simp [cosSum, sinSum]
  | succ n ih =>
    have heven : ((x : ℝ) * Complex.I : ℂ) ^ (2 * n) = (-1) ^ n * x ^ (2 * n) := by
      rw [mul_pow, pow_mul Complex.I, Complex.I_sq, Complex.ofReal_ratCast]
      ring
    rw [Nat.mul_succ, Finset.sum_range_succ, Finset.sum_range_succ, ih, pow_succ, heven, cosSum, sinSum]
    push_cast
    ring

/-- The remainder of the exponential's series bounds that of both parts. -/
theorem abs_cos_sin_sub_sum_le {x : ℚ} (hx : |x| ≤ 7) :
    |Real.cos x - cosSum x 40| ≤ 1 / 2 ^ 150 ∧ |Real.sin x - sinSum x 40| ≤ 1 / 2 ^ 150 := by
  have hnorm : ‖((x : ℝ) * Complex.I : ℂ)‖ ≤ 7 := by
    rw [norm_mul, Complex.norm_I, mul_one, Complex.norm_real, Real.norm_eq_abs]
    exact_mod_cast hx
  have hexp :
      ‖Complex.exp ((x : ℝ) * Complex.I) - (((cosSum x 40 : ℚ) : ℝ) + ((sinSum x 40 : ℚ) : ℝ) * Complex.I)‖ ≤ 1 / 2 ^ 150 := by
    rw [← expSum_eq]
    refine (Complex.exp_bound' ?_).trans ?_
    · rw [div_le_iff₀ (by positivity)]
      refine hnorm.trans ?_
      norm_num
    · calc ‖((x : ℝ) * Complex.I : ℂ)‖ ^ (2 * 40) / ((2 * 40).factorial : ℝ) * 2
          ≤ 7 ^ (2 * 40) / ((2 * 40).factorial : ℝ) * 2 := by gcongr
        _ ≤ 1 / 2 ^ 150 := by norm_num [Nat.factorial]
  constructor
  · refine le_trans (le_of_eq ?_) ((Complex.abs_re_le_norm _).trans hexp)
    rw [Complex.sub_re, Complex.exp_ofReal_mul_I_re]
    simp
  · refine le_trans (le_of_eq ?_) ((Complex.abs_im_le_norm _).trans hexp)
    rw [Complex.sub_im, Complex.exp_ofReal_mul_I_im]
    simp

/-- A rational near the partial sum is near the real value that the sum is near. -/
theorem abs_sub_le_of_sum {y s : ℚ} {r : ℝ} {k : Nat} (hr : |r - s| ≤ 1 / 2 ^ 150) (h : |y - s| + 1 / 2 ^ 150 ≤ 1 / 2 ^ k) :
    |(y : ℝ) - r| ≤ 1 / 2 ^ k := by
  have hy : |(y : ℝ) - s| + 1 / 2 ^ 150 ≤ 1 / 2 ^ k := by
    have h' := (Rat.cast_le (K := ℝ)).2 h
    push_cast at h'
    exact h'
  rw [abs_sub_comm] at hr
  linarith [abs_sub_le (y : ℝ) s r]

/-! ### The ROM's entries (R79, R83) -/

/-- The angle of the root of length 2^L: `2·PI64 / 2^L` (R79). -/
def romAngle (L : Nat) : ℚ := 2 * fvalue 0x400921FB54442D18 / 2 ^ L

theorem abs_romAngle_le : ∀ L ≤ 20, |romAngle L| ≤ 7 := by decide +kernel

theorem rom_re_near_cosSum : ∀ L ≤ 20,
    |fvalue (root L false).re - cosSum (romAngle L) 40| + 1 / 2 ^ 150 ≤ 1 / 2 ^ (if L = 2 then 107 else 54) := by decide +kernel

theorem rom_im_near_sinSum : ∀ L ≤ 20,
    |fvalue (root L false).im - sinSum (romAngle L) 40| + 1 / 2 ^ 150 ≤ 1 / 2 ^ (if L = 0 then 105 else if L = 1 then 106 else 51 + L) := by
  decide +kernel

/-- Settles O47: the partial sums are within 2^-150 of the real values, and within half a unit of each entry with that to spare. -/
theorem romRootsWithinHalfUlp : Obligations.RomRootsWithinHalfUlp := by
  refine ⟨fun L hL => ?_, fun L => rfl⟩
  have hangle : 2 * ((fvalue 0x400921FB54442D18 : ℚ) : ℝ) / 2 ^ L = (romAngle L : ℚ) := by rw [romAngle]; push_cast; rfl
  rw [hangle]
  obtain ⟨hcos, hsin⟩ := abs_cos_sin_sub_sum_le (abs_romAngle_le L hL)
  exact ⟨abs_sub_le_of_sum hcos (rom_re_near_cosSum L hL), abs_sub_le_of_sum hsin (rom_im_near_sinSum L hL)⟩

end Sys2Proof.Machine
end

section
/-! SUPPORT. The direct twiddles (O46): the error of the fixed-point roots, its growth over the products, and the roundings of the parts. -/

namespace Sys2Proof.Machine

/-! ### The integer square root -/

/-- What a search below `2^k` over the bits from `r` on finds is the root, if the root lies there. -/
theorem isqrtFrom_spec (n : Nat) : ∀ k r : Nat, r * r ≤ n → n < (r + 2 ^ k) * (r + 2 ^ k) →
    isqrtFrom n k r * isqrtFrom n k r ≤ n ∧ n < (isqrtFrom n k r + 1) * (isqrtFrom n k r + 1) := by
  intro k
  induction k with
  | zero => intro r h1 h2; exact ⟨h1, h2⟩
  | succ k ih =>
    intro r h1 h2
    rw [isqrtFrom]
    split
    · next h => exact ih _ h (by rwa [Nat.add_assoc, ← Nat.two_mul, ← Nat.pow_succ'])
    · next h => exact ih r h1 (not_le.1 h)

theorem isqrt_spec {n : Nat} (h : n < 2 ^ 258) : isqrt n * isqrt n ≤ n ∧ n < (isqrt n + 1) * (isqrt n + 1) :=
  isqrtFrom_spec n 129 0 (Nat.zero_le n) (h.trans_eq (by rw [Nat.zero_add, ← Nat.pow_add]))

/-! ### The fixed-point roots -/

/-- A fixed-point number as a real. -/
noncomputable def fixReal (v : ℤ) : ℝ := v / 2 ^ 128

theorem fixReal_fixOne : fixReal fixOne = 1 := by
  rw [fixReal, fixOne]
  norm_num

theorem isqrt_half_spec {a : Nat} (h : a ≤ 2 * fixOne) :
    isqrt (a * fixOne / 2) ≤ fixOne ∧ isqrt (a * fixOne / 2) * isqrt (a * fixOne / 2) ≤ a * 2 ^ 127 ∧
      a * 2 ^ 127 < (isqrt (a * fixOne / 2) + 1) * (isqrt (a * fixOne / 2) + 1) := by
  have hone : fixOne = 2 * 2 ^ 127 := rfl
  have hhalf : a * fixOne / 2 = a * 2 ^ 127 := by rw [hone, Nat.mul_left_comm, Nat.mul_div_cancel_left _ two_pos]
  rw [hhalf]
  obtain ⟨h1, h2⟩ := isqrt_spec (n := a * 2 ^ 127) (by omega)
  refine ⟨?_, h1, h2⟩
  by_contra hs
  have := Nat.mul_self_le_mul_self (not_le.1 hs)
  rw [hone] at this
  omega

/-- The root of half a fixed-point number up to 2, from below and within one unit. -/
theorem fixReal_isqrt {a : Nat} (h : a ≤ 2 * fixOne) :
    0 ≤ fixReal (isqrt (a * fixOne / 2)) ∧ fixReal (isqrt (a * fixOne / 2)) ≤ 1 ∧
      fixReal (isqrt (a * fixOne / 2)) ^ 2 ≤ fixReal a / 2 ∧ fixReal a / 2 < (fixReal (isqrt (a * fixOne / 2)) + 1 / 2 ^ 128) ^ 2 := by
  obtain ⟨h0, h1, h2⟩ := isqrt_half_spec h
  generalize isqrt (a * fixOne / 2) = s at *
  have h0' : (s : ℝ) ≤ 2 ^ 128 := by exact_mod_cast h0
  have h1' : (s : ℝ) * s ≤ a * 2 ^ 127 := by exact_mod_cast h1
  have h2' : (a : ℝ) * 2 ^ 127 < (s + 1) * (s + 1) := by exact_mod_cast h2
  simp only [fixReal, Int.cast_natCast]
  refine ⟨by positivity, (div_le_one (by positivity)).2 h0', ?_, ?_⟩
  · rw [div_pow, div_div, div_le_div_iff₀ (by positivity) (by positivity)]
    linarith
  · rw [← add_div, div_pow, div_div, div_lt_div_iff₀ (by positivity) (by positivity)]
    linarith

/-- The error of a root, times the sum of root and exact root, is half the error under it and three units. -/
theorem abs_isqrt_sub_mul_le {a : Nat} (ha : a ≤ 2 * fixOne) {b C e : ℝ} (hC : C ^ 2 = b / 2) (he : |fixReal a - b| ≤ e) (hC0 : 0 ≤ C) :
    |fixReal (isqrt (a * fixOne / 2)) - C| * (fixReal (isqrt (a * fixOne / 2)) + C) ≤ e / 2 + 3 / 2 ^ 128 := by
  obtain ⟨h0, h1, hle, hlt⟩ := fixReal_isqrt ha
  generalize fixReal (isqrt (a * fixOne / 2)) = s at *
  obtain ⟨he1, he2⟩ := abs_le.1 he
  have hprod : |s - C| * (s + C) = |s ^ 2 - C ^ 2| := by
    rw [← abs_of_nonneg (add_nonneg h0 hC0), ← abs_mul]
    ring_nf
  rw [hprod, abs_le, hC]
  have hsq : (s + 1 / 2 ^ 128) ^ 2 ≤ s ^ 2 + 3 / 2 ^ 128 := by linarith
  constructor <;> linarith

/-- The angle of the root `j`: a turn over `2^(j+2)`. -/
noncomputable def rootAngle (j : Nat) : ℝ := Real.pi / 2 * (1 / 2 ^ j)

theorem rootAngle_succ (j : Nat) : 2 * rootAngle (j + 1) = rootAngle j := by
  rw [rootAngle, rootAngle, pow_succ]
  ring

theorem one_div_two_pow_le_one (j : Nat) : 1 / 2 ^ j ≤ (1 : ℝ) := by
  rw [div_le_one (by positivity)]
  exact one_le_pow₀ one_le_two

/-- Jordan's inequality at the roots. -/
theorem one_div_two_pow_le_sin (j : Nat) : 1 / 2 ^ j ≤ Real.sin (rootAngle j) :=
  Real.le_sin_mul (by positivity) (one_div_two_pow_le_one j)

theorem cos_rootAngle_nonneg (j : Nat) : 0 ≤ Real.cos (rootAngle j) := by
  have hpi := Real.pi_pos
  refine Real.cos_nonneg_of_neg_pi_div_two_le_of_le ?_ (mul_le_of_le_one_right (by positivity) (one_div_two_pow_le_one j))
  exact (neg_nonpos.2 (by positivity)).trans (mul_nonneg (by positivity) (by positivity))

theorem fixCosRoot_le : ∀ j : Nat, fixCosRoot j ≤ fixOne := by
  intro j
  induction j with
  | zero => exact Nat.zero_le _
  | succ j ih => exact (isqrt_half_spec (by omega)).1

theorem seven_tenths_le {x : ℝ} (h0 : 0 ≤ x) (h : 1 / 2 ≤ x ^ 2) : 7 / 10 ≤ x := by nlinarith

/-- The cosines keep within six units: the half-angle formula halves the error under the root (log entry 10). -/
theorem fixCosRoot_near (j : Nat) : |fixReal (fixCosRoot j) - Real.cos (rootAngle j)| ≤ 6 / 2 ^ 128 := by
  induction j with
  | zero =>
    simp only [fixCosRoot, rootAngle, fixReal, pow_zero, div_one, mul_one, Real.cos_pi_div_two, Nat.cast_zero, Int.cast_zero, zero_div, sub_self,
      abs_zero]
    positivity
  | succ j ih =>
    have ha : fixOne + fixCosRoot j ≤ 2 * fixOne := by have := fixCosRoot_le j; omega
    have hreal : fixReal ((fixOne + fixCosRoot j : Nat) : ℤ) = 1 + fixReal (fixCosRoot j) := by
      rw [← fixReal_fixOne]
      simp only [fixReal, Int.cast_natCast]
      push_cast
      ring
    have hsq : Real.cos (rootAngle (j + 1)) ^ 2 = (1 + Real.cos (rootAngle j)) / 2 := by
      rw [Real.cos_sq, rootAngle_succ]
      ring
    have hC := cos_rootAngle_nonneg (j + 1)
    have hb := cos_rootAngle_nonneg j
    have hroot := abs_isqrt_sub_mul_le ha hsq (e := 6 / 2 ^ 128) (by rwa [hreal, add_sub_add_left_eq_sub]) hC
    obtain ⟨h0, -, -, hlt⟩ := fixReal_isqrt ha
    have hF : 0 ≤ fixReal (fixCosRoot j) := by unfold fixReal; positivity
    rw [fixCosRoot]
    rw [hreal] at hlt
    generalize fixReal (isqrt ((fixOne + fixCosRoot j) * fixOne / 2)) = s at *
    -- both roots are at least √(1/2)
    have hC1 := seven_tenths_le hC (by linarith)
    have hs1 := seven_tenths_le (x := s + 1 / 2 ^ 128) (by positivity) (by linarith)
    have hsum : 1 ≤ s + Real.cos (rootAngle (j + 1)) := by linarith
    have := le_mul_of_one_le_right (abs_nonneg (s - Real.cos (rootAngle (j + 1)))) hsum
    linarith

/-- The sines lose one bit a halving, since the root divides the error by the sine. -/
theorem fixSinRoot_near (j : Nat) : |fixReal (fixSinRoot j) - Real.sin (rootAngle j)| ≤ 6 / 2 ^ 128 * 2 ^ j := by
  cases j with
  | zero =>
    rw [fixSinRoot, fixReal_fixOne, rootAngle, pow_zero, div_one, mul_one, Real.sin_pi_div_two, sub_self, abs_zero]
    positivity
  | succ j =>
    have ha : fixOne - fixCosRoot j ≤ 2 * fixOne := by omega
    have hreal : fixReal ((fixOne - fixCosRoot j : Nat) : ℤ) = 1 - fixReal (fixCosRoot j) := by
      rw [← fixReal_fixOne, Nat.cast_sub (fixCosRoot_le j)]
      simp only [fixReal]
      push_cast
      ring
    have hsq : Real.sin (rootAngle (j + 1)) ^ 2 = (1 - Real.cos (rootAngle j)) / 2 := by
      rw [Real.sin_sq_eq_half_sub, rootAngle_succ]
      ring
    have hS := one_div_two_pow_le_sin (j + 1)
    have hS0 : 0 ≤ Real.sin (rootAngle (j + 1)) := le_trans (by positivity) hS
    have hroot := abs_isqrt_sub_mul_le ha hsq (e := 6 / 2 ^ 128) (by rw [hreal, sub_sub_sub_cancel_left, abs_sub_comm]; exact fixCosRoot_near j) hS0
    obtain ⟨h0, -⟩ := fixReal_isqrt ha
    rw [fixSinRoot]
    generalize fixReal (isqrt ((fixOne - fixCosRoot j) * fixOne / 2)) = s at *
    have hle := mul_le_mul_of_nonneg_left (hS.trans (le_add_of_nonneg_left h0)) (abs_nonneg (s - Real.sin (rootAngle (j + 1))))
    rw [← div_le_iff₀ (by positivity), div_eq_mul_one_div]
    linarith

/-! ### The fixed-point unit roots -/

/-- A fixed-point complex number. -/
noncomputable def fixCplx (a : ℤ × ℤ) : ℂ := ⟨fixReal a.1, fixReal a.2⟩

/-- The point of the unit circle at `k` steps of a turn over `2^S` (R82). -/
noncomputable def unitPoint (S k : Nat) : ℂ := Complex.exp ((2 * Real.pi * k / 2 ^ S : ℝ) * Complex.I)

theorem unitPoint_re (S k : Nat) : (unitPoint S k).re = Real.cos (2 * Real.pi * k / 2 ^ S) := Complex.exp_ofReal_mul_I_re _

theorem unitPoint_im (S k : Nat) : (unitPoint S k).im = Real.sin (2 * Real.pi * k / 2 ^ S) := Complex.exp_ofReal_mul_I_im _

theorem norm_unitPoint (S k : Nat) : ‖unitPoint S k‖ = 1 := Complex.norm_exp_ofReal_mul_I _

theorem unitPoint_succ_double (S k : Nat) : unitPoint (S + 1) (2 * k) = unitPoint S k := by
  rw [unitPoint, unitPoint, pow_succ]
  push_cast
  congr 2
  field_simp

theorem unitPoint_succ_double_add_one (S k : Nat) : unitPoint (S + 1) (2 * k + 1) = unitPoint (S + 1) 1 * unitPoint S k := by
  rw [← unitPoint_succ_double, unitPoint, unitPoint, unitPoint, ← Complex.exp_add]
  push_cast
  congr 1
  ring

/-- The distance of two complex numbers is at most that of their parts together. -/
theorem norm_fixCplx_sub_le {a : ℤ × ℤ} {z : ℂ} {d e : ℝ} (hre : |fixReal a.1 - z.re| ≤ d) (him : |fixReal a.2 - z.im| ≤ e) :
    ‖fixCplx a - z‖ ≤ d + e :=
  (Complex.norm_le_abs_re_add_abs_im _).trans (add_le_add hre him)

/-- Each root is within 2^-106. -/
theorem fixRoot_near {S : Nat} (h1 : 1 ≤ S) (h2 : S ≤ 20) : ‖fixCplx (fixRoot S) - unitPoint S 1‖ ≤ 1 / 2 ^ 106 := by
  obtain rfl | ⟨j, rfl⟩ : S = 1 ∨ ∃ j, S = j + 2 := by
    obtain rfl | h := Nat.eq_or_lt_of_le h1
    · exact .inl rfl
    · exact .inr ⟨S - 2, by omega⟩
  · have hcos : (unitPoint 1 1).re = -1 := by rw [unitPoint_re, ← Real.cos_pi]; congr 1; norm_num
    have hsin : (unitPoint 1 1).im = 0 := by rw [unitPoint_im, ← Real.sin_pi]; congr 1; norm_num
    have hone : fixReal (-(fixOne : ℤ)) = -1 := by rw [← fixReal_fixOne, fixReal, fixReal, Int.cast_neg, neg_div]
    refine (norm_fixCplx_sub_le (d := 0) (e := 0) ?_ ?_).trans (by norm_num)
    · rw [fixRoot, hcos, hone, sub_self, abs_zero]
    · rw [fixRoot, hsin]
      simp [fixReal]
  · have hangle : 2 * Real.pi * (1 : ℕ) / 2 ^ (j + 2) = rootAngle j := by
      rw [rootAngle, pow_add]
      push_cast
      ring
    have hcos := fixCosRoot_near j
    have hsin := fixSinRoot_near j
    have hpow : (2 : ℝ) ^ j ≤ 2 ^ 18 := pow_le_pow_right₀ one_le_two (by omega)
    rw [← hangle, ← unitPoint_re] at hcos
    rw [← hangle, ← unitPoint_im] at hsin
    rw [fixRoot]
    refine (norm_fixCplx_sub_le (a := (fixCosRoot j, fixSinRoot j)) hcos hsin).trans ?_
    calc (6 / 2 ^ 128 + 6 / 2 ^ 128 * 2 ^ j : ℝ) ≤ 6 / 2 ^ 128 + 6 / 2 ^ 128 * 2 ^ 18 := by gcongr
      _ ≤ 1 / 2 ^ 106 := by norm_num

/-- The floor of a division by one is off by less than a unit. -/
theorem fixReal_div_near (n : ℤ) : |fixReal (n / (fixOne : ℤ)) - n / 2 ^ 128 / 2 ^ 128| ≤ 1 / 2 ^ 128 := by
  have hone : (fixOne : ℤ) = 2 ^ 128 := rfl
  have hdiv : 2 ^ 128 * (n / 2 ^ 128) + n % 2 ^ 128 = n := Int.mul_ediv_add_emod n (2 ^ 128)
  have h0 := Int.emod_nonneg n (show (2 : ℤ) ^ 128 ≠ 0 by decide)
  have h1 := Int.emod_lt_of_pos n (show (0 : ℤ) < 2 ^ 128 by decide)
  rw [hone, fixReal]
  generalize n / 2 ^ 128 = q at *
  generalize n % 2 ^ 128 = r at *
  have hn : (n : ℝ) = 2 ^ 128 * q + r := by exact_mod_cast hdiv.symm
  have h0' : (0 : ℝ) ≤ r := by exact_mod_cast h0
  have h1' : (r : ℝ) < 2 ^ 128 := by exact_mod_cast h1
  rw [hn, abs_le]
  constructor <;> linarith

/-- A product is off by less than a unit a part. -/
theorem fixMul_near (a b : ℤ × ℤ) : ‖fixCplx (fixMul a b) - fixCplx a * fixCplx b‖ ≤ 1 / 2 ^ 128 + 1 / 2 ^ 128 := by
  have hre : (fixCplx a * fixCplx b).re = (a.1 * b.1 - a.2 * b.2 : ℤ) / 2 ^ 128 / 2 ^ 128 := by
    rw [Complex.mul_re, fixCplx, fixCplx, fixReal, fixReal, fixReal, fixReal]
    push_cast
    ring
  have him : (fixCplx a * fixCplx b).im = (a.1 * b.2 + a.2 * b.1 : ℤ) / 2 ^ 128 / 2 ^ 128 := by
    rw [Complex.mul_im, fixCplx, fixCplx, fixReal, fixReal, fixReal, fixReal]
    push_cast
    ring
  exact norm_fixCplx_sub_le (hre ▸ fixReal_div_near _) (him ▸ fixReal_div_near _)

/-- The error of a product with an exact factor of norm 1. -/
theorem norm_mul_sub_mul_le {a b A B : ℂ} {α β : ℝ} (hA : ‖A‖ = 1) (hB : ‖B‖ = 1) (ha : ‖a - A‖ ≤ α) (hb : ‖b - B‖ ≤ β) :
    ‖a * b - A * B‖ ≤ α * (1 + β) + β := by
  have hb1 : ‖b‖ ≤ 1 + β := by
    calc ‖b‖ = ‖B + (b - B)‖ := by rw [add_sub_cancel]
      _ ≤ 1 + β := (norm_add_le _ _).trans (by rw [hB]; gcongr)
  calc ‖a * b - A * B‖ = ‖(a - A) * b + A * (b - B)‖ := by ring_nf
    _ ≤ ‖a - A‖ * ‖b‖ + ‖A‖ * ‖b - B‖ := (norm_add_le _ _).trans (by rw [norm_mul, norm_mul])
    _ ≤ α * (1 + β) + β := by
      rw [hA, one_mul]
      exact add_le_add (mul_le_mul ha hb1 (norm_nonneg _) ((norm_nonneg _).trans ha)) hb

/-- A unit root is within 2^-105 for each bit of its place (log entry 10). -/
theorem fixUnit_near_unitPoint : ∀ (S k : Nat), S ≤ 20 → k < 2 ^ S → ‖fixCplx (fixUnit S k) - unitPoint S k‖ ≤ S / 2 ^ 105 := by
  intro S
  induction S with
  | zero =>
    intro k _ hk
    obtain rfl : k = 0 := Nat.lt_one_iff.1 hk
    have hone : fixCplx (fixUnit 0 0) = 1 := Complex.ext fixReal_fixOne (by simp [fixUnit, fixCplx, fixReal])
    have hpoint : unitPoint 0 0 = 1 := by simp [unitPoint]
    rw [hone, hpoint]
    simp
  | succ S ih =>
    intro k hS hk
    have hstep : (S : ℝ) / 2 ^ 105 ≤ 1 / 2 := by
      have : (S : ℝ) ≤ 20 := by exact_mod_cast (show S ≤ 20 by omega)
      linarith
    push_cast
    obtain ⟨m, rfl | rfl⟩ := Nat.even_or_odd' k
    · have h := ih m (by omega) (by omega)
      rw [fixUnit_succ_double, unitPoint_succ_double]
      linarith
    · have h := ih m (by omega) (by omega)
      have hmul := fixMul_near (fixRoot (S + 1)) (fixUnit S m)
      have herr := norm_mul_sub_mul_le (norm_unitPoint (S + 1) 1) (norm_unitPoint S m) (fixRoot_near (by omega) hS) h
      rw [fixUnit_succ_double_add_one, unitPoint_succ_double_add_one]
      have := norm_sub_le_norm_sub_add_norm_sub (fixCplx (fixMul (fixRoot (S + 1)) (fixUnit S m)))
        (fixCplx (fixRoot (S + 1)) * fixCplx (fixUnit S m)) (unitPoint (S + 1) 1 * unitPoint S m)
      linarith

theorem fixUnit_near {S k : Nat} (hS : S ≤ 20) (hk : k < 2 ^ S) :
    |fixReal (fixUnit S k).1 - Real.cos (2 * Real.pi * k / 2 ^ S)| ≤ 1 / 2 ^ 100 ∧
      |fixReal (fixUnit S k).2 - Real.sin (2 * Real.pi * k / 2 ^ S)| ≤ 1 / 2 ^ 100 := by
  have hS' : (S : ℝ) ≤ 20 := by exact_mod_cast hS
  have hnorm : ‖fixCplx (fixUnit S k) - unitPoint S k‖ ≤ 1 / 2 ^ 100 := (fixUnit_near_unitPoint S k hS hk).trans (by linarith)
  rw [← unitPoint_re, ← unitPoint_im]
  exact ⟨(Complex.abs_re_le_norm _).trans hnorm, (Complex.abs_im_le_norm _).trans hnorm⟩

/-! ### Parts other than zero -/

/-- Strictly inside a half turn, off the quarter, the cosine and the sine are at least one step of the table (Jordan's inequality). -/
theorem one_div_le_abs_cos_sin {S k : Nat} (h0 : 0 < k) (h1 : 2 * k < 2 ^ S) (h2 : 4 * k ≠ 2 ^ S) :
    1 / 2 ^ S ≤ |Real.cos (2 * Real.pi * k / 2 ^ S)| ∧ 1 / 2 ^ S ≤ |Real.sin (2 * Real.pi * k / 2 ^ S)| := by
  have hangle : 2 * Real.pi * k / 2 ^ S = Real.pi / 2 * (4 * k / 2 ^ S) := by ring
  have hpos : (0 : ℝ) < 2 ^ S := by positivity
  have hk0 : 1 / 2 ^ S ≤ (4 * k / 2 ^ S : ℝ) := by
    rw [div_le_div_iff_of_pos_right hpos]
    exact_mod_cast (show 1 ≤ 4 * k by omega)
  have hk2 : (4 * k / 2 ^ S : ℝ) ≤ 2 - 1 / 2 ^ S := by
    rw [le_sub_iff_add_le, ← add_div, div_le_iff₀ hpos]
    exact_mod_cast (show 4 * k + 1 ≤ 2 * 2 ^ S by omega)
  have hk1 : (4 * k / 2 ^ S : ℝ) ≤ 1 - 1 / 2 ^ S ∨ 1 + 1 / 2 ^ S ≤ (4 * k / 2 ^ S : ℝ) := by
    obtain h | h : 4 * k + 1 ≤ 2 ^ S ∨ 2 ^ S + 1 ≤ 4 * k := by omega
    · left
      rw [le_sub_iff_add_le, ← add_div, div_le_one hpos]
      exact_mod_cast h
    · right
      rw [one_add_div hpos.ne', div_le_div_iff_of_pos_right hpos]
      exact_mod_cast h
  have hstep : (0 : ℝ) < 1 / 2 ^ S := by positivity
  rw [hangle]
  generalize (4 * k / 2 ^ S : ℝ) = t at *
  generalize (1 / 2 ^ S : ℝ) = e at *
  obtain h | h := hk1
  · have hcos := Real.le_sin_mul (x := 1 - t) (by linarith) (by linarith)
    have hsin := Real.le_sin_mul (x := t) (by linarith) (by linarith)
    rw [mul_sub, mul_one, Real.sin_pi_div_two_sub] at hcos
    exact ⟨by linarith [le_abs_self (Real.cos (Real.pi / 2 * t))], by linarith [le_abs_self (Real.sin (Real.pi / 2 * t))]⟩
  · have hcos := Real.le_sin_mul (x := t - 1) (by linarith) (by linarith)
    have hsin := Real.le_sin_mul (x := 2 - t) (by linarith) (by linarith)
    rw [mul_sub, mul_one, Real.sin_sub_pi_div_two] at hcos
    rw [mul_sub, div_mul_cancel₀ _ two_ne_zero, Real.sin_pi_sub] at hsin
    exact ⟨by linarith [neg_abs_le (Real.cos (Real.pi / 2 * t))], by linarith [le_abs_self (Real.sin (Real.pi / 2 * t))]⟩

/-- A fixed-point number near a real that is not near zero is not zero. -/
theorem ne_zero_of_near {v : ℤ} {r : ℝ} {S : Nat} (hS : S ≤ 20) (hv : |fixReal v - r| ≤ 1 / 2 ^ 100) (hr : 1 / 2 ^ S ≤ |r|) : v ≠ 0 := by
  rintro rfl
  have hstep : (1 / 2 ^ 20 : ℝ) ≤ 1 / 2 ^ S := one_div_pow_le_one_div_pow_of_le one_le_two hS
  rw [fixReal, Int.cast_zero, zero_div, zero_sub, abs_neg] at hv
  linarith

/-! ### The rounded parts (R82) -/

theorem conjIf_false (c : Cplx) : conjIf false c = c := rfl

theorem conjIf_true (c : Cplx) : conjIf true c = ⟨c.re, fneg c.im⟩ := rfl

theorem directTw_false {S k : Nat} (h0 : k ≠ 0) (h2 : 4 * k ≠ 2 ^ S) :
    directTw S k false = ⟨fixTo64 (fixUnit S k).1, fixTo64 (fixUnit S k).2⟩ := by
  rw [directTw, if_neg h0, if_neg h2, conjIf_false]

theorem directTw_true {S k : Nat} (h0 : k ≠ 0) : directTw S k true = ⟨(directTw S k false).re, fneg (directTw S k false).im⟩ := by
  rw [directTw, directTw, if_neg h0, if_neg h0]
  split <;> rw [conjIf_true, conjIf_false]

theorem isRounded_fixTo64 {v : ℤ} (hv : v ≠ 0) : IsRounded ((v : ℚ) / 2 ^ 128) (fixTo64 v) := by
  have hpos : 0 < fixOne := Nat.two_pow_pos 128
  have hcast : (fixOne : ℚ) = 2 ^ 128 := by rw [fixOne, Nat.cast_pow, Nat.cast_ofNat]
  have h := isRounded_scaled hv hpos
  rwa [hcast] at h

theorem cast_fixReal (v : ℤ) : (((v : ℚ) / 2 ^ 128 : ℚ) : ℝ) = fixReal v := by
  rw [fixReal, Rat.cast_div, Rat.cast_intCast, Rat.cast_pow, Rat.cast_ofNat]

/-- Rounding a number within `ε` of a real number loses at most `2ε` against any other value. -/
theorem abs_fixTo64_sub_le {v : ℤ} {r : ℝ} (hv : v ≠ 0) (hr : |r| ≤ 1) (hnear : |fixReal v - r| ≤ 1 / 2 ^ 100) {y : Word}
    (hy : isFinite y = true) : |((fvalue (fixTo64 v) : ℚ) : ℝ) - r| ≤ |((fvalue y : ℚ) : ℝ) - r| + 1 / 2 ^ 99 := by
  have habs : |fixReal v| < 2 ^ 1 := by linarith [abs_sub_abs_le_abs_sub (fixReal v) r]
  have hbound : |(v : ℚ) / 2 ^ 128| < overflowBound := by
    refine lt_of_lt_of_le ?_ (two_pow_le_overflowBound (k := 1) (by decide))
    rw [← cast_fixReal] at habs
    exact_mod_cast habs
  obtain ⟨-, -, hnearest, -⟩ := (isRounded_fixTo64 hv).2 hbound
  have hle : |((fvalue (fixTo64 v) : ℚ) : ℝ) - fixReal v| ≤ |((fvalue y : ℚ) : ℝ) - fixReal v| := by
    rw [← cast_fixReal]
    exact_mod_cast hnearest y hy
  have h1 := abs_sub_le ((fvalue (fixTo64 v) : ℚ) : ℝ) (fixReal v) r
  have h2 := abs_sub_le ((fvalue y : ℚ) : ℝ) r (fixReal v)
  rw [abs_sub_comm r] at h2
  linarith

/-! ### The one nearest value, for m up to 64 (R82) -/

/-- Away from a power of two, other values are at least a unit in the last place away. -/
theorem two_pow_le_abs_units_sub {w y : Word} (he : fexp w ≠ 0) (hf : ffrac w ≠ 0) (hne : y ≠ w) :
    (2 : ℤ) ^ (fexp w - 1) ≤ |units y - units w| := by
  have hmag : magUnits w = (2 ^ 52 + ffrac w) * 2 ^ (fexp w - 1) := if_neg he
  have hpow := Nat.two_pow_pos (fexp w - 1)
  have hunits : units y ≠ units w := fun h => hne (eq_of_units_eq h fun h0 => by
    rw [← Int.natAbs_eq_zero, natAbs_units, hmag] at h0
    exact absurd h0 (by positivity))
  have hdvd : (2 : ℤ) ^ (fexp w - 1) ∣ units w := by
    have : 2 ^ (fexp w - 1) ∣ (units w).natAbs := by
      rw [natAbs_units, hmag]
      exact Nat.dvd_mul_left _ _
    exact_mod_cast Int.natCast_dvd.2 this
  obtain h | ⟨-, h⟩ := magUnits_grid y (fexp w - 1)
  · -- both are on the grid of the last place
    rw [← natAbs_units] at h
    have hdvd' : (2 : ℤ) ^ (fexp w - 1) ∣ units y := by exact_mod_cast Int.natCast_dvd.2 h
    exact Int.le_of_dvd (abs_pos.2 (sub_ne_zero.2 hunits)) ((dvd_abs _ _).2 (dvd_sub hdvd' hdvd))
  · -- the other one is below the magnitudes of this exponent
    have hfar : magUnits y + 2 ^ (fexp w - 1) ≤ magUnits w := by
      rw [Nat.pow_add] at h
      rw [hmag, Nat.add_mul]
      have := Nat.le_mul_of_pos_left (2 ^ (fexp w - 1)) (Nat.pos_of_ne_zero hf)
      omega
    rw [← natAbs_units, ← natAbs_units] at hfar
    have hfar' : ((units y).natAbs : ℤ) + 2 ^ (fexp w - 1) ≤ (units w).natAbs := by exact_mod_cast hfar
    rw [Int.natCast_natAbs, Int.natCast_natAbs] at hfar'
    linarith [abs_sub_abs_le_abs_sub (units w) (units y), abs_sub_comm (units w) (units y)]

/-- The word rounds a fixed-point number so far from a tie that it is the one value nearest to every real within 2^-100 of the number. -/
def roundsClearly (w : Word) (v : ℤ) : Bool :=
  decide (fexp w ≠ 0 ∧ ffrac w ≠ 0 ∧ 2 * (|fvalue w - v / 2 ^ 128| + 1 / 2 ^ 100) < 2 ^ (fexp w - 1) / 2 ^ 1074)

theorem abs_sub_lt_of_roundsClearly {w y : Word} {v : ℤ} {r : ℝ} (h : roundsClearly w v = true) (hnear : |fixReal v - r| ≤ 1 / 2 ^ 100)
    (hne : y ≠ w) : |((fvalue w : ℚ) : ℝ) - r| < |((fvalue y : ℚ) : ℝ) - r| := by
  obtain ⟨he, hf, hclear⟩ := of_decide_eq_true h
  have hgap : (2 : ℚ) ^ (fexp w - 1) / 2 ^ 1074 ≤ |fvalue y - fvalue w| := by
    have hpos : (0 : ℚ) < 2 ^ 1074 := by positivity
    rw [fvalue, fvalue, ← sub_div, abs_div, abs_of_pos hpos, div_le_div_iff_of_pos_right hpos]
    exact_mod_cast two_pow_le_abs_units_sub he hf hne
  have hfar : 2 * (|((fvalue w : ℚ) : ℝ) - fixReal v| + 1 / 2 ^ 100) < |((fvalue y : ℚ) : ℝ) - fvalue w| := by
    have h' := (Rat.cast_lt (K := ℝ)).2 (hclear.trans_le hgap)
    push_cast at h'
    exact h'
  have h1 := abs_sub_le ((fvalue w : ℚ) : ℝ) (fixReal v) r
  have h2 := abs_sub_le ((fvalue y : ℚ) : ℝ) r (fvalue w)
  rw [abs_sub_comm r] at h2
  linarith

/-- No twiddle of the table of 64 is near a tie. -/
theorem directTw_64_roundsClearly : ∀ k < 32, k ≠ 0 → k ≠ 16 →
    roundsClearly (directTw 6 k false).re (fixUnit 6 k).1 = true ∧ roundsClearly (directTw 6 k false).im (fixUnit 6 k).2 = true := by
  decide +kernel

theorem fixUnit_scaled (S k j : Nat) : fixUnit (S + j) (k * 2 ^ j) = fixUnit S k := by
  induction j with
  | zero => rw [Nat.pow_zero, Nat.mul_one, Nat.add_zero]
  | succ j ih => rw [← ih, Nat.pow_succ', Nat.mul_left_comm, ← Nat.add_assoc, fixUnit_succ_double]

/-- Shorter tables are part of the table of 64. -/
theorem directTw_roundsClearly {S k : Nat} (hS : S ≤ 6) (h0 : 0 < k) (h1 : 2 * k < 2 ^ S) (h2 : 4 * k ≠ 2 ^ S) :
    roundsClearly (directTw S k false).re (fixUnit S k).1 = true ∧ roundsClearly (directTw S k false).im (fixUnit S k).2 = true := by
  obtain ⟨j, hj⟩ := Nat.exists_eq_add_of_le hS
  have hpow : 2 ^ S * 2 ^ j = 64 := by rw [← Nat.pow_add, ← hj]
  have hj0 := Nat.two_pow_pos j
  have hlt : 2 * k * 2 ^ j < 2 ^ S * 2 ^ j := Nat.mul_lt_mul_of_pos_right h1 hj0
  have hne : 4 * k * 2 ^ j ≠ 2 ^ S * 2 ^ j := fun h => h2 (Nat.eq_of_mul_eq_mul_right hj0 h)
  have hpos := Nat.mul_pos h0 hj0
  rw [hpow, Nat.mul_assoc] at hlt hne
  have h := directTw_64_roundsClearly (k * 2 ^ j) (by omega) (by omega) (by omega)
  rwa [hj, directTw_scaled, fixUnit_scaled] at h

/-- Settles O46: the fixed-point unit roots are near the unit circle's points, their parts are not zero where they are rounded, and for short tables
every rounding is clear of a tie. -/
theorem directRootsNearRealValues : Obligations.DirectRootsNearRealValues := by
  refine ⟨fun S k hS hk => fixUnit_near hS hk, fun S inv => if_pos rfl, fun S k inv h => ?_, fun S k => directTw_true,
    fun S k hS h0 h1 h2 => ?_⟩
  · rw [directTw, if_neg (by have := Nat.two_pow_pos S; omega), if_pos h]
    cases inv <;> rfl
  · obtain ⟨hcos, hsin⟩ := fixUnit_near hS (show k < 2 ^ S by omega)
    obtain ⟨hcos0, hsin0⟩ := one_div_le_abs_cos_sin h0 h1 h2
    have hre := ne_zero_of_near hS hcos hcos0
    have him := ne_zero_of_near hS hsin hsin0
    have hclear (h6 : S ≤ 6) := directTw_roundsClearly h6 h0 h1 h2
    rw [directTw_false h0.ne' h2] at hclear ⊢
    dsimp only at hclear ⊢
    refine ⟨isRounded_fixTo64 hre, isRounded_fixTo64 him, fun y hy => ⟨?_, ?_⟩, fun h6 y _ => ?_⟩
    · exact abs_fixTo64_sub_le hre (Real.abs_cos_le_one _) hcos hy
    · exact abs_fixTo64_sub_le him (Real.abs_sin_le_one _) hsin hy
    · obtain ⟨hclear_re, hclear_im⟩ := hclear h6
      exact ⟨abs_sub_lt_of_roundsClearly hclear_re hcos, abs_sub_lt_of_roundsClearly hclear_im hsin⟩

end Sys2Proof.Machine
end

section
/-! SUPPORT. The transform family: what its checks answer (O25) and what each of its commands writes (O30 to O34). -/

namespace Sys2Proof.Machine

/-! ### The checks and the state they complete to (R90, R141) -/

section
variable {p : Params} {n L d count : Nat} {stage src : Option Nat}

theorem checkTransform_of_not_pow2 (h : ∀ L, n ≠ 2 ^ L) : checkTransform p n stage src d count = some .invalidArgument := by
  have hn : pow2 n = false := Bool.eq_false_iff.2 fun hp => (pow2_iff.1 hp).elim h
  simp [checkTransform, hn]

theorem checkTransform_of_stage_out {st : Nat} (h : st = 0 ∨ L < st) :
    checkTransform p (2 ^ L) (some st) src d count = some .invalidArgument := by
  have hout : decide (1 ≤ st ∧ st ≤ (2 ^ L).log2) = false := by rw [Nat.log2_two_pow, decide_eq_false_iff_not]; omega
  simp only [checkTransform, pow2_iff.2 ⟨L, rfl⟩, Option.any_some, hout]
  rfl

/-- With a length 2^L and a stage of its transform the length and then the ranges are left to check. -/
theorem checkTransform_two_pow (hst : ∀ st, stage = some st → 1 ≤ st ∧ st ≤ L) :
    checkTransform p (2 ^ L) stage src d count =
      if p.log2Nmax < L then some .tooLong
      else if (∃ a, src = some a ∧ 2 ^ p.log2Dmem < a + 2 ^ L) ∨ 2 ^ p.log2Dmem < d + count then some .range
      else none := by
  have hstage : stage.any (fun s => !decide (1 ≤ s ∧ s ≤ (2 ^ L).log2)) = false := by
    cases stage with
    | none => rfl
    | some st => simpa using hst st rfl
  have hlen : 2 ^ L ≤ p.nmax ↔ ¬ p.log2Nmax < L := by rw [Params.nmax, Nat.pow_le_pow_iff_right (by decide), Nat.not_lt]
  simp only [checkTransform, pow2_iff.2 ⟨L, rfl⟩, hstage, hlen, inRange, Params.dmemEntries, ← Nat.not_le]
  cases src <;> grind

end

/-- A check that fails completes the command with its code, before any access (R141, R142). -/
theorem transform_failed {s : State} {stage : Option Nat} (f : List Cplx → List Cplx) {c : ErrorCode}
    (hc : checkTransform s.params s.latch.n stage (some s.latch.a) s.latch.d s.latch.n = some c) :
    s.finish (transform s stage f) = .next (failedWith s c 0) := by
  simp only [transform, hc, finish_raised s (checkTransform_ne_none hc).1]

theorem execTwid_failed {s : State} {st : Nat} {inv : Bool} {c : ErrorCode}
    (hc : checkTransform s.params s.latch.n (some st) none s.latch.d (2 ^ (st - 1)) = some c) :
    execTwid st inv s = .next (failedWith s c 0) := by
  simp only [execTwid, hc, finish_raised s (checkTransform_ne_none hc).1]

/-- FFT, IFFT and BITREV fail alike. -/
theorem exec_failed_of_mem {s : State} {i : Instr} (hi : i ∈ [Instr.fft, Instr.ifft, Instr.bitrev]) {c : ErrorCode}
    (hc : checkTransform s.params s.latch.n none (some s.latch.a) s.latch.d s.latch.n = some c) :
    exec i s = .next (failedWith s c 0) := by
  simp only [List.mem_cons, List.not_mem_nil, or_false] at hi
  obtain rfl | rfl | rfl := hi <;> exact transform_failed _ hc

/-- Settles O25: the checks are tested in R90's order, and a failing one completes with its code. -/
theorem transformChecksInOrder : Obligations.TransformChecksInOrder := by
  intro s
  refine ⟨fun i hi => ⟨fun hn => ?_, fun L hn => ⟨fun hlong => ?_, fun hfits hrange => ?_⟩⟩,
    fun st inv => ⟨fun hn => ?_, fun L hn => ⟨fun hout => ?_, fun h1 h2 hlong => ?_, fun h1 h2 hfits =>
      ⟨fun hrange => ?_, fun hrange => ?_⟩⟩⟩⟩
  · exact exec_failed_of_mem hi (checkTransform_of_not_pow2 hn)
  · refine exec_failed_of_mem hi ?_
    rw [hn, checkTransform_two_pow (by simp), if_pos hlong]
  · refine exec_failed_of_mem hi ?_
    rw [hn, checkTransform_two_pow (by simp), if_neg (by omega), if_pos (by simpa using hrange)]
  · exact ⟨transform_failed _ (checkTransform_of_not_pow2 hn), execTwid_failed (checkTransform_of_not_pow2 hn)⟩
  · refine ⟨transform_failed _ ?_, execTwid_failed ?_⟩ <;> rw [hn, checkTransform_of_stage_out hout]
  · refine ⟨transform_failed _ ?_, execTwid_failed ?_⟩ <;> rw [hn, checkTransform_two_pow (by simp [h1, h2]), if_pos hlong]
  · refine transform_failed _ ?_
    rw [hn, checkTransform_two_pow (by simp [h1, h2]), if_neg (by omega), if_pos (by simpa using hrange)]
  · refine execTwid_failed ?_
    rw [hn, checkTransform_two_pow (by simp [h1, h2]), if_neg (by omega), if_pos (.inr hrange)]

/-! ### What each command writes (R91 to R95) -/

theorem HoldsFrom.readEntry {m : Memory} {e k : Nat} {xs : List Cplx} {c : Cplx} (h : HoldsFrom m e xs) (hk : xs[k]? = some c) :
    m.readEntry (e + k) = some c := by
  obtain ⟨hlt, rfl⟩ := List.getElem?_eq_some_iff.1 hk
  exact h k hlt

/-- A transform command that fits, with its source written, completes with its function of the source from DST on. -/
theorem transform_completes {s : State} {L : Nat} {stage : Option Nat} {xs : List Cplx} (hadm : TransformAdmits s L (2 ^ L))
    (hst : ∀ st, stage = some st → 1 ≤ st ∧ st ≤ L) (hl : xs.length = 2 ^ L) (hx : HoldsFrom s.dmem s.latch.a xs)
    (f : List Cplx → List Cplx) :
    ∃ t, s.finish (transform s stage f) = .next t ∧ CompletedOk s t ∧ t.dmem = writeEntries s.dmem s.latch.d (f xs) := by
  obtain ⟨hn, -⟩ := id hadm
  rw [transform_ok (checkTransform_of_admits hadm hst) (hl.trans hn.symm) hx]
  exact finish_ok s _

/-- Settles O30: the function that FFT writes is the core, or the identity for the one length 2^0. -/
theorem fftWritesTheTransform : Obligations.FftWritesTheTransform := by
  intro s L xs hadm hl hx
  obtain ⟨t, ht, hok, hmem⟩ := transform_completes (stage := none) hadm (by simp) hl hx
    (fun x => if s.latch.n = 1 then x else fftCore s.params.twmode s.latch.n.log2 false x)
  have hone : 2 ^ L = 1 ↔ L = 0 := by simp
  simp only [hadm.1, hone, Nat.log2_two_pow] at hmem
  refine ⟨t, _, ht, hok, ?_, rfl, hmem ▸ writeEntries_spec _ _ _⟩
  split
  · exact hl
  · exact fftCore_length ..

/-- For length 1 the core is the identity and the divisor is the i2f of 1 (R89). -/
theorem invCore_eq_map (mode : TwMode) (L : Nat) (x : List Cplx) :
    invCore mode L x = (if L = 0 then x else fftCore mode L true x).map (fun c => cdivs c (i2f ((2 ^ L : Nat) : Int))) := by
  have hone : i2f ((2 ^ 0 : Nat) : Int) = fone := by decide +kernel
  unfold invCore
  split
  · next h => rw [h, hone]
  · rfl

/-- Settles O31: the inverse core divides each element, by i2f(n) for length 1 too. -/
theorem ifftWritesTheInverse : Obligations.IfftWritesTheInverse := by
  intro s L xs hadm hl hx
  obtain ⟨t, ht, hok, hmem⟩ := transform_completes (stage := none) hadm (by simp) hl hx (invCore s.params.twmode s.latch.n.log2)
  rw [hadm.1, Nat.log2_two_pow] at hmem
  refine ⟨t, _, ht, hok, invCore_length hl, fun k c hk => ?_, hmem ▸ writeEntries_spec _ _ _⟩
  rw [invCore_eq_map, List.getElem?_map, hk]
  rfl

/-- Settles O32: reversing the place of a place gives the place back. -/
theorem bitrevMovesEntries : Obligations.BitrevMovesEntries := by
  intro s L xs hadm hl hx
  obtain ⟨t, ht, hok, hmem⟩ := transform_completes (stage := none) hadm (by simp) hl hx (bitrevP s.latch.n.log2)
  rw [hadm.1, Nat.log2_two_pow] at hmem
  obtain ⟨hheld, hkept⟩ := hmem ▸ writeEntries_spec (bitrevP L xs) s.dmem s.latch.d
  refine ⟨t, ht, hok, fun i x hi => hheld.readEntry ?_, by simpa using hkept⟩
  have hlt : i < 2 ^ L := hl ▸ (List.getElem?_eq_some_iff.1 hi).1
  rw [bitrevP_getElem? hl (rev_lt L i), rev_rev hlt, hi]

/-- One block of a stage: the sum of place k stands there, the difference half a block above (R86). -/
theorem bflyBlock_getElem? {ts es os : List Cplx} {h k : Nat} {t e o : Cplx} (hts : ts.length = h) (hes : es.length = h) (hos : os.length = h)
    (ht : ts[k]? = some t) (he : es[k]? = some e) (ho : os[k]? = some o) :
    (bflyBlock ts es os)[k]? = some (bfly e o t).1 ∧ (bflyBlock ts es os)[k + h]? = some (bfly e o t).2 := by
  obtain ⟨ht', rfl⟩ := List.getElem?_eq_some_iff.1 ht
  obtain ⟨he', rfl⟩ := List.getElem?_eq_some_iff.1 he
  obtain ⟨ho', rfl⟩ := List.getElem?_eq_some_iff.1 ho
  have hlen : (bflyRow ts es os).length = h := by rw [bflyRow_length, hts, hes, hos, Nat.min_self, Nat.min_self]
  have hk : k < (bflyRow ts es os).length := by omega
  have hrow : (bflyRow ts es os)[k]? = some (bfly es[k] os[k] ts[k]) := by
    rw [List.getElem?_eq_getElem hk, bflyRow_getElem ts es os k hk ht' he' ho']
  refine ⟨?_, ?_⟩
  · rw [bflyBlock, List.getElem?_append_left (by simpa using hk), List.getElem?_map, hrow, Option.map_some]
  · rw [bflyBlock, List.getElem?_append_right (by simp [hlen]), List.length_map, hlen, Nat.add_sub_cancel, List.getElem?_map, hrow,
      Option.map_some]

/-- Block b of a stage: the butterfly of place k joins its elements k and k + h (R85, R86). -/
theorem stageBlocks_getElem? {ts : List Cplx} {h k : Nat} {t e o : Cplx} (hts : ts.length = h) (ht : ts[k]? = some t) :
    ∀ (nb b : Nat) (x : List Cplx), x.length = 2 * h * nb → b < nb →
      x[b * (2 * h) + k]? = some e → x[b * (2 * h) + k + h]? = some o →
      (stageBlocks ts h nb x)[b * (2 * h) + k]? = some (bfly e o t).1 ∧
        (stageBlocks ts h nb x)[b * (2 * h) + k + h]? = some (bfly e o t).2 := by
  have hk : k < h := hts ▸ (List.getElem?_eq_some_iff.1 ht).1
  intro nb
  induction nb with
  | zero => intro b x _ hb; exact absurd hb (Nat.not_lt_zero b)
  | succ nb ih =>
    intro b x hx hb he ho
    rw [Nat.mul_succ] at hx
    have hes : (x.take h).length = h := by rw [List.length_take]; omega
    have hos : ((x.drop h).take h).length = h := by rw [List.length_take, List.length_drop]; omega
    have hblock := bflyBlock_length_of hts hes hos
    cases b with
    | zero =>
      rw [Nat.zero_mul, Nat.zero_add] at he ho ⊢
      rw [stageBlocks, List.getElem?_append_left (by omega), List.getElem?_append_left (by omega)]
      refine bflyBlock_getElem? hts hes hos ht ?_ ?_
      · rw [List.getElem?_take_of_lt hk, he]
      · rw [List.getElem?_take_of_lt hk, List.getElem?_drop, Nat.add_comm, ho]
    | succ b =>
      have hplace : (b + 1) * (2 * h) + k = 2 * h + (b * (2 * h) + k) := by rw [Nat.succ_mul]; omega
      rw [hplace] at he ho ⊢
      rw [Nat.add_assoc (2 * h)] at ho ⊢
      rw [← List.getElem?_drop] at he ho
      rw [stageBlocks, List.getElem?_append_right (by omega), List.getElem?_append_right (by omega), hblock,
        Nat.add_sub_cancel_left, Nat.add_sub_cancel_left]
      exact ih b _ (by rw [List.length_drop]; omega) (by omega) he ho

theorem twiddles_getElem? (mode : TwMode) (L S : Nat) (inv : Bool) {k : Nat} (hk : k < 2 ^ (S - 1)) :
    (twiddles mode L S inv)[k]? = some (tw mode L S k inv) := by
  have hk' : k < (twiddles mode L S inv).length := by rwa [twiddles_length]
  rw [List.getElem?_eq_getElem hk', twiddles_getElem]

/-- Settles O33: each block of the stage holds its butterflies. -/
theorem stageWritesButterflies : Obligations.StageWritesButterflies := by
  intro s L st inv xs hadm h1 h2 hl hx
  obtain ⟨t, ht, hok, hmem⟩ := transform_completes (stage := some st) hadm (by simp [h1, h2]) hl hx
    (stageFn s.params.twmode s.latch.n.log2 st inv)
  rw [hadm.1, Nat.log2_two_pow] at hmem
  obtain ⟨hheld, hkept⟩ := hmem ▸ writeEntries_spec (stageFn s.params.twmode L st inv xs) s.dmem s.latch.d
  rw [stageFn_length h1 h2 hl] at hkept
  refine ⟨t, ht, hok, fun b k e o hb hk he ho => ?_, hkept⟩
  have hblock : 2 ^ st = 2 * 2 ^ (st - 1) := by rw [← Nat.pow_succ', Nat.succ_eq_add_one, Nat.sub_add_cancel h1]
  rw [hblock] at he ho ⊢
  have hbfly := stageBlocks_getElem? (twiddles_length _ _ _ _) (twiddles_getElem? s.params.twmode L st inv hk) (2 ^ (L - st)) b xs
    (hl.trans (two_pow_blocks h1 h2).symm) hb he ho
  exact ⟨hheld.readEntry hbfly.1, hheld.readEntry hbfly.2⟩

/-- Settles O34: TWID reads no source, and its list of twiddles is `TW`'s values. -/
theorem twidWritesTheTwiddles : Obligations.TwidWritesTheTwiddles := by
  intro s L st inv hn hL h1 h2 hd
  have hc : checkTransform s.params s.latch.n (some st) none s.latch.d (2 ^ (st - 1)) = none := by
    rw [hn, checkTransform_two_pow (by simp [h1, h2]), if_neg (by omega), if_neg (by simpa using hd)]
  obtain ⟨hheld, hkept⟩ := writeEntries_spec (twiddles s.params.twmode s.latch.n.log2 st inv) s.dmem s.latch.d
  obtain ⟨t, ht, hok, hmem⟩ := finish_ok s (writeEntries s.dmem s.latch.d (twiddles s.params.twmode s.latch.n.log2 st inv))
  rw [← hmem, hn, Nat.log2_two_pow] at hheld hkept
  refine ⟨t, ?_, hok, fun k hk => hheld.readEntry (twiddles_getElem? _ L st inv hk), by simpa using hkept⟩
  simp only [exec, execTwid, hc, ht]

end Sys2Proof.Machine
end

section
/-! SUPPORT. FFT and IFFT as runs of BITREV, STAGE and VDIVS (O40, O41): commands in place on a destination overwrite its entries only, so the
last sequence written decides every byte. -/

namespace Sys2Proof.Machine

/-! ### Overwritten entries -/

theorem read_writeWord_congr {m m' : Memory} {a x : Nat} (w : Word) (h : (x < a ∨ a + 8 ≤ x) → m.read x = m'.read x) :
    (m.writeWord a w).read x = (m'.writeWord a w).read x := by
  rw [read_writeWord, read_writeWord]
  split
  · rfl
  · exact h (by omega)

theorem read_writeEntry_congr {m m' : Memory} {e x : Nat} (c : Cplx) (h : (x < 16 * e ∨ 16 * e + 16 ≤ x) → m.read x = m'.read x) :
    (m.writeEntry e c).read x = (m'.writeEntry e c).read x :=
  read_writeWord_congr _ fun hhi => read_writeWord_congr _ fun hlo => h (by unfold hiAddr at hhi; unfold loAddr at hlo; omega)

/-- Two memories that read alike outside the entries written read alike after the write. -/
theorem read_writeEntries_congr (ys : List Cplx) : ∀ {m m' : Memory} {d x : Nat},
    ((x < 16 * d ∨ 16 * (d + ys.length) ≤ x) → m.read x = m'.read x) →
    (writeEntries m d ys).read x = (writeEntries m' d ys).read x := by
  induction ys with
  | nil => intro m m' d x h; exact h (by simp only [List.length_nil]; omega)
  | cons y ys ih =>
    intro m m' d x h
    exact ih fun hx => read_writeEntry_congr y fun hx' => h (by rw [List.length_cons]; omega)

/-! ### Commands in place -/

/-- A command of one source that fits, with its source written, completes with its function of each lane from DST on. -/
theorem lane1_completes {s : State} {xs : List Cplx} (hadm : VectorAdmits s [s.latch.a]) (hl : xs.length = s.latch.n)
    (hx : HoldsFrom s.dmem s.latch.a xs) (f : Cplx → Cplx) :
    ∃ t, s.finish (elementwise s [s.latch.a] (lane1 s f)) = .next t ∧ CompletedOk s t ∧
      t.dmem = writeEntries s.dmem s.latch.d (xs.map f) := by
  have hlanes : ∀ k (h : k < (xs.map f).length), lane1 s f k = .ok (xs.map f)[k] := fun k h => by
    rw [List.getElem_map]
    exact lane1_written (hx k (by simpa using h)) f
  rw [elementwise_ok hadm (by rwa [List.length_map]) hlanes]
  exact finish_ok s _

/-- `v` reports NONE, keeps the parameters, length and destination of `s`, and its data memory reads as that of `s` with `ys` from DST on. -/
structure DestinationHolds (s v : State) (ys : List Cplx) : Prop where
  params : v.params = s.params
  len : v.latch.len = s.latch.len
  dst : v.latch.dst = s.latch.dst
  errcode : v.status.errcode = .none
  reads : ∀ a, v.dmem.read a = (writeEntries s.dmem s.latch.d ys).read a

theorem destinationHolds_of_completedOk {s t : State} {ys : List Cplx} (hok : CompletedOk s t)
    (hmem : t.dmem = writeEntries s.dmem s.latch.d ys) : DestinationHolds s t ys := by
  obtain ⟨hstatus, -, hparams, -, hlatch, -⟩ := hok
  exact ⟨hparams, by rw [hlatch], by rw [hlatch], by rw [hstatus], fun a => by rw [hmem]⟩

/-- The source moved onto the destination, and SCALAR set: the latch of a command in place. -/
def State.onDestination (v : State) (k : Word) : State := { v with latch := { v.latch with srca := v.latch.dst, scalar := k } }

section
variable {s v : State} {ys : List Cplx} (h : DestinationHolds s v ys)
include h

theorem DestinationHolds.latch_n : v.latch.n = s.latch.n := congrArg BitVec.toNat h.len

theorem DestinationHolds.latch_d : v.latch.d = s.latch.d := congrArg BitVec.toNat h.dst

theorem DestinationHolds.holdsFrom : HoldsFrom v.dmem v.latch.d ys := by
  intro k hk
  rw [readEntry_congr fun a _ _ => h.reads a, h.latch_d]
  exact (writeEntries_spec ys s.dmem s.latch.d).1 k hk

theorem DestinationHolds.onDestination (k : Word) : DestinationHolds s (v.onDestination k) ys :=
  ⟨h.params, h.len, h.dst, h.errcode, h.reads⟩

/-- A completion that writes the destination again leaves what it wrote. -/
theorem DestinationHolds.overwritten {w : State} {zs : List Cplx} (hok : CompletedOk v w)
    (hmem : w.dmem = writeEntries v.dmem v.latch.d zs) (hl : zs.length = ys.length) : DestinationHolds s w zs := by
  have hw := destinationHolds_of_completedOk hok hmem
  refine ⟨hw.params.trans h.params, hw.len.trans h.len, hw.dst.trans h.dst, hw.errcode, fun a => ?_⟩
  rw [hmem, h.latch_d]
  refine read_writeEntries_congr zs fun ha => ?_
  rw [h.reads, read_writeEntries_other ys _ (by omega)]

variable {L : Nat} (hadm : TransformAdmits s L (2 ^ L))
include hadm

theorem DestinationHolds.admits (k : Word) : TransformAdmits (v.onDestination k) L (2 ^ L) := by
  obtain ⟨hn, hL, -, hd⟩ := hadm
  have hdst : v.latch.d + 2 ^ L ≤ 2 ^ v.params.log2Dmem := by rwa [h.params, h.latch_d]
  exact ⟨h.latch_n.trans hn, h.params ▸ hL, hdst, hdst⟩

variable (hl : ys.length = 2 ^ L)
include hl

/-- STAGE in place applies its stage to what the destination holds (R94). -/
theorem stage_in_place {S : Nat} (h1 : 1 ≤ S) (h2 : S ≤ L) (inv : Bool) :
    ∃ w, exec (.stage S inv) { v with latch := { v.latch with srca := v.latch.dst } } = .next w ∧
      DestinationHolds s w (stageFn s.params.twmode L S inv ys) := by
  obtain ⟨w, hw, hok, hmem⟩ := transform_completes (stage := some S) (h.admits hadm v.latch.scalar) (by simp [h1, h2]) hl
    h.holdsFrom (stageFn v.params.twmode v.latch.n.log2 S inv)
  rw [h.params, h.latch_n, hadm.1, Nat.log2_two_pow] at hmem
  exact ⟨w, hw, (h.onDestination _).overwritten hok hmem ((stageFn_length h1 h2 hl).trans hl.symm)⟩

/-- VDIVS in place divides what the destination holds by SCALAR (R116). -/
theorem vdivs_in_place (k : Word) :
    ∃ w, exec .vdivs (v.onDestination k) = .next w ∧ DestinationHolds s w (ys.map (fun c => cdivs c k)) := by
  obtain ⟨hn, -, ha, hd⟩ := h.admits hadm k
  have hvec : VectorAdmits (v.onDestination k) [(v.onDestination k).latch.a] := by
    refine .inr ⟨fun q hq => ?_, fun q hq => .inl (List.mem_singleton.1 hq)⟩
    obtain rfl | rfl : q = (v.onDestination k).latch.a ∨ q = (v.onDestination k).latch.d := by simpa using hq
    · rwa [hn]
    · rwa [hn]
  obtain ⟨w, hw, hok, hmem⟩ := lane1_completes hvec (hl.trans hn.symm) h.holdsFrom (fun c => cdivs c k)
  exact ⟨w, hw, (h.onDestination k).overwritten hok hmem (List.length_map _)⟩

/-- Stages 1 to S in place apply the iteration to what the destination holds (R87, R94). -/
theorem runStages_in_place (inv : Bool) : ∀ S ≤ L,
    ∃ w, runStages inv S v = some w ∧ DestinationHolds s w (stagesUpTo s.params.twmode L inv S ys) := by
  intro S
  induction S with
  | zero => intro _; exact ⟨v, rfl, h⟩
  | succ S ih =>
    intro hS
    obtain ⟨u, hu, hheld⟩ := ih (by omega)
    obtain ⟨w, hw, hheld'⟩ := stage_in_place hheld hadm (stagesUpTo_length S (by omega) hl) (Nat.succ_pos S) hS inv
    exact ⟨w, by simp only [runStages, hu, hw], hheld'⟩

end

/-! ### The two transforms -/

/-- A transform command that completed with NONE passed its checks, read its whole source and wrote its function of it. -/
theorem admits_of_transform_completed {s t : State} {L : Nat} {stage : Option Nat} {f : List Cplx → List Cplx} (hn : s.latch.n = 2 ^ L)
    (h : s.finish (transform s stage f) = .next t) (hok : t.status.errcode = .none) :
    ∃ xs, TransformAdmits s L (2 ^ L) ∧ xs.length = 2 ^ L ∧ HoldsFrom s.dmem s.latch.a xs ∧
      t.dmem = writeEntries s.dmem s.latch.d (f xs) := by
  cases hc : checkTransform s.params s.latch.n stage (some s.latch.a) s.latch.d s.latch.n with
  | some c =>
    rw [transform_failed f hc] at h
    cases h
    exact absurd hok (checkTransform_ne_none hc).1
  | none =>
    obtain ⟨-, -, hL, ha, hd⟩ := checkTransform_eq_none.1 hc
    rw [hn] at hL ha hd
    have hadm : TransformAdmits s L (2 ^ L) := ⟨hn, (Nat.pow_le_pow_iff_right (by decide)).1 hL, ha _ rfl, hd⟩
    cases hx : lanes (fun i => dRead s.dmem (s.latch.a + i)) s.latch.n 0 with
    | error e =>
      obtain ⟨k, -, hk, -⟩ := (lanes_eq_error _ _ _ _).1 hx
      obtain ⟨-, rfl⟩ := dRead_eq_error.1 hk
      simp only [transform, hc, hx] at h
      cases h
    | ok xs =>
      obtain ⟨hl, hheld⟩ := lanes_dRead_eq_ok.1 hx
      rw [transform_ok hc hl hheld] at h
      cases h
      exact ⟨xs, hadm, hl.trans hn, hheld, rfl⟩

/-- BITREV and then all stages in place leave the core of the source at DST (R87). -/
theorem bitrev_then_stages {s : State} {L : Nat} {xs : List Cplx} (hadm : TransformAdmits s L (2 ^ L)) (hl : xs.length = 2 ^ L)
    (hx : HoldsFrom s.dmem s.latch.a xs) (inv : Bool) :
    ∃ u v, exec .bitrev s = .next u ∧ runStages inv L u = some v ∧ DestinationHolds s v (fftCore s.params.twmode L inv xs) := by
  obtain ⟨u, hu, hok, hmem⟩ := transform_completes (stage := none) hadm (by simp) hl hx (bitrevP s.latch.n.log2)
  rw [hadm.1, Nat.log2_two_pow] at hmem
  obtain ⟨v, hv, hheld⟩ := runStages_in_place (destinationHolds_of_completedOk hok hmem) hadm (bitrevP_length L xs) inv L (Nat.le_refl L)
  exact ⟨u, v, hu, hv, hheld⟩

/-- Settles O40: both leave the core of the source at DST, and every other byte. -/
theorem fftEqualsBitrevThenStages : Obligations.FftEqualsBitrevThenStages := by
  intro s t L hL hn ht hok
  obtain ⟨xs, hadm, hl, hx, hmem⟩ := admits_of_transform_completed hn ht hok
  obtain ⟨u, v, hu, hv, hheld⟩ := bitrev_then_stages hadm hl hx false
  have hone : 2 ^ L ≠ 1 := (Nat.one_lt_two_pow (by omega)).ne'
  rw [hn, if_neg hone, Nat.log2_two_pow] at hmem
  exact ⟨u, v, hu, hv, hheld.errcode, fun a => by rw [hheld.reads, hmem]⟩

/-- Settles O41: the inverse core is the core with the conjugate roots, each element divided as VDIVS does. -/
theorem ifftEqualsStagesThenVdivs : Obligations.IfftEqualsStagesThenVdivs := by
  intro s t L hL hn ht hok
  obtain ⟨xs, hadm, hl, hx, hmem⟩ := admits_of_transform_completed hn ht hok
  obtain ⟨u, v, hu, hv, hheld⟩ := bitrev_then_stages hadm hl hx true
  obtain ⟨w, hw, hheld'⟩ := vdivs_in_place hheld hadm (fftCore_length _ L true xs) (i2f ((2 ^ L : Nat) : Int))
  rw [hn, Nat.log2_two_pow, invCore_eq_map, if_neg (by omega)] at hmem
  exact ⟨u, v, w, hu, hv, hw, hheld'.errcode, fun a => by rw [hheld'.reads, hmem]⟩

end Sys2Proof.Machine
end

section
/-! SUPPORT. The elementwise family: what its checks and VROUND's overflow answer (O26, O27), what each of its commands writes (O35 to O38), and
the square as a product (O42). -/

namespace Sys2Proof.Machine

/-! ### The checks and the state they complete to (R110, R141) -/

section
variable {p : Params} {n d : Nat} {srcs : List Nat}

theorem inRange_eq_false {q : Nat} : inRange p q n = false ↔ 2 ^ p.log2Dmem < q + n :=
  decide_eq_false_iff_not.trans Nat.not_le

theorem partlyOverlaps_eq_true {q : Nat} : partlyOverlaps n d q = true ↔ q ≠ d ∧ q < d + n ∧ d < q + n :=
  decide_eq_true_iff

/-- A range that leaves data memory is found first. -/
theorem checkVector_of_out_of_range (hn : n ≠ 0) (h : ∃ q ∈ srcs ++ [d], 2 ^ p.log2Dmem < q + n) :
    checkVector p n srcs d = some .range := by
  have hout : (srcs ++ [d]).any (fun q => !inRange p q n) = true := by
    simpa only [List.any_eq_true, Bool.not_eq_true', inRange_eq_false] using h
  rw [checkVector, if_neg hn, if_pos hout]

/-- With every range inside data memory a partial overlap is found. -/
theorem checkVector_of_overlap (hn : n ≠ 0) (hin : ∀ q ∈ srcs ++ [d], q + n ≤ 2 ^ p.log2Dmem)
    (h : ∃ q ∈ srcs, q ≠ d ∧ q < d + n ∧ d < q + n) : checkVector p n srcs d = some .overlap := by
  have hrange : ¬ (srcs ++ [d]).any (fun q => !inRange p q n) = true := by
    simpa only [List.any_eq_true, Bool.not_eq_true', inRange_eq_false, not_exists, not_and, Nat.not_lt] using hin
  have hover : srcs.any (partlyOverlaps n d) = true := by simpa only [List.any_eq_true, partlyOverlaps_eq_true] using h
  rw [checkVector, if_neg hn, if_neg hrange, if_pos hover]

/-- A source that stands twice is checked as one that stands once. -/
theorem checkVector_source_twice (q : Nat) : checkVector p n [q, q] d = checkVector p n [q] d := by
  have hranges (f : Nat → Bool) : ([q, q] ++ [d]).any f = ([q] ++ [d]).any f := Bool.or_self_left _ _
  have hsources (f : Nat → Bool) : [q, q].any f = [q].any f := Bool.or_self_left _ _
  rw [checkVector, checkVector, hranges, hsources]

end

/-- A check that fails completes the command with its code, whatever its lanes (R141, R142). -/
theorem elementwise_failed {s : State} {srcs : List Nat} {c : ErrorCode} (hc : checkVector s.params s.latch.n srcs s.latch.d = some c)
    (lane : Nat → Except Stop Cplx) : s.finish (elementwise s srcs lane) = .next (failedWith s c 0) := by
  simp only [elementwise, hc, finish_raised s (checkVector_ne_none hc).1]

/-- The elementwise commands, each with the bases of its sources (R111 to R118). -/
def vectorCommands (s : State) : List (Instr × List Nat) :=
  [(.vadd, [s.latch.a, s.latch.b]), (.vsub, [s.latch.a, s.latch.b]), (.vmul, [s.latch.a, s.latch.b]), (.vdiv, [s.latch.a, s.latch.b]),
    (.vsqr, [s.latch.a]), (.vdivs, [s.latch.a]), (.vcvt, [s.latch.a]), (.vround, [s.latch.a])]

/-- Each of them has the elementwise form, with a lane of its own (R110). -/
theorem exec_of_mem_vectorCommands {s : State} {p : Instr × List Nat} (hp : p ∈ vectorCommands s) :
    ∃ lane, exec p.1 s = s.finish (elementwise s p.2 lane) := by
  simp only [vectorCommands, List.mem_cons, List.not_mem_nil, or_false] at hp
  obtain rfl | rfl | rfl | rfl | rfl | rfl | rfl | rfl := hp <;> exact ⟨_, rfl⟩

/-- Settles O26: the ranges are tested first and the overlaps then, for all commands of the form alike. -/
theorem vectorChecksInOrder : Obligations.VectorChecksInOrder := by
  intro s hn p hp
  obtain ⟨lane, hexec⟩ := exec_of_mem_vectorCommands hp
  rw [hexec]
  exact ⟨fun hout => elementwise_failed (checkVector_of_out_of_range hn hout) lane,
    fun hin hover => elementwise_failed (checkVector_of_overlap hn hin hover) lane⟩

/-! ### VROUND's overflow (R118) -/

theorem laneRound_overflow {s : State} {i : Nat} {w : Word} (hw : s.dmem.readWord (loAddr (s.latch.a + i)) = some w)
    (hover : roundToInt ⟨w, 0⟩ = none) : laneRound s i = .error (.raised .overflow i) := by
  simp only [laneRound, dReadLo_eq_ok.2 hw, hover]

/-- Settles O27: the lanes before the overflowing one succeed, so it is the one that stops the command. -/
theorem vroundOverflowAtFirstLane : Obligations.VroundOverflowAtFirstLane := by
  intro s j w hadm hj hread hbefore hover
  have hstop : elementwise s [s.latch.a] (laneRound s) = .error (.raised .overflow j) := by
    refine elementwise_error hadm hj (laneRound_overflow (hread j (Nat.le_refl j)) hover) fun k hk => ?_
    obtain ⟨q, hq⟩ := Option.ne_none_iff_exists'.1 (hbefore k hk)
    exact ⟨_, laneRound_written (hread k (Nat.le_of_lt hk)) hq⟩
  calc exec .vround s = s.finish (elementwise s [s.latch.a] (laneRound s)) := rfl
    _ = .next (failedWith s .overflow j) := by rw [hstop, finish_raised s (by decide)]

/-! ### What each command writes (R111 to R118) -/

/-- An elementwise command that fits, with every lane answering, completes with the lanes' results from DST on. -/
theorem elementwise_completes {s : State} {srcs : List Nat} {lane : Nat → Except Stop Cplx} {zs : List Cplx} (hadm : VectorAdmits s srcs)
    (hl : zs.length = s.latch.n) (hz : ∀ k (h : k < zs.length), lane k = .ok zs[k]) :
    ∃ t, s.finish (elementwise s srcs lane) = .next t ∧ CompletedOk s t ∧ WrittenFrom s.dmem t.dmem s.latch.d zs := by
  obtain ⟨t, ht, hok, hmem⟩ := finish_ok s (writeEntries s.dmem s.latch.d zs)
  rw [elementwise_ok hadm hl hz]
  exact ⟨t, ht, hok, hmem ▸ writeEntries_spec zs _ _⟩

/-- A command of two sources joins their lanes by its unit, SRCA's first. -/
theorem lane2_completes {s : State} {xs ys : List Cplx} (hadm : VectorAdmits s [s.latch.a, s.latch.b]) (hxl : xs.length = s.latch.n)
    (hyl : ys.length = s.latch.n) (hx : HoldsFrom s.dmem s.latch.a xs) (hy : HoldsFrom s.dmem s.latch.b ys) (f : Cplx → Cplx → Cplx) :
    ∃ t, s.finish (elementwise s [s.latch.a, s.latch.b] (lane2 s f)) = .next t ∧ CompletedOk s t ∧
      WrittenFrom s.dmem t.dmem s.latch.d (List.zipWith f xs ys) := by
  have hlen : (List.zipWith f xs ys).length = s.latch.n := by rw [List.length_zipWith, hxl, hyl, Nat.min_self]
  refine elementwise_completes hadm hlen fun k hk => ?_
  rw [List.getElem_zipWith]
  exact lane2_written (hx k (by omega)) (hy k (by omega)) f

/-- Settles O35: the four commands are one form with the units CADD, CSUB, CMUL and CDIV. -/
theorem twoSourceCommandsWriteLanes : Obligations.TwoSourceCommandsWriteLanes := by
  intro p hp s xs ys hadm hxl hyl hx hy
  have hunit := lane2_completes hadm hxl hyl hx hy
  simp only [List.mem_cons, List.not_mem_nil, or_false] at hp
  obtain rfl | rfl | rfl | rfl := hp
  · exact hunit cadd
  · exact hunit csub
  · exact hunit cmul
  · exact hunit cdiv

/-- Settles O36: both commands are one form, with CSQR and with CDIVS by the latched SCALAR. -/
theorem oneSourceCommandsWriteLanes : Obligations.OneSourceCommandsWriteLanes := by
  intro s xs hadm hl hx
  have hunit (f : Cplx → Cplx) : ∃ t, s.finish (elementwise s [s.latch.a] (lane1 s f)) = .next t ∧ CompletedOk s t ∧
      WrittenFrom s.dmem t.dmem s.latch.d (xs.map f) := by
    obtain ⟨t, ht, hok, hmem⟩ := lane1_completes hadm hl hx f
    exact ⟨t, ht, hok, hmem ▸ writeEntries_spec _ _ _⟩
  exact ⟨hunit csqr, hunit (fun x => cdivs x s.latch.scalar)⟩

/-- Settles O37: each lane needs its low half only. -/
theorem vcvtWritesLanes : Obligations.VcvtWritesLanes := by
  intro s ws hadm hl hread
  refine elementwise_completes hadm (by rwa [List.length_map]) fun k hk => ?_
  rw [List.getElem_map]
  exact laneCvt_written (hread k (by simpa using hk))

/-- Settles O38: each lane needs its low half only, and its value rounds into an int64. -/
theorem vroundWritesLanes : Obligations.VroundWritesLanes := by
  intro s ws qs hadm hwl hql hread hround
  refine elementwise_completes hadm (by rwa [List.length_map]) fun k hk => ?_
  rw [List.length_map] at hk
  have hkw : k < ws.length := by omega
  rw [List.getElem_map]
  exact laneRound_written (hread k hkw) (hround k hkw hk)

/-! ### The square as a product (R114) -/

/-- The latch with SRCB = SRCA. -/
def State.sourceTwice (s : State) : State := { s with latch := { s.latch with srcb := s.latch.srca } }

/-- With SRCB = SRCA a lane of two sources reads one entry twice. -/
theorem lane2_sourceTwice (s : State) (f : Cplx → Cplx → Cplx) (i : Nat) : lane2 s.sourceTwice f i = lane1 s (fun x => f x x) i := by
  cases hx : s.dmem.readEntry (s.latch.a + i) with
  | none => rw [lane1_unwritten hx]; exact lane2_unwritten_a (s := s.sourceTwice) hx f
  | some x => rw [lane1_written hx]; exact lane2_written (s := s.sourceTwice) hx hx f

/-- With SRCB = SRCA the form of two sources answers as the form of one. -/
theorem elementwise_sourceTwice (s : State) (f : Cplx → Cplx → Cplx) :
    elementwise s.sourceTwice [s.latch.a, s.latch.a] (lane2 s.sourceTwice f) = elementwise s [s.latch.a] (lane1 s (fun x => f x x)) := by
  have hcheck : checkVector s.sourceTwice.params s.sourceTwice.latch.n [s.latch.a, s.latch.a] s.sourceTwice.latch.d =
      checkVector s.params s.latch.n [s.latch.a] s.latch.d := checkVector_source_twice s.latch.a
  rw [elementwise, elementwise, hcheck, funext (lane2_sourceTwice s f)]
  rfl

/-- Under another latch a result completes alike, and that latch is kept. -/
theorem finish_withLatch {s t : State} {r : Except Stop Memory} (l : Latch) (h : s.finish r = .next t) :
    State.finish { s with latch := l } r = .next { t with latch := l } := by
  obtain ⟨m, rfl, hm⟩ | ⟨c, k, rfl, hc⟩ | ⟨e, rfl, he⟩ := finish_cases s r
  · cases hm.symm.trans h
    rfl
  · cases hc.symm.trans h
    rfl
  · cases he.symm.trans h

/-- A result that faults does so from every state. -/
theorem finish_fault_of_finish_fault {s : State} (s' : State) {r : Except Stop Memory} {f : Fault} (h : s.finish r = .fault f) :
    s'.finish r = .fault f := by
  obtain ⟨m, rfl, hm⟩ | ⟨c, k, rfl, hc⟩ | ⟨e, rfl, he⟩ := finish_cases s r
  · cases hm.symm.trans h
  · cases hc.symm.trans h
  · exact h

/-- Settles O42: VMUL with SRCB = SRCA reaches the result that VSQR reaches, and both finish with it. -/
theorem vsqrEqualsVmulWithItself : Obligations.VsqrEqualsVmulWithItself := by
  intro s
  have hvmul : exec .vmul s.sourceTwice = s.sourceTwice.finish (elementwise s [s.latch.a] (lane1 s csqr)) :=
    congrArg s.sourceTwice.finish (elementwise_sourceTwice s cmul)
  exact ⟨fun t ht => hvmul.trans (finish_withLatch s.sourceTwice.latch ht),
    fun f hf => hvmul.trans (finish_fault_of_finish_fault s.sourceTwice hf)⟩

end Sys2Proof.Machine
end

section
/-! PROOF. NOP (O29): its completion, its one legal word, and its acceptance by an idle block. -/

namespace Sys2Proof

/-- 0 is the one word that decodes to NOP (R130). -/
theorem decode_eq_nop_iff (w : Word) : decode w = .ok .nop ↔ w = 0 := by
  rw [decode_eq_ok_iff]
  constructor
  · rintro ⟨-, hw⟩
    exact BitVec.eq_of_toNat_eq hw
  · rintro rfl
    exact ⟨rfl, rfl⟩

/-- A legal word with OPC 0 decodes to NOP (R52). -/
theorem eq_nop_of_opcode_zero {w : Word} {i : Instr} (hd : decode w = .ok i) (h : field w 0 8 = 0) : i = .nop := by
  have hopc : i.opcode = 0 := (fields_of_decode hd).1.symm.trans h
  cases i with
  | nop => rfl
  | _ => cases hopc

/-- Of the words with OPC 0 only 0 is legal (R53, R130). -/
theorem legalWord_eq_false_of_opcode_zero {w : Word} (h : field w 0 8 = 0) (hw : w ≠ 0) : legalWord w = false := by
  by_contra hl
  obtain ⟨i, hd⟩ := decode_of_legalWord (Bool.eq_true_of_not_eq_false hl)
  obtain rfl := eq_nop_of_opcode_zero hd h
  exact hw ((decode_eq_nop_iff w).1 hd)

end Sys2Proof

namespace Sys2Proof.Machine

/-- NOP completes with NONE: only STATUS and ERRIDX change (R26, R130). -/
theorem exec_nop (s : State) :
    exec .nop s = .next { s with status := ⟨false, true, false, s.status.haz, .none⟩, erridx := 0 } := rfl

/-- After the acceptance of word 0 the engine's turn executes NOP (R26, R130). -/
theorem engineStep_accept_zero (s : State) : engineStep (s.accept 0) = exec .nop (s.accept 0) :=
  engineStep_of_decode_ok rfl ((decode_eq_nop_iff 0).2 rfl)

/-- Settles O29: NOP finishes with the memory it found, 0 is the word that its fields spell, and an accepted 0 runs it. -/
theorem nopCompletes : Obligations.NopCompletes := by
  refine ⟨exec_nop, fun w => ⟨decode_eq_nop_iff w, legalWord_eq_false_of_opcode_zero⟩, fun s hb => ?_⟩
  rw [writeReg_cmd_of_idle hb]
  exact ⟨rfl, _, (engineStep_accept_zero s).trans (exec_nop _), rfl, rfl, rfl⟩

end Sys2Proof.Machine
end

section
/-! SUPPORT. Exceptions: a command's outcome as a function of parameters, latch and data memory, and what an error leaves (O22, O23); the turns that
lower HAZ (O59); an idle block without a host statement (O7); and the interrupt level (O12). -/

namespace Sys2Proof.Machine

/-! ### Outcomes (R142, R144) -/

/-- Two completions wrote and report the same: data memory, ERRCODE and ERRIDX. -/
def SameOutcome (t t' : State) : Prop :=
  t'.dmem = t.dmem ∧ t'.status.errcode = t.status.errcode ∧ t'.erridx = t.erridx

/-- On the same data memory a result that completes does so from every state, with the same outcome. -/
theorem finish_sameOutcome {s s' t : State} {r : Except Stop Memory} (hm : s'.dmem = s.dmem) (h : s.finish r = .next t) :
    ∃ t', s'.finish r = .next t' ∧ SameOutcome t t' := by
  obtain ⟨m, rfl, hok⟩ | ⟨c, k, rfl, herr⟩ | ⟨e, rfl, hfault⟩ := finish_cases s r
  · cases hok.symm.trans h
    exact ⟨_, rfl, rfl, rfl, rfl⟩
  · cases herr.symm.trans h
    exact ⟨_, rfl, hm, rfl, rfl⟩
  · cases hfault.symm.trans h

theorem engineStep_of_decode_error {s : State} {e : IllegalWord} (hb : s.status.busy = true) (hd : decode s.latch.cmd = .error e) :
    engineStep s = .next (s.complete .illegalCommand 0) := by
  simp [engineStep, hb, hd]

section
variable {s s' t : State} (hp : s'.params = s.params) (hl : s'.latch = s.latch) (hm : s'.dmem = s.dmem)
include hp hl hm

/-- A command computes one result from states that agree on parameters, latch and data memory: it reads nothing else (R25, R39, R144). -/
theorem exec_sameResult (i : Instr) : ∃ r, exec i s = s.finish r ∧ exec i s' = s'.finish r := by
  obtain ⟨p, dmem, status, erridx, regs, latch, host, schedule⟩ := s
  obtain ⟨p', dmem', status', erridx', regs', latch', host', schedule'⟩ := s'
  obtain rfl : p' = p := hp
  obtain rfl : latch' = latch := hl
  obtain rfl : dmem' = dmem := hm
  cases i with
  | nop => exact ⟨.ok dmem', rfl, rfl⟩
  | _ => exact ⟨_, rfl, rfl⟩

theorem exec_sameOutcome {i : Instr} (h : exec i s = .next t) : ∃ t', exec i s' = .next t' ∧ SameOutcome t t' := by
  obtain ⟨r, hr, hr'⟩ := exec_sameResult hp hl hm i
  rw [hr']
  exact finish_sameOutcome hm (hr.symm.trans h)

/-- The engine's completion, with the words that are not legal among its commands (R54). -/
theorem engineStep_sameOutcome (hb : s.status.busy = true) (hb' : s'.status.busy = true) (h : engineStep s = .next t) :
    ∃ t', engineStep s' = .next t' ∧ SameOutcome t t' := by
  obtain ⟨hidle, -⟩ | ⟨-, i, hd, hi⟩ | ⟨-, ⟨e, hd⟩, rfl⟩ := engineStep_cases h
  · cases hb.symm.trans hidle
  · rw [engineStep_of_decode_ok hb' (by rwa [hl])]
    exact exec_sameOutcome hp hl hm hi
  · exact ⟨_, engineStep_of_decode_error hb' (by rwa [hl]), hm, rfl, rfl⟩

end

/-- A busy engine that reports an error has changed only STATUS and ERRIDX (R142). -/
theorem engineStep_error {s t : State} (hb : s.status.busy = true) (h : engineStep s = .next t) (hc : t.status.errcode ≠ .none) :
    ∃ c k, t = s.complete c k := by
  obtain ⟨hidle, -⟩ | ⟨-, i, -, hi⟩ | ⟨-, -, rfl⟩ := engineStep_cases h
  · cases hb.symm.trans hidle
  · obtain ⟨ys, -, rfl⟩ | ⟨c, k, -, -, rfl⟩ := exec_leaves hi
    · exact absurd rfl hc
    · exact ⟨c, k, rfl⟩
  · exact ⟨_, _, rfl⟩

/-- Settles O22: an error completion changes STATUS and ERRIDX only, so the same latch and data memory are there to give its outcome again. -/
theorem errorCompletionWritesNothing : Obligations.ErrorCompletionWritesNothing := by
  intro s t hb h hc
  obtain ⟨c, k, rfl⟩ := engineStep_error hb h hc
  refine ⟨rfl, rfl, fun s' hp hl hm hb' => ?_⟩
  obtain ⟨t', ht', hdmem, hcode, hidx⟩ := engineStep_sameOutcome hp hl hm hb hb' h
  exact ⟨t', ht', hcode, hidx, hdmem.trans hm.symm⟩

/-- Settles O23: both states finish with one result, and a result completes alike or faults alike. -/
theorem outcomeFixedByLatchAndSnapshot : Obligations.OutcomeFixedByLatchAndSnapshot := by
  intro i s s' hp hl hm
  refine ⟨fun t h => exec_sameOutcome hp hl hm h, fun f h => ?_⟩
  obtain ⟨r, hr, hr'⟩ := exec_sameResult hp hl hm i
  exact hr'.trans (finish_fault_of_finish_fault s' (hr.symm.trans h))

/-! ### HAZ (R146, R151) -/

/-- The free turn is never a reset, and the host's only while the block is idle (log entry 5). -/
theorem freeTurn_cases (s : State) :
    (s.status.busy = true ∧ freeTurn s = .engine) ∨ (s.status.busy = false ∧ freeTurn s = .host) := by
  cases hb : s.status.busy <;> simp [freeTurn, hb]

/-- The engine keeps HAZ (R26). -/
theorem engineStep_haz {s t : State} (h : engineStep s = .next t) : t.status.haz = s.status.haz := by
  obtain ⟨-, rfl⟩ | ⟨-, i, -, hi⟩ | ⟨-, -, rfl⟩ := engineStep_cases h
  · rfl
  · obtain ⟨-, -, -, hhaz, -⟩ := everyCommandKeepsItsFrame i s t hi
    exact hhaz
  · rfl

section
variable {s : State} (hs : s.status.haz = true)
include hs

/-- Of the register writes only STATUS with bit 3 set lowers HAZ (R18). -/
theorem eq_status_of_writeReg_lowers_haz {r : Reg} {v : Word} (h : (writeReg s r v).status.haz = false) :
    r = .status ∧ v.getLsbD 3 = true := by
  obtain hw | ⟨rfl, hw⟩ | ⟨-, -, hw⟩ | ⟨-, -, hw⟩ | ⟨g, -, hw⟩ := writeReg_cases s r v
  case inr.inl => exact ⟨rfl, by simpa [hw, hs] using h⟩
  all_goals simp [hw, hs] at h

/-- A host turn lowers HAZ only at a statement that writes such a word to STATUS (R37). -/
theorem hostStep_lowers_haz {t : State} (h : hostStep s = .next t) (ht : t.status.haz = false) :
    ∃ v : Word, v.getLsbD 3 = true ∧ s.host.program[s.host.pc]? = some (.write (s.params.base + 0x010) 8 v) := by
  obtain ⟨u, g, rfl, hu⟩ := hostStep_cases h
  obtain rfl | ⟨-, rfl⟩ | ⟨r, v, hprog, rfl⟩ | ⟨_, _, _, -, -, rfl⟩ := hu
  · cases hs.symm.trans ht
  · cases ht
  · obtain ⟨rfl, hv⟩ := eq_status_of_writeReg_lowers_haz hs ht
    exact ⟨v, hv, hprog⟩
  · cases hs.symm.trans ht

end

/-- Settles O59: of the three turns the engine keeps HAZ, and the host lowers it only by its write. -/
theorem hazardFallsOnlyByClearOrReset : Obligations.HazardFallsOnlyByClearOrReset := by
  intro s t hs hstep ht
  obtain ⟨turn, rest, hturn, hsched⟩ := step_cases hstep
  cases turn with
  | reset =>
    obtain hsched | ⟨-, -, hfree⟩ := hsched
    · exact .inl (by simp [hsched])
    · obtain ⟨-, hf⟩ | ⟨-, hf⟩ := freeTurn_cases s <;> cases hfree.trans hf
  | engine =>
    have hkept := engineStep_haz (s := { s with schedule := rest }) hturn
    cases ht.symm.trans (hkept.trans hs)
  | host =>
    refine .inr ⟨?_, hostStep_lowers_haz (s := { s with schedule := rest }) hs hturn ht⟩
    obtain hsched | ⟨hnil, -, hfree⟩ := hsched
    · exact .inl (by simp [hsched])
    · obtain ⟨-, hf⟩ | ⟨hidle, -⟩ := freeTurn_cases s
      · cases hfree.trans hf
      · exact .inr ⟨hnil, hidle⟩

/-! ### The idle block (R159) -/

/-- With no turn prescribed an idle block leaves the step to the host (log entry 5). -/
theorem step_eq_hostStep_of_idle {s : State} (hb : s.status.busy = false) (hs : s.schedule = []) : step s = hostStep s := by
  simp [step, hs, freeTurn, hb, takeTurn]

/-- After its last statement the host makes no access. -/
theorem hostStep_of_program_ended {s : State} (h : s.host.program.length ≤ s.host.pc) : hostStep s = .next s := by
  simp [hostStep, h]

/-- Settles O7: the turn is the host's, which has no statement for it. -/
theorem idleBlockKeepsItsState : Obligations.IdleBlockKeepsItsState :=
  fun _ hb hs hpc => (step_eq_hostStep_of_idle hb hs).trans (hostStep_of_program_ended hpc)

/-! ### The interrupt level (R150) -/

/-- Bit 4 of STATUS is the level of `irq` (R18, R150). -/
theorem getLsbD_readReg_status_four (s : State) : (readReg s .status).getLsbD 4 = irq s.status s.regs.irqen := by
  obtain ⟨-, -, -, -, hirq, -⟩ := field_statusWord s.status s.regs.irqen
  exact getLsbD_of_field_eq hirq

/-- Settles O12: STATUS shows R150's formula, whose arguments are STATUS and IRQEN. -/
theorem interruptLineLevel : Obligations.InterruptLineLevel := by
  refine fun s => ⟨getLsbD_readReg_status_four s, fun t hstatus hirqen => ?_⟩
  rw [getLsbD_readReg_status_four, getLsbD_readReg_status_four, hstatus, hirqen]

end Sys2Proof.Machine
end

section
/-! SUPPORT. Reset and hazards: a reset turn and the invariant it starts from (O8, O57), the window of a busy block (O16), and the completion of a
running command within the prescribed turns (O60). -/

namespace Sys2Proof.Machine

/-! ### Reset (R170) -/

/-- A prescribed turn is taken, and only the turns after it are still to come (R41). -/
theorem step_eq_takeTurn {s : State} {turn : Turn} {rest : List Turn} (hs : s.schedule = turn :: rest) :
    step s = takeTurn { s with schedule := rest } turn := by
  simp [step, hs]

/-- Settles O8: the reset turn leaves `resetBlock`, whose registers and data memory depend on the parameters alone. -/
theorem resetTurnResetsTheBlock : Obligations.ResetTurnResetsTheBlock := by
  intro s rest hs
  exact ⟨_, step_eq_takeTurn hs, rfl, rfl, rfl, read_nil, rfl, readReg_cfg_congr rfl, rfl⟩

/-- Settles O57: the default parameters are legal, no byte is written, and reset leaves no outcome and no running command. -/
theorem resetHasTheInvariant : Obligations.ResetHasTheInvariant :=
  ⟨by decide, nil_dmemInv _, resetBlock_controlInv State.reset⟩

/-! ### Window accesses of a busy block (R181) -/

section
variable {s : State} {e : Nat} (hp : s.params.legal) (he : e < s.params.dmemEntries) (hb : s.status.busy = true) (hi : Bool)
include hp he hb

/-- While busy a window read returns 0 and sets HAZ, whether or not the half is written (R181). -/
theorem memRead_half_of_busy : memRead s (s.params.base + (windowOffset + halfAddr e hi)) 8 = .ok (0, s.hazard) := by
  simp [memRead, route_half hp hi he, hb]

/-- While busy a window write is dropped and sets HAZ (R181). -/
theorem memWrite_half_of_busy (v : Word) : memWrite s (s.params.base + (windowOffset + halfAddr e hi)) 8 v = .ok s.hazard := by
  simp [memWrite, route_half hp hi he, hb]

end

/-- Settles O16: the address reaches its half, and a busy block answers with `hazard`, which sets HAZ and nothing else. -/
theorem windowAccessWhileBusySetsHaz : Obligations.WindowAccessWhileBusySetsHaz := by
  intro s e hi v hp he hb
  rw [windowAddr_eq]
  exact ⟨memRead_half_of_busy hp he hb hi, memWrite_half_of_busy hp he hb hi v⟩

/-! ### Completion of a running command (R177) -/

/-- A run that does not stop is a step that goes on and a shorter run from the state it leaves. -/
theorem run_succ_eq_next {M : Host.Core} {k : Nat} {s t : M.State} :
    M.run (k + 1) s = .next t ↔ ∃ u, M.step s = .next u ∧ M.run k u = .next t := by
  rw [Host.Core.run]
  cases M.step s <;> simp

@[simp] theorem writeReg_schedule (s : State) (r : Reg) (v : Word) : (writeReg s r v).schedule = s.schedule := by
  obtain e | ⟨-, e⟩ | ⟨-, -, e⟩ | ⟨-, -, e⟩ | ⟨g, -, e⟩ := writeReg_cases s r v <;> simp [e]

/-- A host turn leaves the turns to come as they are (log entry 5). -/
theorem hostStep_schedule {s t : State} (h : hostStep s = .next t) : t.schedule = s.schedule := by
  obtain ⟨u, g, rfl, hu⟩ := hostStep_cases h
  obtain rfl | ⟨-, rfl⟩ | ⟨r, v, -, rfl⟩ | ⟨_, _, _, -, -, rfl⟩ := hu
  · rfl
  · rfl
  · exact writeReg_schedule s r v
  · rfl

/-- A busy engine's turn that goes on completes the command, legal or not (R26, R54). -/
theorem engineStep_completes {s t : State} (hb : s.status.busy = true) (h : engineStep s = .next t) :
    t.status.busy = false ∧ t.status.done = true := by
  obtain ⟨hidle, -⟩ | ⟨-, i, -, hi⟩ | ⟨-, -, rfl⟩ := engineStep_cases h
  · cases hb.symm.trans hidle
  · obtain ⟨-, hbusy, hdone, -⟩ := everyCommandKeepsItsFrame i s t hi
    exact ⟨hbusy, hdone⟩
  · exact ⟨rfl, rfl⟩

/-- While a command runs, a prescribed turn other than reset completes it, or is the host's and leaves it running with the rest to come. -/
theorem step_of_busy_of_turn {s t : State} {turn : Turn} {rest : List Turn} (hb : s.status.busy = true) (hs : s.schedule = turn :: rest)
    (hturn : turn ≠ .reset) (h : step s = .next t) :
    (t.status.busy = false ∧ t.status.done = true) ∨ (t.status.busy = true ∧ t.schedule = rest) := by
  rw [step_eq_takeTurn hs] at h
  cases turn with
  | reset => exact absurd rfl hturn
  | engine => exact .inl (engineStep_completes (s := { s with schedule := rest }) hb h)
  | host =>
    obtain ⟨-, -, hbusy, -⟩ := hostCannotDisturbARunningCommand { s with schedule := rest } t hb h
    exact .inr ⟨hbusy, hostStep_schedule h⟩

/-- Settles O60, by induction on the schedule: each turn completes the command or shortens the schedule, and with none left the engine goes first. -/
theorem runningCommandCompletes : Obligations.RunningCommandCompletes := by
  intro s t hb hreset hrun
  generalize hs : s.schedule = turns at hreset hrun ⊢
  induction turns generalizing s with
  | nil =>
    obtain ⟨u, hstep, -⟩ := run_succ_eq_next.1 hrun
    have hengine := (step_eq_engineStep_of_busy hb hs).symm.trans hstep
    exact ⟨1, u, Nat.le_refl 1, run_succ_eq_next.2 ⟨u, hstep, rfl⟩, engineStep_completes hb hengine⟩
  | cons turn rest ih =>
    obtain ⟨hturn, hrest⟩ := not_or.1 (mt List.mem_cons.2 hreset)
    obtain ⟨u, hstep, hrun⟩ := run_succ_eq_next.1 hrun
    obtain hdone | ⟨hbusy, hsched⟩ := step_of_busy_of_turn hb hs (Ne.symm hturn) hstep
    · exact ⟨1, u, Nat.le_add_left 1 _, run_succ_eq_next.2 ⟨u, hstep, rfl⟩, hdone⟩
    · obtain ⟨j, w, hj, hjrun, hdone⟩ := ih u hbusy hsched hrest hrun
      exact ⟨j + 1, w, Nat.succ_le_succ hj, run_succ_eq_next.2 ⟨u, hstep, hjrun⟩, hdone⟩

end Sys2Proof.Machine
end
